-- ==== Sys2Proof/Word.lean ====
section
/-! DEFINITION. The words of the core and the binary64 number type (00_scope R9 to R11). -/

namespace Sys2Proof

/-- One byte of sample storage. -/
abbrev Byte := BitVec 8

/-- A 16-bit register, a storage word, or the data of a host access (20_memory R51). -/
abbrev Half := BitVec 16

/-- The index of one of the 32 voices (00_scope R7 `NCH`). -/
abbrev VoiceIdx := BitVec 5

/-- A per-channel register number, `offset & 0x1F` (30_encoding R61). -/
abbrev RegNum := BitVec 5

/-- A 24-bit sample address or loop distance (10_state R22). -/
abbrev Addr24 := BitVec 24

/-- A playback position: 24 integer bits and 16 fraction bits (10_state R23). -/
abbrev Pos := BitVec 40

/-- A phase increment, in units of 2^-16 sample (10_state R23). -/
abbrev StepWord := BitVec 22

/-- The access word: W in bit 32, the offset in bits 31:16, the data in bits 15:0
(30_encoding R60). -/
abbrev AccessWord := BitVec 33

/-- A finite IEEE 754 binary64 number (00_scope R11), as the exact multiple of 2^-1074 that it is:
its value is `units * 2^-1074`. Every finite binary64 number, subnormals among them, is such a
multiple; the two zeros are one value, which no rule tells apart, and no infinity or NaN arises
(R11, log 10). -/
structure F64 where
  /-- The value times 2^1074, an integer. -/
  units : Int
deriving DecidableEq, Repr, Inhabited

end Sys2Proof
end

