-- ==== Sys2Proof/Config.lean ====
section
/-! DEFINITION. The parameters the spec leaves OPEN (00_scope R7) as plain data, with the default
instance the spec names. The record is held in the state and no step writes it (log 1). -/

namespace Sys2Proof

/-- `CH_REG_MAP` (30_encoding R64): the number of the per-channel register each field is written
through. A register number that is none of these is unlisted. -/
structure ChRegMap where
  startH    : RegNum
  startL    : RegNum
  freq      : RegNum
  endL      : RegNum
  endHloopH : RegNum
  loopL     : RegNum
  pan       : RegNum
  effect    : RegNum
  volume    : RegNum
  attack    : RegNum
  decay     : RegNum
  release   : RegNum
  cutoff    : RegNum
deriving DecidableEq, Repr

/-- The default `CH_REG_MAP` of 30_encoding R64. PRESUMED by the spec from general knowledge, and
the numbers of spec/opcode_table.json (log 2). -/
def defaultChRegMap : ChRegMap :=
  { startH := 0x00, startL := 0x01, freq := 0x02, endL := 0x03, endHloopH := 0x04, loopL := 0x05,
    pan := 0x06, effect := 0x07, volume := 0x08, attack := 0x09, decay := 0x0C, release := 0x0E,
    cutoff := 0x10 }

/-- The thirteen register numbers of the map. -/
def chRegMapNumbers (m : ChRegMap) : List RegNum :=
  [m.startH, m.startL, m.freq, m.endL, m.endHloopH, m.loopL, m.pan, m.effect, m.volume, m.attack,
    m.decay, m.release, m.cutoff]

/-- A register map gives each field a register of its own (30_encoding R64). -/
abbrev ChRegMap.wf (m : ChRegMap) : Prop := (chRegMapNumbers m).Nodup

/-- Which byte of a storage word lies at the lower address. It belongs to the storage collaborator
and no rule of the core depends on it (20_memory R49, log 8). -/
inductive ByteOrder where
  | little
  | big
deriving DecidableEq, Repr

/-- `RATE_INDEX` (43 R143), a parameter: the default instance, or some other total function, which
`Config.rateIndexOther` names and about which nothing is known (log 3). -/
inductive RateIndexFn where
  | decode80
  | other (k : Nat)
deriving DecidableEq, Repr

/-- Any total function from 16-bit rate registers to table indices 0 to 0x9E (43 R143), one for each
`k`. FREE VALUE (log 3): it has no body, so a statement about it holds of every such function. -/
opaque Config.rateIndexOther : Nat → Half → Fin 0x9F

/-- The three constants of one rate table (43 R144, R145). -/
structure RateConsts where
  /-- `MIN`: entries below it are saturated. -/
  min : Nat
  /-- `MAX`: entries at and above it are 0.0. -/
  max : Nat
  /-- `SPEED`, a positive binary64 number. -/
  speed : F64
deriving DecidableEq, Repr

/-- The OPEN parameters of 00_scope R7, but for `CLOCK`, which is state of its own (10_state R27). -/
structure Params where
  chRegMap     : ChRegMap
  rateIndex    : RateIndexFn
  attackRate   : RateConsts
  decayRate    : RateConsts
  releaseRate  : RateConsts
  /-- `PAN_OOR`, the pan factor of codes 0x64 to 0xFF (44 R163). -/
  panOor       : F64
  /-- `STORAGE_BYTES`, the storage collaborator's range (60 R186). -/
  storageBytes : Nat
  /-- The storage collaborator's byte order (20_memory R49). -/
  byteOrder    : ByteOrder
deriving DecidableEq, Repr

end Sys2Proof
end

