-- ==== Sys2Proof/Syntax.lean ====
section
/-! DEFINITION. The instructions: the 30 access kinds of spec/opcode_table.json, one constructor a
row, in the table's order. -/

namespace Sys2Proof

/-- A host register access (30_encoding R60 to R77). The operands are the bit fields of the access
word that the row leaves free: `ch` a voice, `reg` a per-channel register number, `data` the 16 data
bits, `offset` a global offset, `ignored` the data bits the command does not look at, and `page` the
offset bits 15:10 of a per-channel access, which alias (R65) and are never all zero (log 23). -/
inductive Instr where
  /-- WR_STATUS, 40 R81. -/
  | wrStatus (data : Half)
  /-- RD_STATUS, 40 R82. -/
  | rdStatus
  /-- WR_KEYON, 40 R84; `ignored` is data bits 15:7. -/
  | wrKeyon (ch : VoiceIdx) (ignored : BitVec 9)
  /-- WR_KEYOFF, 40 R85; `ignored` is data bits 15:7. -/
  | wrKeyoff (ch : VoiceIdx) (ignored : BitVec 9)
  /-- WR_MUTE, 40 R86; `low` is data bit 5 (commands 0b00 and 0b01), `ignored` data bits 15:7. -/
  | wrMute (ch : VoiceIdx) (low : BitVec 1) (ignored : BitVec 9)
  /-- WR_REQCH, 40 R87; `ignored` is data bits 15:5. -/
  | wrReqch (ch : VoiceIdx) (ignored : BitVec 11)
  /-- RD_POS, 40 R88. -/
  | rdPos
  /-- WR_EXTADDR_LO, 40 R89. -/
  | wrExtaddrLo (data : Half)
  /-- WR_EXTADDR_HI, 40 R90. -/
  | wrExtaddrHi (data : Half)
  /-- WR_EXTDATA, 40 R91. -/
  | wrExtdata (data : Half)
  /-- WR_EXTWRITE, 40 R92; `ignored` is data bits 15:2. -/
  | wrExtwrite (ignored : BitVec 14)
  /-- WR_EXTCMD_NOP, 40 R93; `cmd` is data bits 1:0, not 0b11, `ignored` data bits 15:2. -/
  | wrExtcmdNop (cmd : BitVec 2) (ignored : BitVec 14)
  /-- RD_EXTDATA, 40 R94. -/
  | rdExtdata
  /-- WR_GLOBAL_NOP, 40 R95. -/
  | wrGlobalNop (offset : Half) (data : Half)
  /-- RD_GLOBAL_ZERO, 40 R96. -/
  | rdGlobalZero (offset : Half)
  /-- WR_CH_STARTH, 40 R97. -/
  | wrChStarth (page : BitVec 6) (ch : VoiceIdx) (data : Half)
  /-- WR_CH_STARTL, 40 R98. -/
  | wrChStartl (page : BitVec 6) (ch : VoiceIdx) (data : Half)
  /-- WR_CH_FREQ, 40 R99. -/
  | wrChFreq (page : BitVec 6) (ch : VoiceIdx) (data : Half)
  /-- WR_CH_ENDL, 40 R100. -/
  | wrChEndl (page : BitVec 6) (ch : VoiceIdx) (data : Half)
  /-- WR_CH_ENDH_LOOPH, 40 R101. -/
  | wrChEndhLooph (page : BitVec 6) (ch : VoiceIdx) (data : Half)
  /-- WR_CH_LOOPL, 40 R102. -/
  | wrChLoopl (page : BitVec 6) (ch : VoiceIdx) (data : Half)
  /-- WR_CH_PAN, 40 R103. -/
  | wrChPan (page : BitVec 6) (ch : VoiceIdx) (data : Half)
  /-- WR_CH_EFFECT, 40 R104. -/
  | wrChEffect (page : BitVec 6) (ch : VoiceIdx) (data : Half)
  /-- WR_CH_VOLUME, 40 R105. -/
  | wrChVolume (page : BitVec 6) (ch : VoiceIdx) (data : Half)
  /-- WR_CH_ATTACK, 40 R106. -/
  | wrChAttack (page : BitVec 6) (ch : VoiceIdx) (data : Half)
  /-- WR_CH_DECAY, 40 R107. -/
  | wrChDecay (page : BitVec 6) (ch : VoiceIdx) (data : Half)
  /-- WR_CH_RELEASE, 40 R108. -/
  | wrChRelease (page : BitVec 6) (ch : VoiceIdx) (data : Half)
  /-- WR_CH_CUTOFF, 40 R109. -/
  | wrChCutoff (page : BitVec 6) (ch : VoiceIdx) (data : Half)
  /-- WR_CH_NOP, 40 R110; `reg` is none of `CH_REG_MAP`. -/
  | wrChNop (page : BitVec 6) (ch : VoiceIdx) (reg : RegNum) (data : Half)
  /-- RD_CH, 40 R111. -/
  | rdCh (page : BitVec 6) (ch : VoiceIdx) (reg : RegNum)
deriving DecidableEq, Repr

/-- The row of spec/opcode_table.json an instruction belongs to, by its mnemonic. -/
def Instr.mnemonic : Instr → String
  | .wrStatus _ => "WR_STATUS"
  | .rdStatus => "RD_STATUS"
  | .wrKeyon _ _ => "WR_KEYON"
  | .wrKeyoff _ _ => "WR_KEYOFF"
  | .wrMute _ _ _ => "WR_MUTE"
  | .wrReqch _ _ => "WR_REQCH"
  | .rdPos => "RD_POS"
  | .wrExtaddrLo _ => "WR_EXTADDR_LO"
  | .wrExtaddrHi _ => "WR_EXTADDR_HI"
  | .wrExtdata _ => "WR_EXTDATA"
  | .wrExtwrite _ => "WR_EXTWRITE"
  | .wrExtcmdNop _ _ => "WR_EXTCMD_NOP"
  | .rdExtdata => "RD_EXTDATA"
  | .wrGlobalNop _ _ => "WR_GLOBAL_NOP"
  | .rdGlobalZero _ => "RD_GLOBAL_ZERO"
  | .wrChStarth _ _ _ => "WR_CH_STARTH"
  | .wrChStartl _ _ _ => "WR_CH_STARTL"
  | .wrChFreq _ _ _ => "WR_CH_FREQ"
  | .wrChEndl _ _ _ => "WR_CH_ENDL"
  | .wrChEndhLooph _ _ _ => "WR_CH_ENDH_LOOPH"
  | .wrChLoopl _ _ _ => "WR_CH_LOOPL"
  | .wrChPan _ _ _ => "WR_CH_PAN"
  | .wrChEffect _ _ _ => "WR_CH_EFFECT"
  | .wrChVolume _ _ _ => "WR_CH_VOLUME"
  | .wrChAttack _ _ _ => "WR_CH_ATTACK"
  | .wrChDecay _ _ _ => "WR_CH_DECAY"
  | .wrChRelease _ _ _ => "WR_CH_RELEASE"
  | .wrChCutoff _ _ _ => "WR_CH_CUTOFF"
  | .wrChNop _ _ _ _ => "WR_CH_NOP"
  | .rdCh _ _ _ => "RD_CH"

end Sys2Proof
end

