-- ==== Sys2Proof/WellFormed.lean ====
section
/-! DEFINITION. Which terms of Instr are the reading of an access word (30_encoding R61 to R65). -/

namespace Sys2Proof

/-- The global offsets a write of which has a row of its own: every other write below 0x400 is
WR_GLOBAL_NOP (40 R95). -/
def writtenGlobals : List Half := [0x0000, 0x0001, 0x0008, 0x0011, 0x0012, 0x0013, 0x0014]

/-- The global offsets a read of which has a row of its own: every other read below 0x400 is
RD_GLOBAL_ZERO (40 R96). -/
def readGlobals : List Half := [0x0000, 0x0009, 0x0013]

/-- A global offset, below 0x400 (30_encoding R61). -/
abbrev isGlobalOffset (offset : Half) : Prop := offset.toNat < 0x400

/-- Offset bits 15:10 of a per-channel access: not all zero (30_encoding R61, R65). -/
abbrev isChannelPage (page : BitVec 6) : Prop := page ≠ 0

/-- The operand checks of each access kind under the register map `m`. -/
def Instr.wellFormed (m : ChRegMap) : Instr → Bool
  | .wrStatus _ => true
  | .rdStatus => true
  | .wrKeyon _ _ => true
  | .wrKeyoff _ _ => true
  | .wrMute _ _ _ => true
  | .wrReqch _ _ => true
  | .rdPos => true
  | .wrExtaddrLo _ => true
  | .wrExtaddrHi _ => true
  | .wrExtdata _ => true
  | .wrExtwrite _ => true
  | .wrExtcmdNop cmd _ => decide (cmd ≠ 3)
  | .rdExtdata => true
  | .wrGlobalNop offset _ => decide (isGlobalOffset offset ∧ offset ∉ writtenGlobals)
  | .rdGlobalZero offset => decide (isGlobalOffset offset ∧ offset ∉ readGlobals)
  | .wrChStarth page _ _ => decide (isChannelPage page)
  | .wrChStartl page _ _ => decide (isChannelPage page)
  | .wrChFreq page _ _ => decide (isChannelPage page)
  | .wrChEndl page _ _ => decide (isChannelPage page)
  | .wrChEndhLooph page _ _ => decide (isChannelPage page)
  | .wrChLoopl page _ _ => decide (isChannelPage page)
  | .wrChPan page _ _ => decide (isChannelPage page)
  | .wrChEffect page _ _ => decide (isChannelPage page)
  | .wrChVolume page _ _ => decide (isChannelPage page)
  | .wrChAttack page _ _ => decide (isChannelPage page)
  | .wrChDecay page _ _ => decide (isChannelPage page)
  | .wrChRelease page _ _ => decide (isChannelPage page)
  | .wrChCutoff page _ _ => decide (isChannelPage page)
  | .wrChNop page _ reg _ => decide (isChannelPage page ∧ reg ∉ chRegMapNumbers m)
  | .rdCh page _ _ => decide (isChannelPage page)

end Sys2Proof
end

