-- ==== Sys2Proof/Decode.lean ====
section
/-! DEFINITION. The decoder of access words, the encoder, and the machine-readable opcode table
(30_encoding R60 to R80). -/

namespace Sys2Proof

/-! ## Packing an access word (R60) -/

/-- The access word `{W, offset, data}` of R60. -/
def accessWord (write : Bool) (offset data : Half) : AccessWord :=
  BitVec.ofBool write ++ offset ++ data

/-- `W`, bit 32 of the access word: 1 for a write (R60). -/
def accessIsWrite (w : AccessWord) : Bool := w.getLsbD 32

/-- The offset, bits 31:16 of the access word (R60). -/
def accessOffset (w : AccessWord) : Half := w.extractLsb' 16 16

/-- The data, bits 15:0 of the access word (R60). -/
def accessData (w : AccessWord) : Half := w.extractLsb' 0 16

/-- A per-channel offset from its alias bits 15:10, voice 9:5 and register 4:0 (R61, R65). -/
def channelOffset (page : BitVec 6) (ch : VoiceIdx) (reg : RegNum) : Half := page ++ ch ++ reg

/-- Offset bits 15:10, which alias (R65). -/
def offsetPage (offset : Half) : BitVec 6 := offset.extractLsb' 10 6

/-- `channel = (offset >> 5) & 0x1F` (R61). -/
def offsetChannel (offset : Half) : VoiceIdx := offset.extractLsb' 5 5

/-- `reg = offset & 0x1F` (R61). -/
def offsetReg (offset : Half) : RegNum := offset.extractLsb' 0 5

/-! ## The data fields of the commands (R67, R73, R74) -/

/-- Data bits 4:0, a voice index (R67, R74). -/
def dataVoice (data : Half) : VoiceIdx := data.extractLsb' 0 5

/-- Data bits 6:5, the channel-control command (R67). -/
def dataChannelCommand (data : Half) : BitVec 2 := data.extractLsb' 5 2

/-- Data bits 1:0, the external-memory command (R73). -/
def dataExtCommand (data : Half) : BitVec 2 := data.extractLsb' 0 2

/-! ## The decoder -/

/-- A write at offset 0x001: key-on, key-off or mute (R67, 40 R83). -/
def decodeChannelControl (data : Half) : Instr :=
  let ch := dataVoice data
  let ignored : BitVec 9 := data.extractLsb' 7 9
  if dataChannelCommand data = 0b11 then .wrKeyon ch ignored
  else if dataChannelCommand data = 0b10 then .wrKeyoff ch ignored
  else .wrMute ch (data.extractLsb' 5 1) ignored

/-- A write at offset 0x014: the commit, or no effect (R73). -/
def decodeExtCommand (data : Half) : Instr :=
  let ignored : BitVec 14 := data.extractLsb' 2 14
  if dataExtCommand data = 0b11 then .wrExtwrite ignored
  else .wrExtcmdNop (dataExtCommand data) ignored

/-- The write column of the global offsets (R62). -/
def decodeGlobalWrite (offset data : Half) : Instr :=
  if offset = 0x000 then .wrStatus data
  else if offset = 0x001 then decodeChannelControl data
  else if offset = 0x008 then .wrReqch (dataVoice data) (data.extractLsb' 5 11)
  else if offset = 0x011 then .wrExtaddrLo data
  else if offset = 0x012 then .wrExtaddrHi data
  else if offset = 0x013 then .wrExtdata data
  else if offset = 0x014 then decodeExtCommand data
  else .wrGlobalNop offset data

/-- The read column of the global offsets (R62). -/
def decodeGlobalRead (offset : Half) : Instr :=
  if offset = 0x000 then .rdStatus
  else if offset = 0x009 then .rdPos
  else if offset = 0x013 then .rdExtdata
  else .rdGlobalZero offset

/-- A write at a per-channel offset under the register map `m` (R64). -/
def decodeChannelWrite (m : ChRegMap) (page : BitVec 6) (ch : VoiceIdx) (reg : RegNum)
    (data : Half) : Instr :=
  if reg = m.startH then .wrChStarth page ch data
  else if reg = m.startL then .wrChStartl page ch data
  else if reg = m.freq then .wrChFreq page ch data
  else if reg = m.endL then .wrChEndl page ch data
  else if reg = m.endHloopH then .wrChEndhLooph page ch data
  else if reg = m.loopL then .wrChLoopl page ch data
  else if reg = m.pan then .wrChPan page ch data
  else if reg = m.effect then .wrChEffect page ch data
  else if reg = m.volume then .wrChVolume page ch data
  else if reg = m.attack then .wrChAttack page ch data
  else if reg = m.decay then .wrChDecay page ch data
  else if reg = m.release then .wrChRelease page ch data
  else if reg = m.cutoff then .wrChCutoff page ch data
  else .wrChNop page ch reg data

/-- The instruction of an access `(W, offset, data)`: global below 0x400, else per-channel (R61). A
read's data is absent (R60), so its bits are not looked at (log 18). -/
def decodeAccess (m : ChRegMap) (write : Bool) (offset data : Half) : Instr :=
  if offset.toNat < 0x400 then
    if write then decodeGlobalWrite offset data else decodeGlobalRead offset
  else if write then
    decodeChannelWrite m (offsetPage offset) (offsetChannel offset) (offsetReg offset) data
  else .rdCh (offsetPage offset) (offsetChannel offset) (offsetReg offset)

/-- The decoder: total, every access word has exactly one reading (R63). -/
def decode (m : ChRegMap) (w : AccessWord) : Instr :=
  decodeAccess m (accessIsWrite w) (accessOffset w) (accessData w)

/-! ## Access words laid out as bytes -/

/-- Why a byte string is no access word. -/
inductive DecodeError where
  /-- Fewer than the five bytes that hold 33 bits. -/
  | tooShort
  /-- A bit above bit 32 is set: an access word has 33 bits (R60, R77). -/
  | bitsAboveW
deriving DecidableEq, Repr

/-- The number whose bytes are `bs`, the first byte the least significant. -/
def bytesToNat : List Byte → Nat
  | [] => 0
  | b :: bs => b.toNat + 256 * bytesToNat bs

/-- The five bytes of a number, bit 0 in the first byte. -/
def natToBytes (w : Nat) : List Byte :=
  [BitVec.ofNat 8 w, BitVec.ofNat 8 (w / 2 ^ 8), BitVec.ofNat 8 (w / 2 ^ 16),
    BitVec.ofNat 8 (w / 2 ^ 24), BitVec.ofNat 8 (w / 2 ^ 32)]

/-- The instruction at the front of a byte string and the rest of the string. The access word is the
spec's own device (R60, 91 N20) and is stored nowhere; its bytes are laid out in the order in which
spec/opcode_table.json numbers its bits (log 20). -/
def decodeBytes (m : ChRegMap) (bs : List Byte) : Except DecodeError (Instr × List Byte) :=
  match bs with
  | b0 :: b1 :: b2 :: b3 :: b4 :: rest =>
    if b4.toNat < 2 then
      .ok (decode m (BitVec.ofNat 33 (bytesToNat [b0, b1, b2, b3, b4])), rest)
    else .error .bitsAboveW
  | _ => .error .tooShort

/-- The instruction the decoder reads, with the default register map (the opcode table's), from a
word `w` of `nbits` bits numbered as the opcode table numbers them; bits above `nbits` are 0. -/
def decodeTableWord (nbits w : Nat) : Option Instr :=
  match decodeBytes defaultChRegMap (natToBytes (w % 2 ^ nbits)) with
  | .ok (i, _) => some i
  | .error _ => none

/-! ## The encoder -/

/-- Data of a channel-control write: ignored bits 15:7, command 6:5, voice 4:0 (R67). -/
def channelControlData (ignored : BitVec 9) (cmd : BitVec 2) (ch : VoiceIdx) : Half :=
  ignored ++ cmd ++ ch

/-- Data of an external-memory command: ignored bits 15:2, command 1:0 (R73). -/
def extCommandData (ignored : BitVec 14) (cmd : BitVec 2) : Half := ignored ++ cmd

/-- A per-channel write of register `reg` (R61, R64). -/
def encodeChannelWrite (page : BitVec 6) (ch : VoiceIdx) (reg : RegNum) (data : Half) :
    AccessWord :=
  accessWord true (channelOffset page ch reg) data

/-- The access word of an instruction under the register map `m`; a read's data bits are 0 (R60). -/
def encode (m : ChRegMap) : Instr → AccessWord
  | .wrStatus data => accessWord true 0x000 data
  | .rdStatus => accessWord false 0x000 0
  | .wrKeyon ch ignored => accessWord true 0x001 (channelControlData ignored 0b11 ch)
  | .wrKeyoff ch ignored => accessWord true 0x001 (channelControlData ignored 0b10 ch)
  | .wrMute ch low ignored =>
    accessWord true 0x001 (channelControlData ignored ((0 : BitVec 1) ++ low) ch)
  | .wrReqch ch ignored => accessWord true 0x008 (ignored ++ ch)
  | .rdPos => accessWord false 0x009 0
  | .wrExtaddrLo data => accessWord true 0x011 data
  | .wrExtaddrHi data => accessWord true 0x012 data
  | .wrExtdata data => accessWord true 0x013 data
  | .wrExtwrite ignored => accessWord true 0x014 (extCommandData ignored 0b11)
  | .wrExtcmdNop cmd ignored => accessWord true 0x014 (extCommandData ignored cmd)
  | .rdExtdata => accessWord false 0x013 0
  | .wrGlobalNop offset data => accessWord true offset data
  | .rdGlobalZero offset => accessWord false offset 0
  | .wrChStarth page ch data => encodeChannelWrite page ch m.startH data
  | .wrChStartl page ch data => encodeChannelWrite page ch m.startL data
  | .wrChFreq page ch data => encodeChannelWrite page ch m.freq data
  | .wrChEndl page ch data => encodeChannelWrite page ch m.endL data
  | .wrChEndhLooph page ch data => encodeChannelWrite page ch m.endHloopH data
  | .wrChLoopl page ch data => encodeChannelWrite page ch m.loopL data
  | .wrChPan page ch data => encodeChannelWrite page ch m.pan data
  | .wrChEffect page ch data => encodeChannelWrite page ch m.effect data
  | .wrChVolume page ch data => encodeChannelWrite page ch m.volume data
  | .wrChAttack page ch data => encodeChannelWrite page ch m.attack data
  | .wrChDecay page ch data => encodeChannelWrite page ch m.decay data
  | .wrChRelease page ch data => encodeChannelWrite page ch m.release data
  | .wrChCutoff page ch data => encodeChannelWrite page ch m.cutoff data
  | .wrChNop page ch reg data => encodeChannelWrite page ch reg data
  | .rdCh page ch reg => accessWord false (channelOffset page ch reg) 0

/-! ## The opcode table (R80) -/

/-- Whether a row applies to every offset, to global offsets only, or to per-channel offsets only:
its `cond` (R80). -/
inductive RowCond where
  | any
  | global
  | channel
deriving DecidableEq, Repr

/-- A row of spec/opcode_table.json over the 33-bit access word (R80). -/
structure OpcodeRow where
  mnemonic : String
  pattern  : AccessWord
  mask     : AccessWord
  cond     : RowCond
deriving DecidableEq, Repr

/-- The rows of spec/opcode_table.json, in its order, with its match, mask and cond. -/
def opcodeTable : List OpcodeRow :=
  [⟨"WR_STATUS", 0x100000000, 0x1FFFF0000, .any⟩,
   ⟨"RD_STATUS", 0x000000000, 0x1FFFF0000, .any⟩,
   ⟨"WR_KEYON", 0x100010060, 0x1FFFF0060, .any⟩,
   ⟨"WR_KEYOFF", 0x100010040, 0x1FFFF0060, .any⟩,
   ⟨"WR_MUTE", 0x100010000, 0x1FFFF0040, .any⟩,
   ⟨"WR_REQCH", 0x100080000, 0x1FFFF0000, .any⟩,
   ⟨"RD_POS", 0x000090000, 0x1FFFF0000, .any⟩,
   ⟨"WR_EXTADDR_LO", 0x100110000, 0x1FFFF0000, .any⟩,
   ⟨"WR_EXTADDR_HI", 0x100120000, 0x1FFFF0000, .any⟩,
   ⟨"WR_EXTDATA", 0x100130000, 0x1FFFF0000, .any⟩,
   ⟨"WR_EXTWRITE", 0x100140003, 0x1FFFF0003, .any⟩,
   ⟨"WR_EXTCMD_NOP", 0x100140000, 0x1FFFF0000, .any⟩,
   ⟨"RD_EXTDATA", 0x000130000, 0x1FFFF0000, .any⟩,
   ⟨"WR_GLOBAL_NOP", 0x100000000, 0x1FC000000, .global⟩,
   ⟨"RD_GLOBAL_ZERO", 0x000000000, 0x1FC000000, .global⟩] ++
  [⟨"WR_CH_STARTH", 0x100000000, 0x1001F0000, .channel⟩,
   ⟨"WR_CH_STARTL", 0x100010000, 0x1001F0000, .channel⟩,
   ⟨"WR_CH_FREQ", 0x100020000, 0x1001F0000, .channel⟩,
   ⟨"WR_CH_ENDL", 0x100030000, 0x1001F0000, .channel⟩,
   ⟨"WR_CH_ENDH_LOOPH", 0x100040000, 0x1001F0000, .channel⟩,
   ⟨"WR_CH_LOOPL", 0x100050000, 0x1001F0000, .channel⟩,
   ⟨"WR_CH_PAN", 0x100060000, 0x1001F0000, .channel⟩,
   ⟨"WR_CH_EFFECT", 0x100070000, 0x1001F0000, .channel⟩,
   ⟨"WR_CH_VOLUME", 0x100080000, 0x1001F0000, .channel⟩,
   ⟨"WR_CH_ATTACK", 0x100090000, 0x1001F0000, .channel⟩,
   ⟨"WR_CH_DECAY", 0x1000C0000, 0x1001F0000, .channel⟩,
   ⟨"WR_CH_RELEASE", 0x1000E0000, 0x1001F0000, .channel⟩,
   ⟨"WR_CH_CUTOFF", 0x100100000, 0x1001F0000, .channel⟩,
   ⟨"WR_CH_NOP", 0x100000000, 0x100000000, .channel⟩,
   ⟨"RD_CH", 0x000000000, 0x100000000, .channel⟩]

/-- Whether a row's `cond` admits an offset (R80). -/
def rowCondHolds (c : RowCond) (offset : Half) : Bool :=
  match c with
  | .any => true
  | .global => decide (offset.toNat < 0x400)
  | .channel => decide (0x400 ≤ offset.toNat)

/-- Whether a row matches an access word (R80). -/
def rowMatches (r : OpcodeRow) (w : AccessWord) : Bool :=
  rowCondHolds r.cond (accessOffset w) && (w &&& r.mask == r.pattern)

/-- How many mask bits a row sets (R80). -/
def maskBits (r : OpcodeRow) : Nat :=
  ((List.range 33).filter fun k => r.mask.getLsbD k).length

/-- A row that matches `w` and sets more mask bits than every other row that matches it: the row the
rule R80 selects. -/
def rowSelected (r : OpcodeRow) (w : AccessWord) : Bool :=
  rowMatches r w && opcodeTable.all fun q => q == r || !rowMatches q w || decide (maskBits q < maskBits r)

end Sys2Proof
end

