-- ==== Sys2Proof/Machine/Float.lean ====
section
/-! DEFINITION. binary64 arithmetic: correctly rounded, to nearest, ties to even (00_scope R10, R11).
Every operation is computed exactly on integers and rounded once at its end. -/

namespace Sys2Proof.Machine

/-- 2^1074: how many units of `F64.units` make 1.0. Irreducible, so that no proof unfolds the power by
accident. -/
@[irreducible] def f64One : Nat := 2 ^ 1074

/-- The quantum of a magnitude of `q` whole units, as a power of two: 1 unit while `q` has at most 53
bits (subnormals, and the least normals), else what leaves 53 bits. -/
def f64Quantum (q : Nat) : Nat := q.log2 - 52

/-- The binary64 magnitude nearest `num / den` units, ties to even (R11). -/
def f64RoundMag (num den : Nat) : Nat :=
  let k := f64Quantum (num / den)
  let d := den * 2 ^ k
  let m := num / d
  let r := num % d
  (if d < 2 * r ∨ (2 * r = d ∧ m % 2 = 1) then m + 1 else m) * 2 ^ k

/-- The binary64 number nearest `num / den` units, ties to even (R11). -/
def f64Round (num : Int) (den : Nat) : F64 := ⟨num.sign * f64RoundMag num.natAbs den⟩

/-- 0.0. -/
def f64Zero : F64 := ⟨0⟩

/-- 1.0. -/
def f64Unit : F64 := ⟨f64One⟩

/-- `f64(n)`, the conversion of an integer (R11). -/
def f64OfInt (n : Int) : F64 := f64Round (n * f64One) 1

/-- Addition (R11). -/
def f64Add (a b : F64) : F64 := f64Round (a.units + b.units) 1

/-- Multiplication (R11). -/
def f64Mul (a b : F64) : F64 := f64Round (a.units * b.units) f64One

/-- Division (R11): no rule divides by zero. -/
def f64Div (a b : F64) : F64 := f64Round (a.units * f64One * b.units.sign) b.units.natAbs

/-- Newton's iteration for the integer square root, from above. -/
def natSqrtIter (n : Nat) : Nat → Nat → Nat
  | 0, x => x
  | fuel + 1, x =>
    let y := (x + n / x) / 2
    if y < x then natSqrtIter n fuel y else x

/-- The greatest natural number whose square is at most `n`. -/
def natSqrt (n : Nat) : Nat := natSqrtIter n (n.log2 + 2) (2 ^ (n.log2 / 2 + 1))

/-- Square root of a number that is not negative (R11): with `n` the exact square of the result in
units, the quotient of its integer root by the quantum, rounded by comparing squares. -/
def f64Sqrt (a : F64) : F64 :=
  let n := a.units.toNat * f64One
  let s := natSqrt n
  let k := f64Quantum s
  let m := s / 2 ^ k
  let half := (2 * m + 1) * 2 ^ k
  ⟨((if half * half < 4 * n ∨ (half * half = 4 * n ∧ m % 2 = 1) then m + 1 else m) * 2 ^ k : Nat)⟩

/-- `a <= b`. -/
def f64Le (a b : F64) : Bool := decide (a.units ≤ b.units)

/-- `trunc`: the integer nearest toward zero (R10). -/
def f64Trunc (a : F64) : Int := a.units.tdiv f64One

/-- The number a binary64 bit pattern writes: sign in bit 63, exponent 62:52, fraction 51:0. The
patterns of infinities and NaNs write no number, and none arises (R11). -/
def f64OfBits (b : BitVec 64) : F64 :=
  let e := (b.extractLsb' 52 11).toNat
  let f := (b.extractLsb' 0 52).toNat
  let mag : Nat := if e = 0 then f else (2 ^ 52 + f) * 2 ^ (e - 1)
  ⟨if b.getLsbD 63 then -(mag : Int) else mag⟩

/-- The binary64 bit pattern of a finite number; zero has the pattern of +0.0. -/
def f64ToBits (x : F64) : BitVec 64 :=
  let n := x.units.natAbs
  let mag : Nat :=
    if n < 2 ^ 52 then n
    else
      let k := f64Quantum n
      (k + 1) * 2 ^ 52 + (n / 2 ^ k - 2 ^ 52)
  BitVec.ofNat 64 (if x.units < 0 then 2 ^ 63 + mag else mag)

end Sys2Proof.Machine
end

