-- ==== Sys2Proof/Machine/Tables.lean ====
section
/-! DEFINITION. The five read-only tables of the core (10_state R26): the volume and pan attenuation
tables (44 R161, R162) and the three envelope rate tables (43 R143 to R145). -/

namespace Sys2Proof.Machine

/-! ## Attenuation tables, built once -/

/-- Rows 0x00 to 0x7F of the volume table listed in 44 R161. -/
def volumeRowsLow : List Half :=
  [255, 246, 239, 231, 224, 216, 209, 203, 196, 190, 184, 178, 172, 167, 162, 156,
   151, 147, 142, 137, 133, 129, 125, 121, 117, 113, 109, 106, 102, 99, 96, 93,
   90, 87, 84, 82, 79, 76, 74, 72, 69, 67, 65, 63, 61, 59, 57, 55,
   53, 52, 50, 48, 47, 45, 44, 42, 41, 40, 38, 37, 36, 35, 34, 33,
   32, 31, 30, 29, 28, 27, 26, 25, 24, 23, 23, 22, 21, 21, 20, 19,
   19, 18, 17, 17, 16, 16, 15, 15, 14, 14, 13, 13, 12, 12, 12, 11,
   11, 11, 10, 10, 10, 9, 9, 9, 8, 8, 8, 7, 7, 7, 7, 7,
   6, 6, 6, 6, 5, 5, 5, 5, 5, 5, 4, 4, 4, 4, 4, 4]

/-- Rows 0x80 to 0xFF of the volume table listed in 44 R161: 0 from index 172 on. -/
def volumeRowsHigh : List Half :=
  [4, 3, 3, 3, 3, 3, 3, 3, 3, 3, 2, 2, 2, 2, 2, 2,
   2, 2, 2, 2, 2, 2, 1, 1, 1, 1, 1, 1, 1, 1, 1, 1,
   1, 1, 1, 1, 1, 1, 1, 1, 1, 1, 1, 1, 0, 0, 0, 0] ++
    List.replicate 80 0

/-- Entries 0x00 to 0x47 of the pan table listed in 44 R162, as binary64 bit patterns. -/
def panBits : List (BitVec 64) :=
  [0x3FF0000000000000, 0x3FEFC61AF3BC6497, 0x3FEF8BCBA7F1EF06, 0x3FEF510FCB24F6C5,
   0x3FEF15E4F5F2F75C, 0x3FEEDA48A9EC8905, 0x3FEE9E38505B38DB, 0x3FEE61B138F18ADB,
   0x3FEE24B09863434C, 0x3FEDE73386E3E33F, 0x3FEDA936FE890BBA, 0x3FED6AB7D98E3C20,
   0x3FED2BB2D0771994, 0x3FECEC24780D1D41, 0x3FECAC093F352CCE, 0x3FEC6B5D6C993A71,
   0x3FEC2A1D1C2195B6, 0x3FEBE8443C39124E, 0x3FEBA5CE8AD693F2, 0x3FEB62B79245E28E,
   0x3FEB1EFAA5A8E562, 0x3FEADA92DD298227, 0x3FEA957B11D35980, 0x3FEA4FADD90B6E55,
   0x3FEA09257F9A6B08, 0x3FE9C1DC043CA4E6, 0x3FE979CB11A929FC, 0x3FE930EBF7FF0250,
   0x3FE8E737A5854CE1, 0x3FE89CA69EA7EF7F, 0x3FE85130F51717DF, 0x3FE804CE3DEBB030,
   0x3FE7B77586AE0645, 0x3FE7691D49160F6B, 0x3FE719BB5D55B4BB, 0x3FE6C944EAB52824,
   0x3FE677AE563F1215, 0x3FE624EB2F2E0414, 0x3FE5D0EE18BD7776, 0x3FE57BA8B0EE01B9,
   0x3FE5250B73B56364, 0x3FE4CD0599F67339, 0x3FE47384F37909EB, 0x3FE41875BAECD788,
   0x3FE3BBC262C892C0, 0x3FE35D53598D577F, 0x3FE2FD0EC396F6C9, 0x3FE29AD828260C33,
   0x3FE236900EAD8C53, 0x3FE1D01388947E80, 0x3FE1673BA2789A7F, 0x3FE0FBDCB670C6A8,
   0x3FE08DC596A95409, 0x3FE01CBE84B2814A, 0x3FDF510FCB24F6C5, 0x3FDE61B138F18ADB,
   0x3FDD6AB7D98E3C20, 0x3FDC6B5D6C993A71, 0x3FDB62B79245E28E, 0x3FDA4FADD90B6E55,
   0x3FD930EBF7FF0250, 0x3FD804CE3DEBB030, 0x3FD6C944EAB52824, 0x3FD57BA8B0EE01B9,
   0x3FD41875BAECD788, 0x3FD29AD828260C33, 0x3FD0FBDCB670C6A8, 0x3FCE61B138F18ADB,
   0x3FCA4FADD90B6E55, 0x3FC57BA8B0EE01B9, 0x3FBE61B138F18ADB, 0x0000000000000000]

/-- `volumeTable[0..255]` (44 R161, "exact for any IEEE 754 binary64 implementation"). -/
def volumeTable : Vector Half 256 := ⟨(volumeRowsLow ++ volumeRowsHigh).toArray, by decide +kernel⟩

/-- `panTable[0..0x63]` (44 R162, "every entry is exact as listed"): 0.0 from 0x48 on. -/
def panTable : Vector F64 0x64 :=
  ⟨(panBits.map f64OfBits ++ List.replicate 0x1C f64Zero).toArray, by rfl⟩

/-- `D`, the step of the volume table: 10^0.0140625 in binary64 (44 R161). -/
def volumeDivisor : F64 := f64OfBits 0x3FF086CCAE568409

/-- The loop of 44 R161 from the value `m` on, for `k` entries: truncate, then divide. -/
def volumeLoop : Nat → F64 → List Half
  | 0, _ => []
  | k + 1, m => BitVec.ofInt 16 (f64Trunc m) :: volumeLoop k (f64Div m volumeDivisor)

/-- The volume table as the loop of 44 R161 builds it. -/
def buildVolumeTable : List Half := volumeLoop 256 (f64OfInt 255)

/-- One entry of the pan table as 44 R162 computes it. -/
def buildPanEntry (i : Nat) : F64 :=
  if i ≤ 0x47 then f64Div (f64Sqrt (f64OfInt (0x47 - i : Nat))) (f64Sqrt (f64OfInt 0x47)) else f64Zero

/-- The pan table as 44 R162 computes it. -/
def buildPanTable : List F64 := (List.range 0x64).map buildPanEntry

/-! ## Rate tables, built from the sample rate -/

/-- An envelope rate table of `RATE_LEN` entries (00_scope R7). -/
abbrev RateTable := Vector F64 0x9F

/-- `FS = floor(CLOCK / 384)` (10_state R27). -/
def sampleRate (clock : Nat) : Nat := clock / 384

/-- `rA` of 43 R144: `1.0 / (AR_SPEED * f64(FS))`. -/
def attackBase (c : RateConsts) (fs : Nat) : F64 := f64Div f64Unit (f64Mul c.speed (f64OfInt fs))

/-- `rD` and `rR` of 43 R145: `-5.0 / (SPEED * f64(FS))`. -/
def fallBase (c : RateConsts) (fs : Nat) : F64 :=
  f64Div (f64OfInt (-5)) (f64Mul c.speed (f64OfInt fs))

/-- The linear ramp of the mid band: `(rate * f64(MAX - i)) / f64(MAX - MIN)` (43 R144, R145). -/
def rateRamp (c : RateConsts) (rate : F64) (i : Nat) : F64 :=
  f64Div (f64Mul rate (f64OfInt ((c.max : Int) - i))) (f64OfInt ((c.max : Int) - c.min))

/-- The three-segment shape: `low` below `MIN`, the ramp below `MAX`, then 0.0 (43 R144, R145). -/
def rateEntry (c : RateConsts) (low rate : F64) (i : Nat) : F64 :=
  if i < c.min then low else if i < c.max then rateRamp c rate i else f64Zero

/-- The attack table `ar` (43 R144): 1.0 below `AR_MIN`. Irreducible, so that no proof unfolds the 0x9F
entries by accident. -/
@[irreducible] def buildAttackTable (c : RateConsts) (fs : Nat) : RateTable :=
  Vector.ofFn fun i => rateEntry c f64Unit (attackBase c fs) i.val

/-- The decay table `dr` or the release table `rr` (43 R145): the base rate below `MIN`. Irreducible like
`buildAttackTable`. -/
@[irreducible] def buildFallTable (c : RateConsts) (fs : Nat) : RateTable :=
  Vector.ofFn fun i => rateEntry c (fallBase c fs) (fallBase c fs) i.val

/-! ## The rate index -/

/-- `decode80` (43 R143, from general knowledge, log 3): a byte below 0x80 is its own index (its low
seven bits); bit 7 adds 0x1F to the low seven bits. -/
def decode80 (b : Byte) : Fin 0x9F :=
  let low : BitVec 7 := b.extractLsb' 0 7
  if b.getLsbD 7 then ⟨low.toNat + 0x1F, by have := low.isLt; omega⟩
  else ⟨low.toNat, by have := low.isLt; omega⟩

/-- `RATE_INDEX(r)` (43 R143): the default instance, or another function of the parameter. -/
def rateIndex (f : RateIndexFn) (r : Half) : Fin 0x9F :=
  match f with
  | .decode80 => decode80 (r.extractLsb' 8 8)
  | .other k => Config.rateIndexOther k r

end Sys2Proof.Machine
end

