-- ==== Sys2Proof/Machine/State.lean ====
section
/-! DEFINITION. The state of the machine (10_state R20 to R31), what stops it (60 R185 to R187), and the
state after reset (10_state R31, 70 R196). -/

namespace Sys2Proof.Machine

/-- The envelope phase of a voice (00_scope R13), in the order of the spec's encoding 0 to 3. -/
inductive EnvPhase where
  | none
  | attack
  | decay
  | release
deriving DecidableEq, Repr

/-- A voice record: the thirteen register fields (10_state R21) and the live playback and envelope state
(10_state R23). -/
structure Voice where
  startH    : Half
  startL    : Half
  freq      : Half
  endL      : Half
  endHloopH : Half
  loopL     : Half
  pan       : Half
  effect    : Half
  volume    : Half
  attack    : Half
  decay     : Half
  release   : Half
  cutoff    : Half
  step      : StepWord
  pos       : Pos
  envPhase  : EnvPhase
  envLevel  : F64
  envStep   : F64
  envScale  : F64
deriving DecidableEq, Repr

/-- Sample storage (20_memory R46): the bytes that differ from what an unlisted address reads as, by
rising address. -/
abbrev Memory := List Host.Cell

/-- What the host, or an agent outside the core, asks for next (00_scope R3, log 12). -/
inductive HostRequest where
  /-- A register access (30_encoding R60), with the data lanes it uses: all 16, or it is refused
  (30_encoding R63, log 15). -/
  | access (word : AccessWord) (lanes : Half)
  /-- `TICK`: one stereo sample (41 R120). -/
  | tick
  /-- A block of output samples: that many consecutive ticks (41 R125, log 17). -/
  | block (samples : Nat)
  /-- `SET_CLOCK(c)` (41 R127). -/
  | setClock (hz : Nat)
  /-- `RESET` (70 R195). -/
  | reset
  /-- A byte of storage rewritten by an agent outside the core (20_memory R58, log 16). -/
  | refill (address : Nat) (value : Byte)
deriving DecidableEq, Repr

/-- The state of the machine. -/
structure State where
  /-- The OPEN parameters (00_scope R7); no step writes them. The model's own field (log 1). -/
  cfg         : Params
  /-- `CLOCK`, in Hz (10_state R27). -/
  clock       : Nat
  /-- `ch[0..31]` (10_state R20). -/
  voices      : Vector Voice 32
  /-- `g.status` (10_state R25). -/
  status      : Half
  /-- `g.reqch` (10_state R25). -/
  reqch       : VoiceIdx
  /-- `g.extAddr` (10_state R25). -/
  extAddr     : BitVec 32
  /-- `g.extData` (10_state R25). -/
  extData     : Half
  /-- `volumeTable` (10_state R26). -/
  volumeTable : Vector Half 256
  /-- `panTable` (10_state R26). -/
  panTable    : Vector F64 0x64
  /-- `ar` (10_state R26). -/
  ar          : RateTable
  /-- `dr` (10_state R26). -/
  dr          : RateTable
  /-- `rr` (10_state R26). -/
  rr          : RateTable
  /-- The storage collaborator's contents (20_memory R46): outside the core. -/
  storage     : Memory
  /-- The requests not served yet, the next one first. The model's own field (log 12). -/
  pending     : List HostRequest
  /-- The value the last host read returned. The model's own field (log 13). -/
  lastRead    : Option Half
  /-- The pairs (L, R) emitted so far, oldest first. The model's own field (log 13). -/
  outputs     : List (Int × Int)
deriving DecidableEq, Repr

/-- The storage operation a fault record names (60 R187). -/
inductive StorageOp where
  /-- `FETCH`, by voice `n`. -/
  | fetch (n : VoiceIdx)
  /-- `EXTWRITE`. -/
  | extWrite
  /-- `EXTREAD`. -/
  | extRead
deriving DecidableEq, Repr

/-- Why the machine stops with a fault (60 R186). -/
inductive Fault where
  /-- `StorageFault(a)`: raised by the fetch of a tick, by WR_EXTWRITE and by RD_EXTDATA when the word
  at byte address `a` is not wholly inside the storage range (60 R186). It is the hardware's own and
  only fault and is fatal (60 R188), so stopping is safe. -/
  | storageFault (a : BitVec 32) (op : StorageOp)
deriving DecidableEq, Repr

/-- Why the machine refuses a request. -/
inductive Refusal where
  /-- Raised by exec's arm of an instruction without a meaning; safe. No arm is left that raises it. -/
  | notModelled (mnemonic : String)
  /-- Raised by a register access whose lane mask is not all 16 bits (30_encoding R63, 60 R185): the spec
  gives it no meaning and has the model refuse it; safe. -/
  | partialLaneMask
  /-- Raised by `SET_CLOCK(c)` with `c < 384` (41 R127, 60 R185): the spec has it refused; safe. -/
  | clockBelow384
  /-- Raised by a refill of a byte outside the storage range: no such byte exists (60 R186), and the
  refill is no operation of the core (log 16); safe. -/
  | refillOutsideStorage
deriving DecidableEq, Repr

/-! ## The default instance of the parameters -/

/-- `AR_MIN`, `AR_MAX`, `AR_SPEED`: 0x02, 0x80, 0.1. PRESUMED by the spec (00_scope R7, log 4). -/
def defaultAttackRate : RateConsts := ⟨0x02, 0x80, f64OfBits 0x3FB999999999999A⟩

/-- `DR_MIN`, `DR_MAX`, `DR_SPEED`: 0x20, 0x73, 2.0. PRESUMED by the spec (00_scope R7, log 4). -/
def defaultDecayRate : RateConsts := ⟨0x20, 0x73, f64OfBits 0x4000000000000000⟩

/-- `RR_MIN`, `RR_MAX`, `RR_SPEED`: 0x20, 0x54, 0.7. PRESUMED by the spec (00_scope R7, log 4). -/
def defaultReleaseRate : RateConsts := ⟨0x20, 0x54, f64OfBits 0x3FE6666666666666⟩

/-- The default instance: the defaults of 00_scope R7, and for `STORAGE_BYTES`, which has none, the
32 MiB of file 95 (log 1 to 6 and 8). -/
def defaultParams : Params :=
  { chRegMap := defaultChRegMap
    rateIndex := .decode80
    attackRate := defaultAttackRate
    decayRate := defaultDecayRate
    releaseRate := defaultReleaseRate
    panOor := f64Zero
    storageBytes := 0x2000000
    byteOrder := .little }

/-- The clock the device is constructed with: 16934400 Hz, the instance of file 95. DESIGN CHOICE: the
spec leaves it open (70 R196, log 7). -/
def defaultClock : Nat := 16934400

/-! ## Reset -/

/-- A voice record after reset (10_state R31). -/
def resetVoice : Voice :=
  { startH := 0, startL := 0, freq := 0, endL := 0, endHloopH := 0, loopL := 0, pan := 0, effect := 0,
    volume := 0, attack := 0, decay := 0, release := 0, cutoff := 0, step := 0, pos := 0,
    envPhase := .none, envLevel := f64Zero, envStep := f64Zero, envScale := f64Unit }

/-- The state after reset of a device with parameters `cfg` and input clock `clock` (10_state R31,
70 R196), with nothing written to storage and nothing asked for. -/
def initialState (cfg : Params) (clock : Nat) : State :=
  { cfg := cfg
    clock := clock
    voices := Vector.replicate 32 resetVoice
    status := 0
    reqch := 0
    extAddr := 0
    extData := 0
    volumeTable := volumeTable
    panTable := panTable
    ar := buildAttackTable cfg.attackRate (sampleRate clock)
    dr := buildFallTable cfg.decayRate (sampleRate clock)
    rr := buildFallTable cfg.releaseRate (sampleRate clock)
    storage := []
    pending := []
    lastRead := none
    outputs := [] }

/-- The machine right after reset, in the default instance (10_state R31, 70 R196). -/
def State.reset : State := initialState defaultParams defaultClock

end Sys2Proof.Machine
end

