-- ==== Sys2Proof/Machine/Ops.lean ====
section
/-! DEFINITION. The named operations over voices, storage and the host's answers, and raising the one
fault of the core (20_memory R47, R48; 60 R186 to R188). -/

namespace Sys2Proof.Machine

/-- What a request comes to. -/
abbrev Result := Host.Outcome State Fault Refusal

/-! ## Voice records (10_state R20) -/

/-- `ch[n]`. -/
def voiceAt (s : State) (n : VoiceIdx) : Voice := s.voices[n.toNat]'n.isLt

/-- `ch[n] <- v`. -/
def setVoice (s : State) (n : VoiceIdx) (v : Voice) : State :=
  { s with voices := s.voices.set n.toNat v n.isLt }

/-- The voice indices 0 to 31, in the order a tick processes them (20_memory R56). -/
def allVoices : List VoiceIdx := (List.range 32).map (BitVec.ofNat 5)

/-! ## Bytes of storage -/

/-- What a byte that storage does not list reads as: 0x00. DESIGN CHOICE, the convention of file 95
(log 9). -/
def unlistedByte : Byte := 0

/-- The byte at an address. -/
def memRead : Memory → Nat → Byte
  | [], _ => unlistedByte
  | (b, v) :: rest, a => if a = b then v else memRead rest a

/-- A cell, or nothing where the byte is what an unlisted address reads as. -/
def memCell (a : Nat) (v : Byte) (rest : Memory) : Memory :=
  if v = unlistedByte then rest else (a, v) :: rest

/-- Storage with one byte rewritten, in canonical form. -/
def memWrite : Memory → Nat → Byte → Memory
  | [], a, v => memCell a v []
  | (b, w) :: rest, a, v =>
    if a < b then memCell a v ((b, w) :: rest)
    else if a = b then memCell a v rest
    else (b, w) :: memWrite rest a v

/-- The canonical form: addresses strictly rising, and no byte listed that an unlisted address reads
as. -/
def Memory.wf : Memory → Bool
  | [] => true
  | (a, v) :: rest => decide (v ≠ unlistedByte) && rest.all (fun c => decide (a < c.1)) && Memory.wf rest

/-! ## Words of storage -/

/-- A word from the byte at its address and the byte after it, in the collaborator's byte order
(20_memory R49, log 8). -/
def wordOfBytes (order : ByteOrder) (first second : Byte) : Half :=
  match order with
  | .little => second ++ first
  | .big => first ++ second

/-- The byte of a word that lies at its address. -/
def firstByte (order : ByteOrder) (v : Half) : Byte :=
  match order with
  | .little => v.extractLsb' 0 8
  | .big => v.extractLsb' 8 8

/-- The byte of a word that lies after its address. -/
def secondByte (order : ByteOrder) (v : Half) : Byte :=
  match order with
  | .little => v.extractLsb' 8 8
  | .big => v.extractLsb' 0 8

/-- The word storage holds at a byte address (20_memory R47). -/
def wordAt (s : State) (a : Nat) : Half :=
  wordOfBytes s.cfg.byteOrder (memRead s.storage a) (memRead s.storage (a + 1))

/-- Storage with the word at a byte address rewritten. -/
def setWord (s : State) (a : Nat) (v : Half) : State :=
  let order := s.cfg.byteOrder
  { s with
    storage := memWrite (memWrite s.storage a (firstByte order v)) (a + 1) (secondByte order v) }

/-! ## The storage port and its fault -/

/-- Whether the word at byte address `a` lies outside the storage range: `a + 2 > STORAGE_BYTES`
(60 R186). -/
def outsideStorage (s : State) (a : BitVec 32) : Bool := decide (a.toNat + 2 > s.cfg.storageBytes)

/-- Raising `StorageFault(a)` with its record (60 R187). It is a result, not state, and nothing of the
operation that raises it remains (60 R188). -/
def raiseStorageFault {α : Type} (a : BitVec 32) (op : StorageOp) : Except Fault α :=
  .error (.storageFault a op)

/-- The cause code of a fault record (60 R187). -/
def faultCode : Fault → Nat
  | .storageFault _ _ => 1

/-- `MemRead(a, 2)` of operation `op`, or its fault (20_memory R47, 60 R186). -/
def storageRead (s : State) (op : StorageOp) (a : BitVec 32) : Except Fault Half :=
  if outsideStorage s a then raiseStorageFault a op else .ok (wordAt s a.toNat)

/-- `MemWrite(a, 2, v)` of operation `op`, or its fault (20_memory R47, 60 R186). -/
def storageWrite (s : State) (op : StorageOp) (a : BitVec 32) (v : Half) : Except Fault State :=
  if outsideStorage s a then raiseStorageFault a op else .ok (setWord s a.toNat v)

/-! ## Answers to the host -/

/-- `return v`: what a host read answers (00_scope R12, log 13). -/
def returnRead (s : State) (v : Half) : State := { s with lastRead := some v }

/-- `emit (L, R)` (41 R121, log 13). -/
def emitPair (s : State) (l r : Int) : State := { s with outputs := s.outputs ++ [(l, r)] }

/-- The outcome of an operation that answers a state or raises the fault. -/
def outcomeOf (r : Except Fault State) : Result :=
  match r with
  | .ok s => .next s
  | .error f => .fault f

end Sys2Proof.Machine
end

