-- ==== Sys2Proof/Machine/Operands.lean ====
section
/-! DEFINITION. The assembled views of a voice and the derived operands (10_state R22, 30_encoding R66
to R75, 20_memory R48). -/

namespace Sys2Proof.Machine

/-- `start(n)` (30_encoding R66). -/
def voiceStart (v : Voice) : Addr24 := v.startH.extractLsb' 8 8 ++ v.startL

/-- `end(n)` (30_encoding R66). -/
def voiceEnd (v : Voice) : Addr24 := v.endHloopH.extractLsb' 0 8 ++ v.endL

/-- `loop(n)`, a distance in samples (30_encoding R66, 90 C2). -/
def voiceLoop (v : Voice) : Addr24 := v.endHloopH.extractLsb' 8 8 ++ v.loopL

/-- `vol(n)` (30_encoding R66). -/
def voiceVolume (v : Voice) : Byte := v.volume.extractLsb' 0 8

/-- `stype(n)` (30_encoding R66). -/
def voiceType (v : Voice) : BitVec 2 := v.volume.extractLsb' 14 2

/-- `panL(n)` (30_encoding R66). -/
def voicePanL (v : Voice) : Byte := v.pan.extractLsb' 0 8

/-- `panR(n)` (30_encoding R66). -/
def voicePanR (v : Voice) : Byte := v.pan.extractLsb' 8 8

/-- The position `a << 16`: sample index `a`, fraction 0 (10_state R23). -/
def posOfIndex (a : Addr24) : Pos := a ++ (0 : BitVec 16)

/-- The sample index of a position, `pos >> 16` (10_state R23). -/
def posIndex (p : Pos) : Addr24 := p.extractLsb' 16 24

/-- `StepOf(f) = ((f[12:0]) << f[15:13]) * 4` (45 R173). -/
def stepOf (f : Half) : StepWord :=
  ((f.extractLsb' 0 13).setWidth 22 <<< (f.extractLsb' 13 3)) * 4

/-- `ExtByteAddr() = (g.extAddr << 1) mod 2^32` (20_memory R48). -/
def extByteAddr (s : State) : BitVec 32 := s.extAddr <<< 1

/-- The byte address of the sample at index `i`, `i << 1` (42 R133). -/
def sampleByteAddr (i : Addr24) : BitVec 32 := i.setWidth 32 <<< 1

end Sys2Proof.Machine
end

