-- ==== Sys2Proof/Machine/Channel.lean ====
section
/-! DEFINITION. The meanings of the per-channel register accesses (40 R97 to R111). -/

namespace Sys2Proof.Machine

/-- A per-channel register write: voice `ch` with the register field written as `f` says; no phase is
written and no fault raised (40, section 2). -/
def writeVoice (ch : VoiceIdx) (f : Voice → Voice) (s : State) : Result :=
  .next (setVoice s ch (f (voiceAt s ch)))

/-- WR_CH_STARTH (40 R97): does not move `pos`. -/
def execWrChStarth (ch : VoiceIdx) (data : Half) (s : State) : Result :=
  writeVoice ch (fun v => { v with startH := data }) s

/-- WR_CH_STARTL (40 R98). -/
def execWrChStartl (ch : VoiceIdx) (data : Half) (s : State) : Result :=
  writeVoice ch (fun v => { v with startL := data }) s

/-- WR_CH_FREQ (40 R99): derives `step` at once. -/
def execWrChFreq (ch : VoiceIdx) (data : Half) (s : State) : Result :=
  writeVoice ch (fun v => { v with freq := data, step := stepOf data }) s

/-- WR_CH_ENDL (40 R100). -/
def execWrChEndl (ch : VoiceIdx) (data : Half) (s : State) : Result :=
  writeVoice ch (fun v => { v with endL := data }) s

/-- WR_CH_ENDH_LOOPH (40 R101). -/
def execWrChEndhLooph (ch : VoiceIdx) (data : Half) (s : State) : Result :=
  writeVoice ch (fun v => { v with endHloopH := data }) s

/-- WR_CH_LOOPL (40 R102). -/
def execWrChLoopl (ch : VoiceIdx) (data : Half) (s : State) : Result :=
  writeVoice ch (fun v => { v with loopL := data }) s

/-- WR_CH_PAN (40 R103). -/
def execWrChPan (ch : VoiceIdx) (data : Half) (s : State) : Result :=
  writeVoice ch (fun v => { v with pan := data }) s

/-- WR_CH_EFFECT (40 R104): latched, read by no rule. -/
def execWrChEffect (ch : VoiceIdx) (data : Half) (s : State) : Result :=
  writeVoice ch (fun v => { v with effect := data }) s

/-- WR_CH_VOLUME (40 R105). -/
def execWrChVolume (ch : VoiceIdx) (data : Half) (s : State) : Result :=
  writeVoice ch (fun v => { v with volume := data }) s

/-- WR_CH_ATTACK (40 R106): read only at key-on. -/
def execWrChAttack (ch : VoiceIdx) (data : Half) (s : State) : Result :=
  writeVoice ch (fun v => { v with attack := data }) s

/-- WR_CH_DECAY (40 R107): read only at the transition from ATTACK to DECAY. -/
def execWrChDecay (ch : VoiceIdx) (data : Half) (s : State) : Result :=
  writeVoice ch (fun v => { v with decay := data }) s

/-- WR_CH_RELEASE (40 R108): read only at key-off. -/
def execWrChRelease (ch : VoiceIdx) (data : Half) (s : State) : Result :=
  writeVoice ch (fun v => { v with release := data }) s

/-- WR_CH_CUTOFF (40 R109): latched, read by no rule. -/
def execWrChCutoff (ch : VoiceIdx) (data : Half) (s : State) : Result :=
  writeVoice ch (fun v => { v with cutoff := data }) s

/-- WR_CH_NOP (40 R110): nothing is latched. -/
def execWrChNop (s : State) : Result := .next s

/-- RD_CH (40 R111): no per-channel field can be read back. -/
def execRdCh (s : State) : Result := .next (returnRead s 0)

end Sys2Proof.Machine
end

