-- ==== Sys2Proof/Machine/Flags.lean ====
section
/-! DEFINITION. The core has no status flags: the envelope phase is the only state that behaves like one
(10_state R28), and the tests a tick makes of a voice are these. -/

namespace Sys2Proof.Machine

/-- A degenerate voice: `start(n) = end(n)` (41 R123). -/
def isDegenerate (v : Voice) : Bool := decide (voiceStart v = voiceEnd v)

/-- A silent voice: phase `NONE` (10_state R28, 41 R124). -/
def isSilent (v : Voice) : Bool := decide (v.envPhase = .none)

/-- The spec's encoding of the phases, which no register shows (00_scope R13). -/
def phaseCode : EnvPhase → BitVec 2
  | .none => 0
  | .attack => 1
  | .decay => 2
  | .release => 3

end Sys2Proof.Machine
end

