-- ==== Sys2Proof/Machine/Envelope.lean ====
section
/-! DEFINITION. The envelope state machine (43 R146 to R151). -/

namespace Sys2Proof.Machine

/-! ## Step selection -/

/-- `AttackStep(n)` (43 R146): the attack register has no flag bit. -/
def attackStep (s : State) (v : Voice) : F64 := s.ar[rateIndex s.cfg.rateIndex v.attack]

/-- `DecayStep(n)` (43 R147): 0.0 where bit 7 is set or the register is 0x0100. -/
def decayStep (s : State) (v : Voice) : F64 :=
  if v.decay.getLsbD 7 ∨ v.decay = 0x0100 then f64Zero else s.dr[rateIndex s.cfg.rateIndex v.decay]

/-- `ReleaseStep(n)` (43 R148): 0.0 where bit 7 is set. -/
def releaseStep (s : State) (v : Voice) : F64 :=
  if v.release.getLsbD 7 then f64Zero else s.rr[rateIndex s.cfg.rateIndex v.release]

/-! ## The envelope step of a tick -/

/-- `envRate = envStep * envScale` (10_state R29, 43 R149). -/
def envRate (v : Voice) : F64 := f64Mul v.envStep v.envScale

/-- `AttackBoundary(n)` (43 R150). -/
def attackBoundary (s : State) (v : Voice) : Voice :=
  if f64Le f64Unit v.envLevel then
    { v with envLevel := f64Unit, envPhase := .decay, envStep := decayStep s v }
  else v

/-- `FallBoundary(n)` (43 R151), for DECAY and RELEASE alike. -/
def fallBoundary (v : Voice) : Voice :=
  if f64Le v.envLevel f64Zero then
    { v with envLevel := f64Zero, envPhase := .none, envStep := f64Zero }
  else v

/-- `EnvAdvance(n)` (43 R149): the level moves first, then the boundary of the phase is tested. It is
run only for a voice that is not silent, so its `NONE` arm is never reached. -/
def envAdvance (s : State) (v : Voice) : Voice :=
  let v := { v with envLevel := f64Add v.envLevel (envRate v) }
  match v.envPhase with
  | .none => v
  | .attack => attackBoundary s v
  | .decay => fallBoundary v
  | .release => fallBoundary v

end Sys2Proof.Machine
end

