-- ==== Sys2Proof/Machine/Global.lean ====
section
/-! DEFINITION. The meanings of the global register accesses (40 R81 to R96), channel control and the
external-memory commands among them. -/

namespace Sys2Proof.Machine

/-- WR_STATUS (40 R81). -/
def execWrStatus (data : Half) (s : State) : Result := .next { s with status := data }

/-- RD_STATUS (40 R82). -/
def execRdStatus (s : State) : Result := .next (returnRead s s.status)

/-- WR_KEYON (40 R84): restarts the voice from its start address, independent of its prior state. -/
def execWrKeyon (ch : VoiceIdx) (s : State) : Result :=
  let v := voiceAt s ch
  .next (setVoice s ch
    { v with pos := posOfIndex (voiceStart v), envPhase := .attack, envLevel := f64Zero,
             envStep := attackStep s v })

/-- WR_KEYOFF (40 R85): nothing on a silent voice. -/
def execWrKeyoff (ch : VoiceIdx) (s : State) : Result :=
  let v := voiceAt s ch
  if isSilent v then .next s
  else .next (setVoice s ch { v with envPhase := .release, envStep := releaseStep s v })

/-- WR_MUTE (40 R86): `pos` is not written. -/
def execWrMute (ch : VoiceIdx) (s : State) : Result :=
  .next (setVoice s ch
    { voiceAt s ch with envPhase := .none, envLevel := f64Zero, envStep := f64Zero })

/-- WR_REQCH (40 R87). -/
def execWrReqch (ch : VoiceIdx) (s : State) : Result := .next { s with reqch := ch }

/-- The value of the position poll of a voice (40 R88): bits 21:6 of the distance from the start modulo
2^24, or 0 for a silent voice. -/
def pollValue (v : Voice) : Half :=
  if isSilent v then 0 else (posIndex v.pos - voiceStart v).extractLsb' 6 16

/-- RD_POS (40 R88). -/
def execRdPos (s : State) : Result := .next (returnRead s (pollValue (voiceAt s s.reqch)))

/-- WR_EXTADDR_LO (40 R89). -/
def execWrExtaddrLo (data : Half) (s : State) : Result :=
  .next { s with extAddr := s.extAddr.extractLsb' 16 16 ++ data }

/-- WR_EXTADDR_HI (40 R90). -/
def execWrExtaddrHi (data : Half) (s : State) : Result :=
  .next { s with extAddr := data ++ s.extAddr.extractLsb' 0 16 }

/-- WR_EXTDATA (40 R91). -/
def execWrExtdata (data : Half) (s : State) : Result := .next { s with extData := data }

/-- WR_EXTWRITE (40 R92): the latches are not changed. -/
def execWrExtwrite (s : State) : Result :=
  outcomeOf (storageWrite s .extWrite (extByteAddr s) s.extData)

/-- WR_EXTCMD_NOP (40 R93): no effect. -/
def execWrExtcmdNop (s : State) : Result := .next s

/-- RD_EXTDATA (40 R94): the storage word, not the data latch. -/
def execRdExtdata (s : State) : Result :=
  outcomeOf ((storageRead s .extRead (extByteAddr s)).map (returnRead s))

/-- WR_GLOBAL_NOP (40 R95): no effect. -/
def execWrGlobalNop (s : State) : Result := .next s

/-- RD_GLOBAL_ZERO (40 R96). -/
def execRdGlobalZero (s : State) : Result := .next (returnRead s 0)

end Sys2Proof.Machine
end

