-- ==== Sys2Proof/Machine/Dispatch.lean ====
section
/-! DEFINITION. One arm per access kind, each a call of its meaning. -/

namespace Sys2Proof.Machine

def exec (i : Instr) (s : State) : Host.Outcome State Fault Refusal :=
  match i with
  | .wrStatus data => Sys2Proof.Machine.execWrStatus data s
  | .rdStatus => Sys2Proof.Machine.execRdStatus s
  | .wrKeyon ch _ => Sys2Proof.Machine.execWrKeyon ch s
  | .wrKeyoff ch _ => Sys2Proof.Machine.execWrKeyoff ch s
  | .wrMute ch _ _ => Sys2Proof.Machine.execWrMute ch s
  | .wrReqch ch _ => Sys2Proof.Machine.execWrReqch ch s
  | .rdPos => Sys2Proof.Machine.execRdPos s
  | .wrExtaddrLo data => Sys2Proof.Machine.execWrExtaddrLo data s
  | .wrExtaddrHi data => Sys2Proof.Machine.execWrExtaddrHi data s
  | .wrExtdata data => Sys2Proof.Machine.execWrExtdata data s
  | .wrExtwrite _ => Sys2Proof.Machine.execWrExtwrite s
  | .wrExtcmdNop _ _ => Sys2Proof.Machine.execWrExtcmdNop s
  | .rdExtdata => Sys2Proof.Machine.execRdExtdata s
  | .wrGlobalNop _ _ => Sys2Proof.Machine.execWrGlobalNop s
  | .rdGlobalZero _ => Sys2Proof.Machine.execRdGlobalZero s
  | .wrChStarth _ ch data => Sys2Proof.Machine.execWrChStarth ch data s
  | .wrChStartl _ ch data => Sys2Proof.Machine.execWrChStartl ch data s
  | .wrChFreq _ ch data => Sys2Proof.Machine.execWrChFreq ch data s
  | .wrChEndl _ ch data => Sys2Proof.Machine.execWrChEndl ch data s
  | .wrChEndhLooph _ ch data => Sys2Proof.Machine.execWrChEndhLooph ch data s
  | .wrChLoopl _ ch data => Sys2Proof.Machine.execWrChLoopl ch data s
  | .wrChPan _ ch data => Sys2Proof.Machine.execWrChPan ch data s
  | .wrChEffect _ ch data => Sys2Proof.Machine.execWrChEffect ch data s
  | .wrChVolume _ ch data => Sys2Proof.Machine.execWrChVolume ch data s
  | .wrChAttack _ ch data => Sys2Proof.Machine.execWrChAttack ch data s
  | .wrChDecay _ ch data => Sys2Proof.Machine.execWrChDecay ch data s
  | .wrChRelease _ ch data => Sys2Proof.Machine.execWrChRelease ch data s
  | .wrChCutoff _ ch data => Sys2Proof.Machine.execWrChCutoff ch data s
  | .wrChNop _ _ _ _ => Sys2Proof.Machine.execWrChNop s
  | .rdCh _ _ _ => Sys2Proof.Machine.execRdCh s

end Sys2Proof.Machine
end

