-- ==== Sys2Proof/Machine/Fetch.lean ====
section
/-! DEFINITION. The sample fetch unit (42 R133 to R135). -/

namespace Sys2Proof.Machine

/-- The byte address a voice fetches at, `(pos >> 16) << 1` (42 R133). -/
def fetchAddr (v : Voice) : BitVec 32 := sampleByteAddr (posIndex v.pos)

/-- `FetchWord(n)` (42 R133): made for every sample type. -/
def fetchWord (s : State) (n : VoiceIdx) (v : Voice) : Except Fault Half :=
  storageRead s (.fetch n) (fetchAddr v)

/-- `TypeDecode(w, t)` (42 R134, 30_encoding R69). -/
def typeDecode (w : Half) (t : BitVec 2) : Half :=
  if t = 0b11 then w
  else if t = 0b01 then w.extractLsb' 0 8 ++ (0 : BitVec 8)
  else if t = 0b10 then w.extractLsb' 8 8 ++ (0 : BitVec 8)
  else 0

/-- The word `SignFold` reads as two's complement: `x ^ 0x7FFF` where bit 15 is set (42 R135). -/
def foldWord (x : Half) : Half := if x.getLsbD 15 then x ^^^ 0x7FFF else x

/-- `SignFold(x)` (42 R135). -/
def signFold (x : Half) : Int := (foldWord x).toInt

end Sys2Proof.Machine
end

