-- ==== Sys2Proof/Machine/Mixer.lean ====
section
/-! DEFINITION. The fixed-point attenuation mixer (44 R163 to R168). -/

namespace Sys2Proof.Machine

/-- The volume stage (44 R164): the exact product shifted right by 9 toward minus infinity (`/` rounds
down for a positive divisor). -/
def volumeStage (s : State) (sample : Int) (code : Byte) : Int :=
  sample * (s.volumeTable[code.toNat]'code.isLt).toNat / 2 ^ 9

/-- The envelope stage (44 R165): the binary64 product, truncated toward zero. -/
def envelopeStage (p9 : Int) (level : F64) : Int := f64Trunc (f64Mul (f64OfInt p9) level)

/-- `Pan(c)` (44 R163, R166): the table, or `PAN_OOR` for codes 0x64 to 0xFF. -/
def panFactor (s : State) (code : Byte) : F64 :=
  if h : code.toNat < 0x64 then s.panTable[code.toNat] else s.cfg.panOor

/-- One side of the pan stage (44 R166). -/
def panStage (s : State) (e : Int) (code : Byte) : Int :=
  f64Trunc (f64Mul (f64OfInt e) (panFactor s code))

/-- `Mix(s, v, level, cl, cr)` (44 R167). -/
def mix (s : State) (sample : Int) (code : Byte) (level : F64) (cl cr : Byte) : Int × Int :=
  let e := envelopeStage (volumeStage s sample code) level
  (panStage s e cl, panStage s e cr)

/-- The normalised value of an emitted sum: the sum divided by `FULL_SCALE = 32768` (41 R121, 44 R168). -/
def normalisedOutput (sum : Int) : F64 := f64Div (f64OfInt sum) (f64OfInt 32768)

end Sys2Proof.Machine
end

