-- ==== Sys2Proof/Machine/Phase.lean ====
section
/-! DEFINITION. The looping phase accumulator (45 R174 to R176). -/

namespace Sys2Proof.Machine

/-- `pos + step`, exact: 41 bits (45 R174). -/
def advancedPos (v : Voice) : Nat := v.pos.toNat + v.step.toNat

/-- Whether the advanced position lies strictly past the end (45 R175). -/
def pastEnd (v : Voice) : Bool := decide (advancedPos v / 2 ^ 16 > (voiceEnd v).toNat)

/-- `((p - (loop(n) << 16)) mod 2^40) & 0xFFFFFF0000` (45 R175). -/
def loopBack (v : Voice) : Pos :=
  (BitVec.ofNat 40 (advancedPos v) - posOfIndex (voiceLoop v)) &&& 0xFFFFFF0000

/-- The start clamp of a wrapped position (45 R176). -/
def clampToStart (v : Voice) (p : Pos) : Pos :=
  if p < posOfIndex (voiceStart v) then posOfIndex (voiceStart v) else p

/-- `PhaseAdvance(n)`: the new position (45 R174). -/
def phaseAdvance (v : Voice) : Pos :=
  if pastEnd v then clampToStart v (loopBack v) else BitVec.ofNat 40 (advancedPos v)

end Sys2Proof.Machine
end

