-- ==== Sys2Proof/Machine/Tick.lean ====
section
/-! DEFINITION. The voice channel controller: the sample tick (41 R120 to R124). -/

namespace Sys2Proof.Machine

/-- What a voice does in a tick once its word is fetched: the stages of 41 R122 after the fetch, in its
order. The mixer reads the level after this tick's envelope step. -/
def sounding (s : State) (v : Voice) (w : Half) : Voice × Int × Int :=
  let sample := signFold (typeDecode w (voiceType v))
  let v' := envAdvance s v
  let lr := mix s sample (voiceVolume v') v'.envLevel (voicePanL v') (voicePanR v')
  ({ v' with pos := phaseAdvance v' }, lr.1, lr.2)

/-- `VoiceTick(n)` (41 R122): a degenerate or silent voice is skipped (R123, R124). -/
def voiceTick (s : State) (n : VoiceIdx) (v : Voice) : Except Fault (Voice × Int × Int) :=
  if isDegenerate v then .ok (v, 0, 0)
  else if isSilent v then .ok (v, 0, 0)
  else
    match fetchWord s n v with
    | .error f => .error f
    | .ok w => .ok (sounding s v w)

/-- The loop of `Tick()` over the voices still to process, with the sums so far (41 R120). A fault drops
everything the tick has done (60 R188), and is that of the first voice to meet one (60 R189). -/
def tickLoop (s : State) (l r : Int) : List VoiceIdx → Except Fault (State × Int × Int)
  | [] => .ok (s, l, r)
  | n :: rest =>
    match voiceTick s n (voiceAt s n) with
    | .error f => .error f
    | .ok (v, dl, dr) => tickLoop (setVoice s n v) (l + dl) (r + dr) rest

/-- `TICK` (41 R120). -/
def portTick (s : State) : Result :=
  match tickLoop s 0 0 allVoices with
  | .error f => .fault f
  | .ok (t, l, r) => .next (emitPair t l r)

/-- That many consecutive ticks (41 R125). -/
def runTicks : Nat → State → Result
  | 0, s => .next s
  | k + 1, s =>
    match portTick s with
    | .next t => runTicks k t
    | .fault f => .fault f
    | .refused r => .refused r

end Sys2Proof.Machine
end

