-- ==== Sys2Proof/Machine/Port.lean ====
section
/-! DEFINITION. The port operations that are not register accesses, beside the tick: the clock setting
(41 R127), reset (70 R195), and the refill of storage by other agents (20_memory R58). -/

namespace Sys2Proof.Machine

/-- `BuildRateTables(FS)` for the clock in force (43 R144, R145). -/
def buildRateTables (s : State) : State :=
  { s with
    ar := buildAttackTable s.cfg.attackRate (sampleRate s.clock)
    dr := buildFallTable s.cfg.decayRate (sampleRate s.clock)
    rr := buildFallTable s.cfg.releaseRate (sampleRate s.clock) }

/-- `SET_CLOCK(c)` (41 R127): no voice field is written; a clock below 384 is refused. -/
def portSetClock (hz : Nat) (s : State) : Result :=
  if hz < 384 then .refused .clockBelow384 else .next (buildRateTables { s with clock := hz })

/-- `RESET` (70 R195): the current clock is kept, storage is not touched, nothing is emitted. -/
def portReset (s : State) : Result :=
  .next (buildRateTables
    { s with
      voices := Vector.replicate 32 resetVoice
      status := 0
      reqch := 0
      extAddr := 0
      extData := 0 })

/-- A byte of storage rewritten by an agent outside the core, between two operations (20_memory R58,
log 16). -/
def portRefill (a : Nat) (v : Byte) (s : State) : Result :=
  if a < s.cfg.storageBytes then .next { s with storage := memWrite s.storage a v }
  else .refused .refillOutsideStorage

end Sys2Proof.Machine
end

