-- ==== Sys2Proof/Machine/Serve.lean ====
section
/-! DEFINITION. Serving one request of the host (00_scope R3, 20_memory R55, log 12). -/

namespace Sys2Proof.Machine

/-- All 16 data lanes: the only lane mask a register access may have (30_encoding R63). -/
def fullLanes : Half := 0xFFFF

/-- A register access: decoded under the device's register map and performed; with any other lane mask
it is refused before any state is changed (30_encoding R63, 60 R185). -/
def serveAccess (w : AccessWord) (lanes : Half) (s : State) : Result :=
  if lanes = fullLanes then exec (decode s.cfg.chRegMap w) s else .refused .partialLaneMask

/-- Serves one request in the state in which it no longer stands in the queue. A block of `k + 1`
samples gives one tick and leaves a block of `k` (41 R125, log 17). -/
def serve (q : HostRequest) (s : State) : Result :=
  match q with
  | .access w lanes => serveAccess w lanes s
  | .tick => portTick s
  | .block 0 => .next s
  | .block (k + 1) => portTick { s with pending := .block k :: s.pending }
  | .setClock hz => portSetClock hz s
  | .reset => portReset s
  | .refill a v => portRefill a v s

/-- The access word whose bits are `w`, of which only the low `nbits` are given (log 20). -/
def accessOfBits (nbits w : Nat) : HostRequest := .access (BitVec.ofNat 33 (w % 2 ^ nbits)) fullLanes

end Sys2Proof.Machine
end

