-- ==== Sys2Proof/Machine/Step.lean ====
section
/-! DEFINITION. One step of the machine: it serves the host's next request (log 12). -/

namespace Sys2Proof.Machine

/-- One step. With nothing asked for the core does nothing: it is pull-based (20_memory R55). -/
def step (s : State) : Host.Outcome State Fault Refusal :=
  match s.pending with
  | [] => .next s
  | q :: rest => serve q { s with pending := rest }

/-- `s` with the access whose bits are `w` as the host's next request. -/
def State.withFetchWord (s : State) (nbits w : Nat) : State :=
  { s with pending := accessOfBits nbits w :: s.pending }

end Sys2Proof.Machine
end

