-- ==== Sys2Proof/Machine/Assembler.lean ====
section
/-! DEFINITION. The spec's notation for host access sequences (30_encoding R78), as the requests it stands
for. The register numbers of the per-channel forms are those of a register map `m`. -/

namespace Sys2Proof.Machine

/-- `WR off, data`. -/
def asmWr (offset data : Half) : HostRequest := .access (accessWord true offset data) fullLanes

/-- `RD off`. -/
def asmRd (offset : Half) : HostRequest := .access (accessWord false offset 0) fullLanes

/-- `KEYON ch`: `WR 0x0001, 0x0060 | ch`. -/
def asmKeyOn (ch : VoiceIdx) : HostRequest := asmWr 0x0001 (0x0060 ||| ch.setWidth 16)

/-- `KEYOFF ch`: `WR 0x0001, 0x0040 | ch`. -/
def asmKeyOff (ch : VoiceIdx) : HostRequest := asmWr 0x0001 (0x0040 ||| ch.setWidth 16)

/-- `MUTE ch`: `WR 0x0001, ch`. -/
def asmMute (ch : VoiceIdx) : HostRequest := asmWr 0x0001 (ch.setWidth 16)

/-- `CHWR ch, reg, d`: `WR 0x0400 | (ch << 5) | reg, d`. -/
def asmChWr (ch : VoiceIdx) (reg : RegNum) (data : Half) : HostRequest :=
  asmWr (0x0400 ||| (ch.setWidth 16 <<< 5) ||| reg.setWidth 16) data

/-- `SETSTART ch, a`. -/
def asmSetStart (m : ChRegMap) (ch : VoiceIdx) (a : Addr24) : List HostRequest :=
  [asmChWr ch m.startH ((a.extractLsb' 16 8).setWidth 16 <<< 8),
   asmChWr ch m.startL (a.extractLsb' 0 16)]

/-- `SETENDLOOP ch, e, l`. -/
def asmSetEndLoop (m : ChRegMap) (ch : VoiceIdx) (e l : Addr24) : List HostRequest :=
  [asmChWr ch m.endHloopH
     (((l.extractLsb' 16 8).setWidth 16 <<< 8) ||| (e.extractLsb' 16 8).setWidth 16),
   asmChWr ch m.endL (e.extractLsb' 0 16),
   asmChWr ch m.loopL (l.extractLsb' 0 16)]

/-- `SETFREQ ch, m, x`: mantissa 13 bits, exponent 3 bits. -/
def asmSetFreq (m : ChRegMap) (ch : VoiceIdx) (mantissa : BitVec 13) (exponent : BitVec 3) :
    HostRequest :=
  asmChWr ch m.freq ((exponent.setWidth 16 <<< 13) ||| mantissa.setWidth 16)

/-- `EXTWR a, v`. -/
def asmExtWr (a : BitVec 32) (v : Half) : List HostRequest :=
  [asmWr 0x0011 (a.extractLsb' 0 16), asmWr 0x0012 (a.extractLsb' 16 16), asmWr 0x0013 v,
   asmWr 0x0014 0x0003]

/-- `EXTRD a`. -/
def asmExtRd (a : BitVec 32) : List HostRequest :=
  [asmWr 0x0011 (a.extractLsb' 0 16), asmWr 0x0012 (a.extractLsb' 16 16), asmRd 0x0013]

/-- `POLL ch`. -/
def asmPoll (ch : VoiceIdx) : List HostRequest := [asmWr 0x0008 (ch.setWidth 16), asmRd 0x0009]

end Sys2Proof.Machine
end

