-- ==== Sys2Proof/Machine/Block.lean ====
section
/-! DEFINITION. The reference engine's way of rendering a block of samples (10_state R29, 41 R125): voice
by voice, with the live state of a voice held in locals. The step does not use it: it ticks. That the
two agree is stated. -/

namespace Sys2Proof.Machine

/-- The locals into which the engine copies a voice at the start of a block (10_state R29). -/
structure EngineLocals where
  pos   : Pos
  phase : EnvPhase
  level : F64
  step  : F64
  rate  : F64
deriving DecidableEq, Repr

/-- The locals of a voice: `envRate = envStep * envScale` is computed here (10_state R29). -/
def loadLocals (v : Voice) : EngineLocals := ⟨v.pos, v.envPhase, v.envLevel, v.envStep, envRate v⟩

/-- The commit of `pos`, `envPhase`, `envLevel` and `envStep` at the end of the block (10_state R29). -/
def commitLocals (v : Voice) (c : EngineLocals) : Voice :=
  { v with pos := c.pos, envPhase := c.phase, envLevel := c.level, envStep := c.step }

/-- The envelope step on the locals; the rate is recomputed where the step changes (43 R149 to R151). -/
def engineEnvelope (s : State) (v : Voice) (c : EngineLocals) : EngineLocals :=
  let level := f64Add c.level c.rate
  match c.phase with
  | .none => { c with level := level }
  | .attack =>
    if f64Le f64Unit level then
      { c with level := f64Unit, phase := .decay, step := decayStep s v, rate := f64Mul (decayStep s v) v.envScale }
    else { c with level := level }
  | .decay | .release =>
    if f64Le level f64Zero then
      { c with level := f64Zero, phase := .none, step := f64Zero, rate := f64Zero }
    else { c with level := level }

/-- One sample of a voice from its locals. -/
def engineSample (s : State) (n : VoiceIdx) (v : Voice) (c : EngineLocals) :
    Except Fault (EngineLocals × Int × Int) :=
  match storageRead s (.fetch n) (sampleByteAddr (posIndex c.pos)) with
  | .error f => .error f
  | .ok w =>
    let c' := engineEnvelope s v c
    .ok ({ c' with pos := phaseAdvance { v with pos := c.pos } },
      mix s (signFold (typeDecode w (voiceType v))) (voiceVolume v) c'.level (voicePanL v) (voicePanR v))

/-- The samples of a voice in a block of `k`: once the phase is `NONE` the rest stay silent (41 R124). -/
def engineSamples (s : State) (n : VoiceIdx) (v : Voice) :
    Nat → EngineLocals → Except Fault (EngineLocals × List (Int × Int))
  | 0, c => .ok (c, [])
  | k + 1, c =>
    if c.phase = .none then .ok (c, List.replicate (k + 1) (0, 0))
    else
      match engineSample s n v c with
      | .error f => .error f
      | .ok (c', p) =>
        match engineSamples s n v k c' with
        | .error f => .error f
        | .ok (c'', ps) => .ok (c'', p :: ps)

/-- A voice in a block of `k`: a degenerate voice is skipped entirely (41 R123). -/
def engineVoice (s : State) (n : VoiceIdx) (k : Nat) (v : Voice) :
    Except Fault (Voice × List (Int × Int)) :=
  if isDegenerate v then .ok (v, List.replicate k (0, 0))
  else
    match engineSamples s n v k (loadLocals v) with
    | .error f => .error f
    | .ok (c, ps) => .ok (commitLocals v c, ps)

/-- Adding a voice's samples into the output buffers (41 R121). -/
def addBuffers (a b : List (Int × Int)) : List (Int × Int) :=
  List.zipWith (fun p q => (p.1 + q.1, p.2 + q.2)) a b

/-- The engine's loop over the voices, over buffers that begin at zero (41 R121). -/
def engineLoop (k : Nat) (s : State) (buffer : List (Int × Int)) :
    List VoiceIdx → Except Fault (State × List (Int × Int))
  | [] => .ok (s, buffer)
  | n :: rest =>
    match engineVoice s n k (voiceAt s n) with
    | .error f => .error f
    | .ok (v, ps) => engineLoop k (setVoice s n v) (addBuffers buffer ps) rest

/-- The reference engine's rendering of a block of `k` samples (10_state R29, 41 R125). -/
def renderBlock (k : Nat) (s : State) : Result :=
  match engineLoop k s (List.replicate k (0, 0)) allVoices with
  | .error f => .fault f
  | .ok (t, ps) => .next { t with outputs := t.outputs ++ ps }

end Sys2Proof.Machine
end

