-- ==== Sys2Proof/Safety.lean ====
section
/-! DEFINITION. The terms claims about the machine use: the invariants of the state (10_state R30, 43 R153
and what they rest on), what an operation leaves alone, and the cause of a phase change. -/

namespace Sys2Proof.Machine

/-! ## The invariant -/

/-- A number with at most 53 significant bits. -/
abbrev f64Rounded (x : F64) : Prop := f64RoundMag x.units.natAbs 1 = x.units.natAbs

/-- The constraints on a rate table's constants: `0 <= MIN <= MAX <= 0x9F` and a positive `SPEED`
(43 R144, R145). -/
structure RateConstsOk (c : RateConsts) : Prop where
  min_le : c.min ≤ c.max
  max_le : c.max ≤ 0x9F
  speed_pos : 0 < c.speed.units
  speed_rounded : f64Rounded c.speed

/-- The constraints on the parameters (00_scope R7, 30_encoding R64, 43 R144, R145). -/
structure ParamsOk (p : Params) : Prop where
  regMap : p.chRegMap.wf
  attackRate : RateConstsOk p.attackRate
  decayRate : RateConstsOk p.decayRate
  releaseRate : RateConstsOk p.releaseRate
  panOor : f64Rounded p.panOor

/-- The sign a voice's step has in its phase: the step of an attack comes from `ar`, that of a decay or
release from `dr` or `rr` (43 R153), and a silent voice has none (10_state R30). -/
def stepSignOk (p : EnvPhase) (step : Int) : Prop :=
  match p with
  | .none => step = 0
  | .attack => 0 ≤ step
  | .decay => step ≤ 0
  | .release => step ≤ 0

/-- What holds of every voice record (10_state R23, R30, 43 R153). -/
structure VoiceOk (v : Voice) : Prop where
  level_nonneg : 0 ≤ v.envLevel.units
  level_le_one : v.envLevel.units ≤ f64One
  silent_level : v.envPhase = .none → v.envLevel = f64Zero
  step_sign : stepSignOk v.envPhase v.envStep.units
  step_of_freq : v.step = stepOf v.freq
  scale_one : v.envScale = f64Unit
  level_rounded : f64Rounded v.envLevel
  step_rounded : f64Rounded v.envStep

/-- The tables are the constants and what the clock in force builds (10_state R26, R31). -/
structure TablesOk (s : State) : Prop where
  volume : s.volumeTable = Machine.volumeTable
  pan : s.panTable = Machine.panTable
  attack : s.ar = buildAttackTable s.cfg.attackRate (sampleRate s.clock)
  decay : s.dr = buildFallTable s.cfg.decayRate (sampleRate s.clock)
  release : s.rr = buildFallTable s.cfg.releaseRate (sampleRate s.clock)

/-- Storage is in its canonical form and lists no byte outside its range (60 R186). -/
structure StorageOk (s : State) : Prop where
  canonical : Memory.wf s.storage
  inRange : ∀ c ∈ s.storage, c.1 < s.cfg.storageBytes

/-- The invariant of the machine. -/
structure Inv (s : State) : Prop where
  params : ParamsOk s.cfg
  clock : 384 ≤ s.clock
  tables : TablesOk s
  storage : StorageOk s
  voices : ∀ n, VoiceOk (voiceAt s n)

/-! ## What an operation leaves alone -/

/-- The parameters and the clock. -/
def SameConfig (s t : State) : Prop := t.cfg = s.cfg ∧ t.clock = s.clock

/-- The five tables. -/
def SameTables (s t : State) : Prop :=
  t.volumeTable = s.volumeTable ∧ t.panTable = s.panTable ∧ t.ar = s.ar ∧ t.dr = s.dr ∧ t.rr = s.rr

/-- The global registers. -/
def SameGlobals (s t : State) : Prop :=
  t.status = s.status ∧ t.reqch = s.reqch ∧ t.extAddr = s.extAddr ∧ t.extData = s.extData

/-- Every voice record but that of voice `n`. -/
def SameOtherVoices (n : VoiceIdx) (s t : State) : Prop := ∀ m, m ≠ n → voiceAt t m = voiceAt s m

/-- Every voice record. -/
def SameVoices (s t : State) : Prop := ∀ m, voiceAt t m = voiceAt s m

/-- Every byte of storage. -/
def SameStorage (s t : State) : Prop := ∀ a, memRead t.storage a = memRead s.storage a

/-- Every byte of storage but those of the word at byte address `a`. -/
def SameStorageBut (a : Nat) (s t : State) : Prop :=
  ∀ b, b ≠ a → b ≠ a + 1 → memRead t.storage b = memRead s.storage b

/-- The requests still to serve and what the host has been answered. -/
def SameHost (s t : State) : Prop :=
  t.pending = s.pending ∧ t.lastRead = s.lastRead ∧ t.outputs = s.outputs

/-- Everything but voice `n`. -/
def OnlyVoice (n : VoiceIdx) (s t : State) : Prop :=
  SameOtherVoices n s t ∧ SameConfig s t ∧ SameTables s t ∧ SameGlobals s t ∧ SameStorage s t ∧
    SameHost s t

/-- Everything but the global registers. -/
def OnlyGlobals (s t : State) : Prop :=
  SameVoices s t ∧ SameConfig s t ∧ SameTables s t ∧ SameStorage s t ∧ SameHost s t

/-- A read that answers `v`: nothing of the core or of storage changes (20_memory R52). -/
def OnlyAnswers (v : Half) (s t : State) : Prop :=
  t.lastRead = some v ∧ SameVoices s t ∧ SameGlobals s t ∧ SameConfig s t ∧ SameTables s t ∧
    SameStorage s t ∧ t.pending = s.pending ∧ t.outputs = s.outputs

/-! ## Skipped and faulting voices -/

/-- A voice a tick skips: degenerate or silent (41 R123, R124). -/
def isSkipped (v : Voice) : Bool := isDegenerate v || isSilent v

/-- A voice whose fetch faults in a tick: it is not skipped and its word lies outside storage
(60 R186). -/
def fetchFaults (s : State) (v : Voice) : Bool := !isSkipped v && outsideStorage s (fetchAddr v)

/-- What voice `n` adds to the left and right sums of a tick (41 R120). -/
def contribution (s : State) (n : VoiceIdx) : Int × Int :=
  match voiceTick s n (voiceAt s n) with
  | .ok (_, l, r) => (l, r)
  | .error _ => (0, 0)

/-- The left and right sums of a tick over all voices (41 R120, 44 R168). -/
def tickSums (s : State) : Int × Int :=
  ((allVoices.map fun n => (contribution s n).1).sum, (allVoices.map fun n => (contribution s n).2).sum)

/-! ## Causes of a change -/

/-- The register access the host asks for next, decoded. -/
def nextAccess (s : State) : Option Instr :=
  match s.pending with
  | .access w _ :: _ => some (decode s.cfg.chRegMap w)
  | _ => none

/-- Whether the host asks for a tick next. -/
def nextIsTick (s : State) : Bool :=
  match s.pending with
  | .tick :: _ => true
  | .block (_ + 1) :: _ => true
  | _ => false

/-- Whether the host asks for a reset next. -/
def nextIsReset (s : State) : Bool :=
  match s.pending with
  | .reset :: _ => true
  | _ => false

/-- The register fields of a voice (10_state R21), in its order, and the step derived from one of them. -/
def registerFields (v : Voice) : List Half × StepWord :=
  ([v.startH, v.startL, v.freq, v.endL, v.endHloopH, v.loopL, v.pan, v.effect, v.volume, v.attack,
    v.decay, v.release, v.cutoff], v.step)

/-- Field `field` of voice `n` is unchanged; or the step served the field's own write to voice `n`, and the
field is what `stored` makes of the data (40 R97 to R109); or it served a reset, and the field is 0
(70 R195). -/
def ChangedOnlyBy {w : Nat} (s t : State) (n : VoiceIdx) (field : Voice → BitVec w)
    (write : BitVec 6 → VoiceIdx → Half → Instr) (stored : Half → BitVec w) : Prop :=
  field (voiceAt t n) = field (voiceAt s n) ∨
    (∃ page data, nextAccess s = some (write page n data) ∧ field (voiceAt t n) = stored data) ∨
    (nextIsReset s = true ∧ field (voiceAt t n) = 0)

/-- The edges of 43 R152, with the operation that takes each, and reset (70 R195): what may move voice `n`
from phase `p` to a different phase `q` in one step. -/
def phaseEdge (s : State) (n : VoiceIdx) (p q : EnvPhase) : Prop :=
  match q with
  | .attack => ∃ ig, nextAccess s = some (.wrKeyon n ig)
  | .decay => p = .attack ∧ nextIsTick s
  | .release => p ≠ .none ∧ ∃ ig, nextAccess s = some (.wrKeyoff n ig)
  | .none => (∃ low ig, nextAccess s = some (.wrMute n low ig)) ∨ nextIsReset s ∨
      ((p = .decay ∨ p = .release) ∧ nextIsTick s)

end Sys2Proof.Machine
end

