-- ==== Sys2Proof/Certificates/Slice0/Obligations.lean ====
section
/-! DEFINITION. The statements about the machine, for the provers. File and rule numbers are those of
spec/. -/

open Sys2Proof Sys2Proof.Machine

/-! ## Encoding -/

/-- Decoding the encoding of a well-formed instruction gives it back, under every register map that gives
each field a register of its own (30_encoding R60 to R74). -/
def Obligations.DecodeOfEncodeIsIdentity : Prop :=
  ∀ (i : Instr) (m : ChRegMap), m.wf → i.wellFormed m = true → decode m (encode m i) = i

/-- Every access word decodes to a well-formed instruction (30_encoding R60, R63), whose encoding is the word
itself for a write and the word with its data bits zero for a read. That a write comes back bit for bit is
the model's choice: the data bits a command ignores and the alias bits of an offset are operands (log 23).
That a read's data bits are dropped is the model's reading (log 18). -/
def Obligations.EncodeOfDecodeKeepsAWriteAndClearsReadData : Prop :=
  ∀ (m : ChRegMap) (w : AccessWord), m.wf →
    (decode m w).wellFormed m = true ∧
      encode m (decode m w) =
        if accessIsWrite w then w else accessWord false (accessOffset w) 0

/-- 30_encoding R62, R64, R80: rows with equal mask-bit counts never both match, the matching row with the
most mask bits exists, and it is the row of the decoded instruction. The table's per-channel rows and the
decoder here have the default register numbers, which are presumed by the spec (log 2). -/
def Obligations.OpcodeTableSelectsTheDecodedRow : Prop :=
  ∀ w : AccessWord,
    (∀ q ∈ opcodeTable, ∀ r ∈ opcodeTable, rowMatches q w = true → rowMatches r w = true →
      maskBits q = maskBits r → q = r) ∧
    ∃ r ∈ opcodeTable, rowSelected r w = true ∧ r.mnemonic = (decode defaultChRegMap w).mnemonic

/-- 30_encoding R65: two per-channel offsets that agree on bits 9:0 reach the same voice and register, for
every access. -/
def Obligations.ChannelOffsetsAlias : Prop :=
  ∀ (m : ChRegMap) (o o' : Half) (data : Half), 0x400 ≤ o.toNat → 0x400 ≤ o'.toNat →
    o.toNat % 1024 = o'.toNat % 1024 →
    (∀ (write : Bool) (s : State),
      exec (decode m (accessWord write o data)) s = exec (decode m (accessWord write o' data)) s) ∧
    decode m (accessWord false o data) =
      .rdCh (BitVec.ofNat 6 (o.toNat / 1024)) (BitVec.ofNat 5 (o.toNat / 32)) (BitVec.ofNat 5 o.toNat)

/-- The data bits a command does not name are ignored: 15:7 of channel control, 15:5 of the requested
channel, 15:2 of the external-memory command (30_encoding R67, R73, R74). -/
def Obligations.UnnamedDataBitsAreIgnored : Prop :=
  ∀ (m : ChRegMap) (d d' : Half) (s : State),
    (d.toNat % 128 = d'.toNat % 128 →
      exec (decode m (accessWord true 0x001 d)) s = exec (decode m (accessWord true 0x001 d')) s) ∧
    (d.toNat % 32 = d'.toNat % 32 →
      exec (decode m (accessWord true 0x008 d)) s = exec (decode m (accessWord true 0x008 d')) s) ∧
    (d.toNat % 4 = d'.toNat % 4 →
      exec (decode m (accessWord true 0x014 d)) s = exec (decode m (accessWord true 0x014 d')) s)

/-- Words written out from the encodings of 30_encoding (the `enc` columns of file 95) decode to the
instructions they stand for. The two per-channel writes decode so by the default register numbers of R64,
which are presumed by the spec (log 2); that ignored bits are operands is the model's choice (log 23). -/
def Obligations.SampleWordsDecode : Prop :=
  decode defaultChRegMap 0x10000BEEF = .wrStatus 0xBEEF ∧
  decode defaultChRegMap 0x10001FF63 = .wrKeyon 3 0x1FE ∧
  decode defaultChRegMap 0x100010043 = .wrKeyoff 3 0 ∧
  decode defaultChRegMap 0x100010023 = .wrMute 3 1 0 ∧
  decode defaultChRegMap 0x10014FFFF = .wrExtwrite 0x3FFF ∧
  decode defaultChRegMap 0x10014FFFC = .wrExtcmdNop 0 0x3FFF ∧
  decode defaultChRegMap 0x10C413456 = .wrChStartl 3 2 0x3456 ∧
  decode defaultChRegMap 0x107FFFFFF = .wrChNop 1 31 0x1F 0xFFFF ∧
  decode defaultChRegMap 0x004410000 = .rdCh 1 2 1

/-- 30_encoding R61, R64: the row of every per-channel access under the default register numbers (from
general knowledge, log 2), written out. -/
def Obligations.ChannelRegistersDecodeByNumber : Prop :=
  ∀ (o d : Half) (page : BitVec 6) (ch : VoiceIdx) (reg : RegNum), 0x400 ≤ o.toNat →
    page.toNat = o.toNat / 2 ^ 10 → ch.toNat = o.toNat / 2 ^ 5 % 32 → reg.toNat = o.toNat % 32 →
    decode defaultChRegMap (accessWord false o d) = .rdCh page ch reg ∧
    decode defaultChRegMap (accessWord true o d) =
      match o.toNat % 32 with
      | 0x00 => .wrChStarth page ch d
      | 0x01 => .wrChStartl page ch d
      | 0x02 => .wrChFreq page ch d
      | 0x03 => .wrChEndl page ch d
      | 0x04 => .wrChEndhLooph page ch d
      | 0x05 => .wrChLoopl page ch d
      | 0x06 => .wrChPan page ch d
      | 0x07 => .wrChEffect page ch d
      | 0x08 => .wrChVolume page ch d
      | 0x09 => .wrChAttack page ch d
      | 0x0C => .wrChDecay page ch d
      | 0x0E => .wrChRelease page ch d
      | 0x10 => .wrChCutoff page ch d
      | _ => .wrChNop page ch reg d

/-! ## A step -/

/-- A step serves the host's first request in the state in which it no longer stands in the queue, and adds
nothing else (the queue of requests is the model's choice, log 12). A register access with all 16 lanes is
decoded under the device's register map and executed; a tick (41 R120), a clock setting (41 R127), a reset
(70 R195) and a refill (log 16) are their operations; a block gives one tick at a time (log 17); with no
request the state stays. -/
def Obligations.StepRunsTheDecodedAccess : Prop :=
  ∀ (s : State) (rest : List HostRequest),
    (∀ w : AccessWord, s.pending = .access w fullLanes :: rest →
      step s = exec (decode s.cfg.chRegMap w) { s with pending := rest }) ∧
    (s.pending = .tick :: rest → step s = portTick { s with pending := rest }) ∧
    (∀ c : Nat, s.pending = .setClock c :: rest →
      step s = portSetClock c { s with pending := rest }) ∧
    (s.pending = .reset :: rest → step s = portReset { s with pending := rest }) ∧
    (∀ (a : Nat) (b : Byte), s.pending = .refill a b :: rest →
      step s = portRefill a b { s with pending := rest }) ∧
    (s.pending = .block 0 :: rest → step s = .next { s with pending := rest }) ∧
    (∀ k : Nat, s.pending = .block (k + 1) :: rest →
      step s = portTick { s with pending := .block k :: rest }) ∧
    (s.pending = [] → step s = .next s)

/-- 60 R185: a register access whose lane mask is not all 16 bits, and a clock setting below 384, are
refused; no state results. -/
def Obligations.RefusedRequests : Prop :=
  (∀ (s : State) (w : AccessWord) (lanes : Half) (rest : List HostRequest),
    s.pending = .access w lanes :: rest → lanes ≠ 0xFFFF → step s = .refused .partialLaneMask) ∧
  (∀ (s : State) (hz : Nat) (rest : List HostRequest),
    s.pending = .setClock hz :: rest → hz < 384 → step s = .refused .clockBelow384)

/-- Every access completes, but for WR_EXTWRITE and RD_EXTDATA at an address outside storage, which raise
StorageFault (30_encoding R63, R76; 60 R186). -/
def Obligations.OnlyExternalMemoryAccessesFault : Prop :=
  ∀ (i : Instr) (s : State),
    (∃ t, exec i s = .next t) ∨
      (s.cfg.storageBytes < (extByteAddr s).toNat + 2 ∧
        (((∃ ig, i = .wrExtwrite ig) ∧ exec i s = .fault (.storageFault (extByteAddr s) .extWrite)) ∨
          (i = .rdExtdata ∧ exec i s = .fault (.storageFault (extByteAddr s) .extRead))))

/-! ## Global registers -/

/-- 40 R81, R82: the status register is a passthrough. Each access completes with nothing else changed, a
write followed by a read answers the written value, the core itself never changes the register, and it
reads 0x0000 after reset. -/
def Obligations.StatusRegisterPassesThrough : Prop :=
  (∀ (m : ChRegMap) (d : Half), decode m (accessWord true 0x0000 d) = .wrStatus d ∧
    decode m (accessWord false 0x0000 d) = .rdStatus) ∧
  (∀ (s : State) (d : Half), exec (.wrStatus d) s = .next { s with status := d }) ∧
  (∀ s : State, ∃ t, exec .rdStatus s = .next t ∧ OnlyAnswers s.status s t) ∧
  (∀ (s : State) (d : Half) (rest : List HostRequest),
    s.pending = asmWr 0x0000 d :: asmRd 0x0000 :: rest →
      Host.Core.run Sys2Proof.core 2 s =
        .next { s with status := d, lastRead := some d, pending := rest }) ∧
  (∀ s t : State, step s = .next t →
    t.status = s.status ∨ (∃ d, nextAccess s = some (.wrStatus d)) ∨ nextIsReset s = true) ∧
  State.reset.status = 0x0000

/-- 40 R87: the requested-channel register latches the voice index, and nothing else changes; a POLL
sequence (30_encoding R78) answers for the voice it names. -/
def Obligations.RequestedChannelLatch : Prop :=
  (∀ (m : ChRegMap) (d : Half), decode m (accessWord true 0x0008 d) =
    .wrReqch (BitVec.ofNat 5 d.toNat) (BitVec.ofNat 11 (d.toNat / 2 ^ 5))) ∧
  (∀ (s : State) (ch : VoiceIdx) (ig : BitVec 11),
    ∃ t, exec (.wrReqch ch ig) s = .next t ∧ t.reqch = ch ∧ t.status = s.status ∧
      t.extAddr = s.extAddr ∧ t.extData = s.extData ∧ OnlyGlobals s t) ∧
  (∀ (s : State) (ch : VoiceIdx) (rest : List HostRequest), s.pending = asmPoll ch ++ rest →
    Host.Core.run Sys2Proof.core 2 s =
      .next { s with reqch := ch, lastRead := some (pollValue (voiceAt s ch)), pending := rest })

/-- 40 R88: the position poll answers 0 for a voice in NONE, else bits 21:6 of the distance from the start
modulo 2^24. -/
def Obligations.PositionPollValue : Prop :=
  (∀ (m : ChRegMap) (d : Half), decode m (accessWord false 0x0009 d) = .rdPos) ∧
  ∀ s : State, ∃ t v, exec .rdPos s = .next t ∧ OnlyAnswers v s t ∧
    ((voiceAt s s.reqch).envPhase = .none → v = 0) ∧
    ((voiceAt s s.reqch).envPhase ≠ .none →
      (v.toNat : Int) =
        ((((voiceAt s s.reqch).pos.toNat / 2 ^ 16 : Nat) : Int) -
          ((voiceStart (voiceAt s s.reqch)).toNat : Int)) % 2 ^ 24 / 2 ^ 6 % 2 ^ 16)

/-- 40 R89, R90, R91: the halves of the external-memory address and the data word are latched, each
keeping everything else. -/
def Obligations.ExternalMemoryLatches : Prop :=
  (∀ (m : ChRegMap) (d : Half), decode m (accessWord true 0x0011 d) = .wrExtaddrLo d ∧
    decode m (accessWord true 0x0012 d) = .wrExtaddrHi d ∧
    decode m (accessWord true 0x0013 d) = .wrExtdata d) ∧
  ∀ (s : State) (d : Half),
    (∃ t, exec (.wrExtaddrLo d) s = .next t ∧
      t.extAddr.toNat = s.extAddr.toNat / 2 ^ 16 * 2 ^ 16 + d.toNat ∧ t.status = s.status ∧
      t.reqch = s.reqch ∧ t.extData = s.extData ∧ OnlyGlobals s t) ∧
    (∃ t, exec (.wrExtaddrHi d) s = .next t ∧
      t.extAddr.toNat = d.toNat * 2 ^ 16 + s.extAddr.toNat % 2 ^ 16 ∧ t.status = s.status ∧
      t.reqch = s.reqch ∧ t.extData = s.extData ∧ OnlyGlobals s t) ∧
    (∃ t, exec (.wrExtdata d) s = .next t ∧ t.extData = d ∧ t.status = s.status ∧
      t.reqch = s.reqch ∧ t.extAddr = s.extAddr ∧ OnlyGlobals s t)

/-- 40 R92: the commit writes the latched word at byte address `(extAddr << 1) mod 2^32`, leaving every
other byte, the latches and everything else as they were, or faults outside the range. -/
def Obligations.ExternalWriteCommits : Prop :=
  (∀ (m : ChRegMap) (d : Half), d.toNat % 4 = 3 →
    decode m (accessWord true 0x0014 d) = .wrExtwrite (BitVec.ofNat 14 (d.toNat / 2 ^ 2))) ∧
  ∀ (s : State) (ig : BitVec 14), Memory.wf s.storage = true →
    (extByteAddr s).toNat = s.extAddr.toNat * 2 % 2 ^ 32 ∧
    ((extByteAddr s).toNat + 2 ≤ s.cfg.storageBytes →
      ∃ t, exec (.wrExtwrite ig) s = .next t ∧ wordAt t (extByteAddr s).toNat = s.extData ∧
        SameStorageBut (extByteAddr s).toNat s t ∧ SameVoices s t ∧ SameGlobals s t ∧
        SameConfig s t ∧ SameTables s t ∧ SameHost s t) ∧
    (s.cfg.storageBytes < (extByteAddr s).toNat + 2 →
      exec (.wrExtwrite ig) s = .fault (.storageFault (extByteAddr s) .extWrite))

/-- 40 R94: the data read answers the storage word at the latched address and changes nothing, or faults
outside the range. -/
def Obligations.ExternalReadAnswersTheStorageWord : Prop :=
  (∀ (m : ChRegMap) (d : Half), decode m (accessWord false 0x0013 d) = .rdExtdata) ∧
  ∀ s : State,
    (extByteAddr s).toNat = s.extAddr.toNat * 2 % 2 ^ 32 ∧
    ((extByteAddr s).toNat + 2 ≤ s.cfg.storageBytes →
      ∃ t, exec .rdExtdata s = .next t ∧ OnlyAnswers (wordAt s (extByteAddr s).toNat) s t) ∧
    (s.cfg.storageBytes < (extByteAddr s).toNat + 2 →
      exec .rdExtdata s = .fault (.storageFault (extByteAddr s) .extRead))

/-- The EXTWR sequence followed by the EXTRD sequence of the same address (30_encoding R78) answers the
word written, in either byte order of storage. -/
def Obligations.ExternalWriteIsReadBack : Prop :=
  ∀ (s : State) (a : BitVec 32) (v : Half) (rest : List HostRequest),
    Memory.wf s.storage = true → a.toNat * 2 % 2 ^ 32 + 2 ≤ s.cfg.storageBytes →
    s.pending = asmExtWr a v ++ asmExtRd a ++ rest →
      ∃ t, Host.Core.run Sys2Proof.core 7 s = .next t ∧ t.lastRead = some v ∧ t.pending = rest ∧
        t.extAddr = a ∧ t.extData = v ∧ t.status = s.status ∧ t.reqch = s.reqch ∧ SameVoices s t ∧
        SameConfig s t ∧ SameTables s t ∧ t.outputs = s.outputs ∧
        SameStorageBut (a.toNat * 2 % 2 ^ 32) s t

/-- 40 R93, R95, R110: writes without an effect change nothing, at every offset the rules name. -/
def Obligations.WritesWithoutEffect : Prop :=
  ∀ (m : ChRegMap) (s : State) (d : Half),
    (∀ (cmd : BitVec 2) (ig : BitVec 14), exec (.wrExtcmdNop cmd ig) s = .next s) ∧
    (∀ o : Half, exec (.wrGlobalNop o d) s = .next s) ∧
    (∀ (page : BitVec 6) (ch : VoiceIdx) (reg : RegNum), exec (.wrChNop page ch reg d) s = .next s) ∧
    (d.toNat % 4 ≠ 3 → exec (decode m (accessWord true 0x014 d)) s = .next s) ∧
    (∀ o : Half, o.toNat < 0x400 → o ∉ writtenGlobals →
      exec (decode m (accessWord true o d)) s = .next s) ∧
    (∀ o : Half, 0x400 ≤ o.toNat → BitVec.ofNat 5 o.toNat ∉ chRegMapNumbers m →
      exec (decode m (accessWord true o d)) s = .next s)

/-- 40 R96, R111: reads of every unlisted global offset and of every per-channel offset answer 0x0000. -/
def Obligations.UnlistedReadsAnswerZero : Prop :=
  ∀ (m : ChRegMap) (s : State) (d : Half),
    (∀ o : Half, ∃ t, exec (.rdGlobalZero o) s = .next t ∧ OnlyAnswers 0x0000 s t) ∧
    (∀ (page : BitVec 6) (ch : VoiceIdx) (reg : RegNum),
      ∃ t, exec (.rdCh page ch reg) s = .next t ∧ OnlyAnswers 0x0000 s t) ∧
    (∀ o : Half, (o.toNat < 0x400 → o ∉ readGlobals) →
      ∃ t, exec (decode m (accessWord false o d)) s = .next t ∧ OnlyAnswers 0x0000 s t)

/-! ## Channel control -/

/-- 40 R84: key-on restarts the voice whatever its prior state. -/
def Obligations.KeyOnRestartsTheVoice : Prop :=
  (∀ (m : ChRegMap) (d : Half), d.toNat / 2 ^ 5 % 4 = 3 →
    decode m (accessWord true 0x0001 d) =
      .wrKeyon (BitVec.ofNat 5 d.toNat) (BitVec.ofNat 9 (d.toNat / 2 ^ 7))) ∧
  ∀ (s : State) (ch : VoiceIdx) (ig : BitVec 9),
    ∃ t, exec (.wrKeyon ch ig) s = .next t ∧ OnlyVoice ch s t ∧
      (voiceAt t ch).pos.toNat = (voiceStart (voiceAt s ch)).toNat * 2 ^ 16 ∧
      (voiceAt t ch).envPhase = .attack ∧ (voiceAt t ch).envLevel = f64Zero ∧
      (voiceAt t ch).envStep = s.ar[rateIndex s.cfg.rateIndex (voiceAt s ch).attack] ∧
      (voiceAt t ch).envScale = (voiceAt s ch).envScale ∧
      registerFields (voiceAt t ch) = registerFields (voiceAt s ch)

/-- 40 R85: key-off moves a sounding voice to RELEASE at its present level and position; a voice in NONE
is left as it is. -/
def Obligations.KeyOffReleasesTheVoice : Prop :=
  (∀ (m : ChRegMap) (d : Half), d.toNat / 2 ^ 5 % 4 = 2 →
    decode m (accessWord true 0x0001 d) =
      .wrKeyoff (BitVec.ofNat 5 d.toNat) (BitVec.ofNat 9 (d.toNat / 2 ^ 7))) ∧
  ∀ (s : State) (ch : VoiceIdx) (ig : BitVec 9),
    ((voiceAt s ch).envPhase = .none → exec (.wrKeyoff ch ig) s = .next s) ∧
    ((voiceAt s ch).envPhase ≠ .none →
      ∃ t, exec (.wrKeyoff ch ig) s = .next t ∧ OnlyVoice ch s t ∧
        (voiceAt t ch).envPhase = .release ∧
        (voiceAt t ch).envStep =
          (if (voiceAt s ch).release.toNat / 2 ^ 7 % 2 = 1 then f64Zero
           else s.rr[rateIndex s.cfg.rateIndex (voiceAt s ch).release]) ∧
        (voiceAt t ch).pos = (voiceAt s ch).pos ∧ (voiceAt t ch).envLevel = (voiceAt s ch).envLevel ∧
        (voiceAt t ch).envScale = (voiceAt s ch).envScale ∧
        registerFields (voiceAt t ch) = registerFields (voiceAt s ch))

/-- 40 R86: mute silences a voice from any phase and keeps its position, for both commands 0b00 and
0b01. -/
def Obligations.MuteSilencesTheVoice : Prop :=
  (∀ (m : ChRegMap) (d : Half), d.toNat / 2 ^ 6 % 2 = 0 →
    decode m (accessWord true 0x0001 d) =
      .wrMute (BitVec.ofNat 5 d.toNat) (BitVec.ofNat 1 (d.toNat / 2 ^ 5))
        (BitVec.ofNat 9 (d.toNat / 2 ^ 7))) ∧
  ∀ (s : State) (ch : VoiceIdx) (low : BitVec 1) (ig : BitVec 9),
    ∃ t, exec (.wrMute ch low ig) s = .next t ∧ OnlyVoice ch s t ∧
      (voiceAt t ch).envPhase = .none ∧ (voiceAt t ch).envLevel = f64Zero ∧
      (voiceAt t ch).envStep = f64Zero ∧ (voiceAt t ch).pos = (voiceAt s ch).pos ∧
      (voiceAt t ch).envScale = (voiceAt s ch).envScale ∧
      registerFields (voiceAt t ch) = registerFields (voiceAt s ch)

/-! ## Per-channel registers -/

/-- 40 R97, R98, R100 to R109: a per-channel write stores the 16 data bits in its field of its voice, and
nothing else changes. -/
def Obligations.ChannelWritesLatchTheirField : Prop :=
  ∀ (s : State) (page : BitVec 6) (ch : VoiceIdx) (d : Half),
    (∃ t, exec (.wrChStarth page ch d) s = .next t ∧ OnlyVoice ch s t ∧
      voiceAt t ch = { voiceAt s ch with startH := d }) ∧
    (∃ t, exec (.wrChStartl page ch d) s = .next t ∧ OnlyVoice ch s t ∧
      voiceAt t ch = { voiceAt s ch with startL := d }) ∧
    (∃ t, exec (.wrChEndl page ch d) s = .next t ∧ OnlyVoice ch s t ∧
      voiceAt t ch = { voiceAt s ch with endL := d }) ∧
    (∃ t, exec (.wrChEndhLooph page ch d) s = .next t ∧ OnlyVoice ch s t ∧
      voiceAt t ch = { voiceAt s ch with endHloopH := d }) ∧
    (∃ t, exec (.wrChLoopl page ch d) s = .next t ∧ OnlyVoice ch s t ∧
      voiceAt t ch = { voiceAt s ch with loopL := d }) ∧
    (∃ t, exec (.wrChPan page ch d) s = .next t ∧ OnlyVoice ch s t ∧
      voiceAt t ch = { voiceAt s ch with pan := d }) ∧
    (∃ t, exec (.wrChEffect page ch d) s = .next t ∧ OnlyVoice ch s t ∧
      voiceAt t ch = { voiceAt s ch with effect := d }) ∧
    (∃ t, exec (.wrChVolume page ch d) s = .next t ∧ OnlyVoice ch s t ∧
      voiceAt t ch = { voiceAt s ch with volume := d }) ∧
    (∃ t, exec (.wrChAttack page ch d) s = .next t ∧ OnlyVoice ch s t ∧
      voiceAt t ch = { voiceAt s ch with attack := d }) ∧
    (∃ t, exec (.wrChDecay page ch d) s = .next t ∧ OnlyVoice ch s t ∧
      voiceAt t ch = { voiceAt s ch with decay := d }) ∧
    (∃ t, exec (.wrChRelease page ch d) s = .next t ∧ OnlyVoice ch s t ∧
      voiceAt t ch = { voiceAt s ch with release := d }) ∧
    (∃ t, exec (.wrChCutoff page ch d) s = .next t ∧ OnlyVoice ch s t ∧
      voiceAt t ch = { voiceAt s ch with cutoff := d })

/-- 30_encoding R68, 40 R99, 45 R173: the pitch write stores the register and derives the step
`((f[12:0]) << f[15:13]) * 4`, 0 to 0x3FFE00; the position is not touched. That the mantissa is bits 12:0 and
the exponent bits 15:13 is presumed by the spec (log 2). -/
def Obligations.PitchWriteDerivesTheStep : Prop :=
  ∀ (s : State) (page : BitVec 6) (ch : VoiceIdx) (d : Half),
    (∃ t, exec (.wrChFreq page ch d) s = .next t ∧ OnlyVoice ch s t ∧
      voiceAt t ch = { voiceAt s ch with freq := d, step := stepOf d }) ∧
    (stepOf d).toNat = d.toNat % 2 ^ 13 * 2 ^ (d.toNat / 2 ^ 13) * 4 ∧ (stepOf d).toNat ≤ 0x3FFE00

/-- The SETSTART and SETENDLOOP sequences (30_encoding R78) set the 24-bit views of R66 on the default
layout of the fields (log 2), without moving the voice's position or envelope. -/
def Obligations.AddressSequencesSetTheViews : Prop :=
  ∀ (s : State) (ch : VoiceIdx) (a e l : Addr24) (rest : List HostRequest), s.cfg.chRegMap.wf →
    s.pending =
      asmSetStart s.cfg.chRegMap ch a ++ asmSetEndLoop s.cfg.chRegMap ch e l ++ rest →
    ∃ t, Host.Core.run Sys2Proof.core 5 s = .next t ∧ t.pending = rest ∧
      voiceStart (voiceAt t ch) = a ∧ voiceEnd (voiceAt t ch) = e ∧ voiceLoop (voiceAt t ch) = l ∧
      (voiceAt t ch).pos = (voiceAt s ch).pos ∧ (voiceAt t ch).step = (voiceAt s ch).step ∧
      (voiceAt t ch).envPhase = (voiceAt s ch).envPhase ∧
      (voiceAt t ch).envLevel = (voiceAt s ch).envLevel ∧
      (voiceAt t ch).envStep = (voiceAt s ch).envStep ∧ SameOtherVoices ch s t

/-- 10_state R21, 40 R97 to R109, 70 R195: each register field of a voice changes only by its own write to
that voice, which stores the data of the access, or by a reset, which clears it; the step derived from
`freq` changes only by the pitch write or by a reset. -/
def Obligations.RegisterFieldsChangeOnlyByTheirWrites : Prop :=
  ∀ (s t : State) (n : VoiceIdx), step s = .next t →
    ChangedOnlyBy s t n (·.startH) .wrChStarth id ∧ ChangedOnlyBy s t n (·.startL) .wrChStartl id ∧
    ChangedOnlyBy s t n (·.freq) .wrChFreq id ∧ ChangedOnlyBy s t n (·.endL) .wrChEndl id ∧
    ChangedOnlyBy s t n (·.endHloopH) .wrChEndhLooph id ∧
    ChangedOnlyBy s t n (·.loopL) .wrChLoopl id ∧ ChangedOnlyBy s t n (·.pan) .wrChPan id ∧
    ChangedOnlyBy s t n (·.effect) .wrChEffect id ∧ ChangedOnlyBy s t n (·.volume) .wrChVolume id ∧
    ChangedOnlyBy s t n (·.attack) .wrChAttack id ∧ ChangedOnlyBy s t n (·.decay) .wrChDecay id ∧
    ChangedOnlyBy s t n (·.release) .wrChRelease id ∧ ChangedOnlyBy s t n (·.cutoff) .wrChCutoff id ∧
    ChangedOnlyBy s t n (·.step) .wrChFreq stepOf

/-! ## The tick -/

/-- 41 R120, R122, R128: a tick that completes has run every voice on its own record, emits the pair of the
exact sums, and changes nothing but voice records and the output. -/
def Obligations.TickActsOnEachVoiceAlone : Prop :=
  ∀ s t : State, portTick s = .next t →
    (∀ n, voiceTick s n (voiceAt s n) =
      .ok (voiceAt t n, (contribution s n).1, (contribution s n).2)) ∧
    t.outputs = s.outputs ++ [tickSums s] ∧ SameGlobals s t ∧ SameConfig s t ∧ SameTables s t ∧
    SameStorage s t ∧ t.pending = s.pending ∧ t.lastRead = s.lastRead

/-- 60 R186, R188, R189: a tick completes exactly where no voice's fetch lies outside storage; else it
leaves no state and reports the fetch of the lowest-numbered such voice. -/
def Obligations.TickReportsTheLowestFaultingVoice : Prop :=
  ∀ s : State,
    ((∃ t, portTick s = .next t) ↔ ∀ n, fetchFaults s (voiceAt s n) = false) ∧
    (∀ f, portTick s = .fault f ↔
      ∃ n, fetchFaults s (voiceAt s n) = true ∧
        (∀ m, m.toNat < n.toNat → fetchFaults s (voiceAt s m) = false) ∧
        f = .storageFault (fetchAddr (voiceAt s n)) (.fetch n))

/-- 20_memory R56: the voices are processed in index order, and a tick that completes in that order
completes with the same state and the same sums in every other order. -/
def Obligations.TickDoesNotDependOnVoiceOrder : Prop :=
  allVoices.map BitVec.toNat = List.range 32 ∧
  ∀ (s t : State) (l r : Int) (order : List VoiceIdx), order.Perm allVoices →
    tickLoop s 0 0 allVoices = .ok (t, l, r) → tickLoop s 0 0 order = .ok (t, l, r)

/-- 41 R122: a voice that is not skipped fetches at its old position, decodes and folds the word, steps
its envelope, mixes at the new level, and advances its position; where the fetch faults, so does the
voice. -/
def Obligations.VoiceTickRunsThePipeline : Prop :=
  ∀ (s : State) (n : VoiceIdx) (v v' : Voice), voiceStart v ≠ voiceEnd v → v.envPhase ≠ .none →
    v' = envAdvance s v →
    (∀ w x, fetchWord s n v = .ok w → x = signFold (typeDecode w (voiceType v)) →
      voiceTick s n v =
        .ok ({ v' with pos := phaseAdvance v },
          mix s x (voiceVolume v) v'.envLevel (voicePanL v) (voicePanR v))) ∧
    (∀ f, fetchWord s n v = .error f → voiceTick s n v = .error f)

/-- 41 R123, R124: a degenerate or silent voice contributes (0, 0) and is not changed; a voice whose
envelope reaches NONE in a tick contributes 0 and its position advances once more. -/
def Obligations.SkippedAndEndingVoicesAreSilent : Prop :=
  ∀ (s : State) (n : VoiceIdx) (v : Voice),
    (voiceStart v = voiceEnd v ∨ v.envPhase = .none → voiceTick s n v = .ok (v, 0, 0)) ∧
    (∀ v' l r, voiceTick s n v = .ok (v', l, r) → v.envPhase ≠ .none → v'.envPhase = .none →
      l = 0 ∧ r = 0 ∧ v'.envLevel = f64Zero ∧ v'.envStep = f64Zero ∧ v'.pos = phaseAdvance v)

/-- 41 R120: a tick with every voice skipped completes, emits (0, 0) and changes no state; so it does after
reset. -/
def Obligations.TickOfSkippedVoicesEmitsZero : Prop :=
  (∀ s : State, (∀ n, isSkipped (voiceAt s n) = true) →
    portTick s = .next { s with outputs := s.outputs ++ [(0, 0)] }) ∧
  portTick State.reset = .next { State.reset with outputs := [(0, 0)] }

/-- 41 R128: what a tick does with voice `n` depends on that voice, the tables, the parameters and storage
alone, so two states that agree on these agree on the voice after the tick and on its contribution. -/
def Obligations.VoicesAreIndependent : Prop :=
  ∀ (s s' t t' : State) (n : VoiceIdx), s'.cfg = s.cfg → SameTables s s' →
    (∀ a, memRead s'.storage a = memRead s.storage a) → voiceAt s' n = voiceAt s n →
    portTick s = .next t → portTick s' = .next t' →
      voiceAt t' n = voiceAt t n ∧ contribution s' n = contribution s n

/-- 10_state R29, 41 R125: where a block of ticks completes, the reference engine, which renders a block voice
by voice with the live state cached in locals, gives the same buffers and the same final state. -/
def Obligations.BlockRenderingEqualsTicking : Prop :=
  ∀ (k : Nat) (s t : State), runTicks k s = .next t → renderBlock k s = .next t

/-- 41 R125: a block request of `k` samples is `k` consecutive ticks, whether they complete or fault (one tick
a step is the model's choice, log 17). -/
def Obligations.BlockRequestIsConsecutiveTicks : Prop :=
  ∀ (k : Nat) (s : State) (rest : List HostRequest), s.pending = .block k :: rest →
    Host.Core.run Sys2Proof.core (k + 1) s = runTicks k { s with pending := rest }

/-! ## The sample fetch unit -/

/-- 42 R133: the fetch reads the word at byte address `(pos >> 16) << 1`, which is even and below 2^25,
whatever the sample type; outside the range it faults. -/
def Obligations.FetchReadsTheWordUnderThePosition : Prop :=
  ∀ (s : State) (n : VoiceIdx) (v : Voice),
    (fetchAddr v).toNat = v.pos.toNat / 2 ^ 16 * 2 ∧ (fetchAddr v).toNat ≤ 0x1FFFFFE ∧
    ((fetchAddr v).toNat + 2 ≤ s.cfg.storageBytes →
      fetchWord s n v = .ok (wordAt s (fetchAddr v).toNat)) ∧
    (s.cfg.storageBytes < (fetchAddr v).toNat + 2 →
      fetchWord s n v = .error (.storageFault (fetchAddr v) (.fetch n)))

/-- 30_encoding R69, 42 R134, R137: what each sample type makes of a fetched word, and the value law of the
fold for the 8-bit types. The code values of the types are presumed by the spec (log 2). -/
def Obligations.SampleTypesDecode : Prop :=
  ∀ w : Half,
    typeDecode w 0b11 = w ∧ (typeDecode w 0b01).toNat = w.toNat % 256 * 256 ∧
    (typeDecode w 0b10).toNat = w.toNat / 256 * 256 ∧ typeDecode w 0b00 = 0 ∧
    (∀ (t : BitVec 2) (b : Nat), (t = 0b01 ∧ b = w.toNat % 256) ∨ (t = 0b10 ∧ b = w.toNat / 256) →
      signFold (typeDecode w t) =
        if b < 128 then (b : Int) * 256 else -1 - ((b : Int) - 128) * 256)

/-- 42 R135, R136: the value law of the sign fold, and that it maps the words one-to-one onto -32768 to
32767. -/
def Obligations.SignFoldIsOneToOne : Prop :=
  (∀ x : Half, signFold x =
    if x.toNat < 0x8000 then (x.toNat : Int) else -1 - ((x.toNat : Int) - 0x8000)) ∧
  (∀ y : Int, -32768 ≤ y → y ≤ 32767 → ∃ x, signFold x = y ∧ ∀ x', signFold x' = y → x' = x)

/-! ## The envelope -/

/-- 43 R143: the default rate index on every register value (the default is the spec's, from general
knowledge, log 3), and that every function of the parameter stays in the table. -/
def Obligations.DefaultRateIndex : Prop :=
  (∀ r : Half, (rateIndex .decode80 r).val =
    if r.toNat / 2 ^ 15 = 1 then r.toNat / 2 ^ 8 % 2 ^ 7 + 0x1F else r.toNat / 2 ^ 8) ∧
  (∀ (f : RateIndexFn) (r : Half), (rateIndex f r).val ≤ 0x9E)

/-- 43 R147, R149, R150, R151: the level moves by the rounded rate, then the boundary of the phase is
tested. -/
def Obligations.EnvelopeBoundaries : Prop :=
  ∀ (s : State) (v : Voice) (level : F64),
    level = f64Add v.envLevel (f64Mul v.envStep v.envScale) →
    (v.envPhase = .attack → f64One ≤ level.units →
      envAdvance s v =
        { v with envLevel := f64Unit, envPhase := .decay,
                 envStep := if v.decay.toNat / 2 ^ 7 % 2 = 1 ∨ v.decay.toNat = 0x100 then f64Zero
                            else s.dr[rateIndex s.cfg.rateIndex v.decay] }) ∧
    (v.envPhase = .attack → level.units < f64One → envAdvance s v = { v with envLevel := level }) ∧
    (v.envPhase = .decay ∨ v.envPhase = .release → level.units ≤ 0 →
      envAdvance s v = { v with envLevel := f64Zero, envPhase := .none, envStep := f64Zero }) ∧
    (v.envPhase = .decay ∨ v.envPhase = .release → 0 < level.units →
      envAdvance s v = { v with envLevel := level })

/-- 43 R152: a phase changes only along the edges of the transition graph, each by the operation that
takes it (and by reset, 70 R195); a voice leaves NONE only by a key-on. -/
def Obligations.PhaseMovesOnlyAlongTheGraph : Prop :=
  ∀ (s t : State) (n : VoiceIdx), step s = .next t →
    (voiceAt t n).envPhase = (voiceAt s n).envPhase ∨
      phaseEdge s n (voiceAt s n).envPhase (voiceAt t n).envPhase

/-- 43 R153: in every state that meets the invariant, every entry of `ar` is at least 0.0 and every entry of
`dr` and `rr` at most 0.0; a tick that completes there does not lower the level of an attack nor raise that
of a decay or release, and leaves every level in [0.0, 1.0]. -/
def Obligations.EnvelopeIsMonotone : Prop :=
  ∀ s : State, Inv s →
    (∀ i : Fin 0x9F, 0 ≤ s.ar[i].units ∧ s.dr[i].units ≤ 0 ∧ s.rr[i].units ≤ 0) ∧
    ∀ t : State, portTick s = .next t →
      (∀ n, (voiceAt s n).envPhase = .attack →
        (voiceAt s n).envLevel.units ≤ (voiceAt t n).envLevel.units) ∧
      (∀ n, (voiceAt s n).envPhase = .decay ∨ (voiceAt s n).envPhase = .release →
        (voiceAt t n).envLevel.units ≤ (voiceAt s n).envLevel.units) ∧
      (∀ n, 0 ≤ (voiceAt t n).envLevel.units ∧ (voiceAt t n).envLevel.units ≤ f64One)

/-- 43 R144, R151, 90 C3: a step of 0.0 holds the envelope. An attack at level 0.0 stays an attack at 0.0
and contributes nothing, and an index at or above `AR_MAX` gives it that step; a decay or release above
0.0 keeps its phase and level. -/
def Obligations.ZeroStepHoldsTheEnvelope : Prop :=
  (∀ (s : State) (v : Voice), TablesOk s →
    s.cfg.attackRate.min ≤ s.cfg.attackRate.max →
    s.cfg.attackRate.max ≤ (rateIndex s.cfg.rateIndex v.attack).val → attackStep s v = f64Zero) ∧
  (∀ (s : State) (n : VoiceIdx) (v v' : Voice) (l r : Int), v.envStep = f64Zero →
    voiceTick s n v = .ok (v', l, r) →
    (v.envPhase = .attack → v.envLevel = f64Zero →
      v'.envPhase = .attack ∧ v'.envLevel = f64Zero ∧ l = 0 ∧ r = 0) ∧
    (v.envPhase = .decay ∨ v.envPhase = .release → f64Rounded v.envLevel → 0 < v.envLevel.units →
      v'.envPhase = v.envPhase ∧ v'.envLevel = v.envLevel))

/-! ## The invariant -/

/-- Every step keeps the invariant: the level in [0.0, 1.0], a silent voice at level and step 0.0,
`step = StepOf(freq)` (10_state R30), steps of the sign of their phase (43 R153), tables that are the
constants and what the clock builds (10_state R26), and storage in canonical form and in range (log 8 and
9, the model's own). -/
def Obligations.EveryStepKeepsTheInvariant : Prop :=
  ∀ s t : State, Inv s → step s = .next t → Inv t

/-- The invariant holds after reset: for every instance of the parameters within their constraints and every
clock of at least 384 (10_state R30, R31, 70 R196), and in the default instance (log 1 to 9). -/
def Obligations.InvariantHoldsAtReset : Prop :=
  (∀ (p : Params) (c : Nat), ParamsOk p → 384 ≤ c → Inv (initialState p c)) ∧ Inv State.reset

/-! ## Clock and reset -/

/-- 41 R127: the clock setting stores the clock and rebuilds the rate tables from `FS = floor(c / 384)` by
the formulas of 43 R144 and R145; no voice field and nothing else is written. -/
def Obligations.SetClockRebuildsTheRateTables : Prop :=
  ∀ (s : State) (c : Nat), 384 ≤ c →
    ∃ t, portSetClock c s = .next t ∧ t.clock = c ∧ t.cfg = s.cfg ∧ SameVoices s t ∧
      SameGlobals s t ∧ SameStorage s t ∧ SameHost s t ∧ t.volumeTable = s.volumeTable ∧
      t.panTable = s.panTable ∧
      ∀ i : Fin 0x9F,
        t.ar[i] = (let k := s.cfg.attackRate
          if i.val < k.min then f64Unit
          else if i.val < k.max then
            f64Div (f64Mul (f64Div f64Unit (f64Mul k.speed (f64OfInt (c / 384 : Nat))))
              (f64OfInt ((k.max : Int) - i.val))) (f64OfInt ((k.max : Int) - k.min))
          else f64Zero) ∧
        t.dr[i] = (let k := s.cfg.decayRate
          let rate := f64Div (f64OfInt (-5)) (f64Mul k.speed (f64OfInt (c / 384 : Nat)))
          if i.val < k.min then rate
          else if i.val < k.max then
            f64Div (f64Mul rate (f64OfInt ((k.max : Int) - i.val))) (f64OfInt ((k.max : Int) - k.min))
          else f64Zero) ∧
        t.rr[i] = (let k := s.cfg.releaseRate
          let rate := f64Div (f64OfInt (-5)) (f64Mul k.speed (f64OfInt (c / 384 : Nat)))
          if i.val < k.min then rate
          else if i.val < k.max then
            f64Div (f64Mul rate (f64OfInt ((k.max : Int) - i.val))) (f64OfInt ((k.max : Int) - k.min))
          else f64Zero)

/-- 70 R195: RESET zeroes every voice and every global register, keeps the clock, rebuilds the rate tables
for it, does not touch storage and emits nothing. -/
def Obligations.ResetOperationZeroesTheCore : Prop :=
  ∀ s : State,
    ∃ t, portReset s = .next t ∧ SameConfig s t ∧ SameStorage s t ∧ SameHost s t ∧
      t.volumeTable = s.volumeTable ∧ t.panTable = s.panTable ∧ t.status = 0 ∧ t.reqch = 0 ∧
      t.extAddr = 0 ∧ t.extData = 0 ∧
      t.ar = buildAttackTable s.cfg.attackRate (s.clock / 384) ∧
      t.dr = buildFallTable s.cfg.decayRate (s.clock / 384) ∧
      t.rr = buildFallTable s.cfg.releaseRate (s.clock / 384) ∧
      ∀ n, registerFields (voiceAt t n) = (List.replicate 13 0, 0) ∧ (voiceAt t n).pos = 0 ∧
        (voiceAt t n).envPhase = .none ∧ (voiceAt t n).envLevel.units = 0 ∧
        (voiceAt t n).envStep.units = 0 ∧ (voiceAt t n).envScale.units = f64One

/-- 10_state R31: the state after reset, for every instance of the parameters and every clock; State.reset
is the default instance (the parameters, the clock and empty storage are the model's choice, log 1 to 9). -/
def Obligations.StateAfterReset : Prop :=
  State.reset = initialState defaultParams defaultClock ∧
  ∀ (p : Params) (c : Nat),
    (∀ n, registerFields (voiceAt (initialState p c) n) = (List.replicate 13 0, 0) ∧
      (voiceAt (initialState p c) n).pos = 0 ∧ (voiceAt (initialState p c) n).envPhase = .none ∧
      (voiceAt (initialState p c) n).envLevel.units = 0 ∧
      (voiceAt (initialState p c) n).envStep.units = 0 ∧
      (voiceAt (initialState p c) n).envScale.units = f64One) ∧
    (initialState p c).status = 0 ∧ (initialState p c).reqch = 0 ∧ (initialState p c).extAddr = 0 ∧
    (initialState p c).extData = 0 ∧ TablesOk (initialState p c)

/-! ## Attenuation tables and the mixer -/

/-- 44 R161, R162: the volume and pan tables are what the loops of the rules compute in binary64. -/
def Obligations.AttenuationTablesFollowTheirRules : Prop :=
  buildVolumeTable = Machine.volumeTable.toList ∧ buildPanTable = Machine.panTable.toList

/-- 44 R169: the volume table is non-increasing, 255 at index 0 and 0 from index 172; the pan table is 1.0
at 0x00, strictly decreasing from 0x00 to 0x47 and 0.0 from 0x47 to 0x63. -/
def Obligations.AttenuationTableLaws : Prop :=
  (∀ i j : Fin 256, i ≤ j → Machine.volumeTable[j].toNat ≤ Machine.volumeTable[i].toNat) ∧
  Machine.volumeTable[0] = 255 ∧ (∀ i : Fin 256, 172 ≤ i.val → Machine.volumeTable[i] = 0) ∧
  (Machine.volumeTable.toList.zip Machine.volumeTable.toList.tail |>.take 171 |>.drop 73
    |>.filter fun p => p.1 = p.2).length = 76 ∧
  Machine.panTable[0] = f64Unit ∧
  (∀ i j : Fin 0x64, i < j → j.val ≤ 0x47 → Machine.panTable[j].units < Machine.panTable[i].units) ∧
  (∀ i : Fin 0x64, 0x47 ≤ i.val → Machine.panTable[i] = f64Zero)

/-- 44 R164, R165: the volume stage is the product shifted right by 9 toward minus infinity, in -16320 to
16319; level 1.0 leaves it unchanged, level 0.0 gives 0, and any level in between moves it toward zero. -/
def Obligations.VolumeAndEnvelopeStages : Prop :=
  ∀ (s : State) (x : Int) (code : Byte) (level : F64), s.volumeTable = Machine.volumeTable →
    -32768 ≤ x → x ≤ 32767 → 0 ≤ level.units → level.units ≤ f64One →
    volumeStage s x code = (x * (s.volumeTable[code.toNat]'code.isLt).toNat).fdiv 512 ∧
    envelopeStage (volumeStage s x code) level =
      f64Trunc (f64Mul (f64OfInt (volumeStage s x code)) level) ∧
    -16320 ≤ volumeStage s x code ∧ volumeStage s x code ≤ 16319 ∧
    envelopeStage (volumeStage s x code) f64Unit = volumeStage s x code ∧
    envelopeStage (volumeStage s x code) f64Zero = 0 ∧
    (0 ≤ volumeStage s x code → 0 ≤ envelopeStage (volumeStage s x code) level ∧
      envelopeStage (volumeStage s x code) level ≤ volumeStage s x code) ∧
    (volumeStage s x code ≤ 0 → volumeStage s x code ≤ envelopeStage (volumeStage s x code) level ∧
      envelopeStage (volumeStage s x code) level ≤ 0)

/-- 44 R163, R166: pan code 0x00 gives the full value, codes 0x47 to 0x63 give 0, and codes from 0x64 on
take the parameter PAN_OOR. -/
def Obligations.PanStage : Prop :=
  ∀ (s : State) (e : Int) (code : Byte), s.panTable = Machine.panTable → -16320 ≤ e → e ≤ 16319 →
    (∀ h : code.toNat < 0x64,
      panStage s e code = f64Trunc (f64Mul (f64OfInt e) s.panTable[code.toNat])) ∧
    panStage s e 0x00 = e ∧
    (0x47 ≤ code.toNat → code.toNat ≤ 0x63 → panStage s e code = 0) ∧
    (0x64 ≤ code.toNat → panStage s e code = f64Trunc (f64Mul (f64OfInt e) s.cfg.panOor))

/-- 44 R170: when a voice contributes exactly 0 to a side, under the default PAN_OOR of 0.0. -/
def Obligations.ZeroContributions : Prop :=
  ∀ (s : State) (x : Int) (code : Byte) (level : F64) (cl cr : Byte),
    s.volumeTable = Machine.volumeTable → s.panTable = Machine.panTable → s.cfg.panOor = f64Zero →
    (x = 0 ∨ 172 ≤ code.toNat ∨ level = f64Zero ∨
        (f64Mul (f64OfInt (volumeStage s x code)) level).units.natAbs < f64One →
      mix s x code level cl cr = (0, 0)) ∧
    (0x47 ≤ cl.toNat → (mix s x code level cl cr).1 = 0) ∧
    (0x47 ≤ cr.toNat → (mix s x code level cl cr).2 = 0)

/-- 44 R168: each side of an emitted pair is an exact integer of magnitude at most 522240, where the factor
PAN_OOR does not amplify. -/
def Obligations.OutputSumsAreBounded : Prop :=
  ∀ s t : State, Inv s → 0 ≤ s.cfg.panOor.units → s.cfg.panOor.units ≤ f64One →
    portTick s = .next t →
      ∃ l r : Int, t.outputs = s.outputs ++ [(l, r)] ∧ l.natAbs ≤ 522240 ∧ r.natAbs ≤ 522240

/-! ## binary64 -/

/-- 00_scope R11: rounding gives a binary64 number, no binary64 number lies nearer to the exact value
`num / den` units, and at a tie the significand is even (the number format is the model's, log 10). -/
def Obligations.RoundingIsToNearestEven : Prop :=
  ∀ (num : Int) (den : Nat), 0 < den →
    f64Rounded (f64Round num den) ∧
    ∀ y : F64, f64Rounded y →
      (num - den * (f64Round num den).units).natAbs ≤ (num - den * y.units).natAbs ∧
      ((num - den * (f64Round num den).units).natAbs = (num - den * y.units).natAbs →
        y ≠ f64Round num den →
          (f64Round num den).units.natAbs / 2 ^ f64Quantum (num.natAbs / den) % 2 = 0)

/-! ## The phase accumulator -/

/-- 45 R174 to R176: the new position of a voice, on numbers. -/
def Obligations.PhaseAdvanceValue : Prop :=
  ∀ (v : Voice) (p w : Nat), p = v.pos.toNat + v.step.toNat →
    (w : Int) = ((p : Int) - (voiceLoop v).toNat * 2 ^ 16) % 2 ^ 40 / 2 ^ 16 * 2 ^ 16 →
    (p / 2 ^ 16 ≤ (voiceEnd v).toNat → (phaseAdvance v).toNat = p) ∧
    ((voiceEnd v).toNat < p / 2 ^ 16 →
      (phaseAdvance v).toNat = max w ((voiceStart v).toNat * 2 ^ 16))

/-- 45 R178: after a wrap the position has fraction 0 and is at least `start << 16`. -/
def Obligations.WrapLaw : Prop :=
  ∀ v : Voice, (voiceEnd v).toNat < (v.pos.toNat + v.step.toNat) / 2 ^ 16 →
    (phaseAdvance v).toNat % 2 ^ 16 = 0 ∧
      (voiceStart v).toNat * 2 ^ 16 ≤ (phaseAdvance v).toNat

/-- The corner cases of the wrap (45 R179 to R182), each under the conditions in which R174 gives it: loop
distance 0 holds the position just past the end for a step below one sample, a loop longer than the
advanced index wraps modulo 2^24 samples, a start above the end repeats its sample, and step 0 moves
nothing at or before the end. -/
def Obligations.PhaseCornerCases : Prop :=
  ∀ v : Voice,
    (voiceLoop v = 0 → v.step.toNat < 0x10000 →
      v.pos.toNat = ((voiceEnd v).toNat + 1) * 2 ^ 16 →
      (voiceStart v).toNat ≤ (voiceEnd v).toNat + 1 → phaseAdvance v = v.pos) ∧
    (∀ k : Nat, k = (v.pos.toNat + v.step.toNat) / 2 ^ 16 → (voiceEnd v).toNat < k →
      k < (voiceLoop v).toNat → (voiceStart v).toNat ≤ k + 2 ^ 24 - (voiceLoop v).toNat →
      (phaseAdvance v).toNat = (k + 2 ^ 24 - (voiceLoop v).toNat) * 2 ^ 16) ∧
    ((voiceEnd v).toNat < (voiceStart v).toNat → v.pos = posOfIndex (voiceStart v) →
      1 ≤ (voiceLoop v).toNat → (voiceLoop v).toNat ≤ (voiceStart v).toNat →
      v.step.toNat ≤ 0x10000 → phaseAdvance v = v.pos) ∧
    (v.step = 0 → v.pos.toNat / 2 ^ 16 ≤ (voiceEnd v).toNat → phaseAdvance v = v.pos)

/-! ## Faults of the machine -/

/-- 60 R186: the fault is raised by exactly three operations, each with the address and the record of the
operation, only where the word lies outside the range; with a range of 2^25 bytes no tick faults and with
2^32 nothing does. -/
def Obligations.StorageFaultHasThreeCauses : Prop :=
  (∀ (s : State) (a : BitVec 32) (op : StorageOp), step s = .fault (.storageFault a op) →
    s.cfg.storageBytes < a.toNat + 2 ∧
    ((nextIsTick s = true ∧ ∃ n, op = .fetch n ∧ a = fetchAddr (voiceAt s n) ∧
        isSkipped (voiceAt s n) = false) ∨
      (op = .extWrite ∧ a = extByteAddr s ∧ ∃ ig, nextAccess s = some (.wrExtwrite ig)) ∨
      (op = .extRead ∧ a = extByteAddr s ∧ nextAccess s = some .rdExtdata))) ∧
  (∀ s : State, 2 ^ 25 ≤ s.cfg.storageBytes → ∃ t, portTick s = .next t) ∧
  (∀ (s : State) (f : Fault), 2 ^ 32 ≤ s.cfg.storageBytes → step s ≠ .fault f)

/-- 20_memory R58: a byte an outside agent rewrites between operations is what the next fetch reads, and
nothing of the core changes (the request is the model's form of it, log 16). -/
def Obligations.RefillRewritesOneByte : Prop :=
  ∀ (s : State) (a : Nat) (b : Byte), Memory.wf s.storage = true → a < s.cfg.storageBytes →
    ∃ t, portRefill a b s = .next t ∧ memRead t.storage a = b ∧
      (∀ c, c ≠ a → memRead t.storage c = memRead s.storage c) ∧ SameVoices s t ∧ SameGlobals s t ∧
      SameConfig s t ∧ SameTables s t ∧ SameHost s t
end

