-- ==== Sys2Proof/Laws/State.lean ====
section
/-! SUPPORT. What each update of the state leaves alone: one lemma per field per update, true by rfl. -/

namespace Sys2Proof.Machine

/-! ## setVoice -/

@[simp] theorem setVoice_cfg (s : State) (n : VoiceIdx) (v : Voice) : (setVoice s n v).cfg = s.cfg := rfl
@[simp] theorem setVoice_clock (s : State) (n : VoiceIdx) (v : Voice) : (setVoice s n v).clock = s.clock := rfl
@[simp] theorem setVoice_status (s : State) (n : VoiceIdx) (v : Voice) : (setVoice s n v).status = s.status := rfl
@[simp] theorem setVoice_reqch (s : State) (n : VoiceIdx) (v : Voice) : (setVoice s n v).reqch = s.reqch := rfl
@[simp] theorem setVoice_extAddr (s : State) (n : VoiceIdx) (v : Voice) : (setVoice s n v).extAddr = s.extAddr := rfl
@[simp] theorem setVoice_extData (s : State) (n : VoiceIdx) (v : Voice) : (setVoice s n v).extData = s.extData := rfl
@[simp] theorem setVoice_volumeTable (s : State) (n : VoiceIdx) (v : Voice) : (setVoice s n v).volumeTable = s.volumeTable := rfl
@[simp] theorem setVoice_panTable (s : State) (n : VoiceIdx) (v : Voice) : (setVoice s n v).panTable = s.panTable := rfl
@[simp] theorem setVoice_ar (s : State) (n : VoiceIdx) (v : Voice) : (setVoice s n v).ar = s.ar := rfl
@[simp] theorem setVoice_dr (s : State) (n : VoiceIdx) (v : Voice) : (setVoice s n v).dr = s.dr := rfl
@[simp] theorem setVoice_rr (s : State) (n : VoiceIdx) (v : Voice) : (setVoice s n v).rr = s.rr := rfl
@[simp] theorem setVoice_storage (s : State) (n : VoiceIdx) (v : Voice) : (setVoice s n v).storage = s.storage := rfl
@[simp] theorem setVoice_pending (s : State) (n : VoiceIdx) (v : Voice) : (setVoice s n v).pending = s.pending := rfl
@[simp] theorem setVoice_lastRead (s : State) (n : VoiceIdx) (v : Voice) : (setVoice s n v).lastRead = s.lastRead := rfl
@[simp] theorem setVoice_outputs (s : State) (n : VoiceIdx) (v : Voice) : (setVoice s n v).outputs = s.outputs := rfl

/-! ## setWord -/

@[simp] theorem setWord_cfg (s : State) (a : Nat) (v : Half) : (setWord s a v).cfg = s.cfg := rfl
@[simp] theorem setWord_clock (s : State) (a : Nat) (v : Half) : (setWord s a v).clock = s.clock := rfl
@[simp] theorem setWord_voices (s : State) (a : Nat) (v : Half) : (setWord s a v).voices = s.voices := rfl
@[simp] theorem setWord_status (s : State) (a : Nat) (v : Half) : (setWord s a v).status = s.status := rfl
@[simp] theorem setWord_reqch (s : State) (a : Nat) (v : Half) : (setWord s a v).reqch = s.reqch := rfl
@[simp] theorem setWord_extAddr (s : State) (a : Nat) (v : Half) : (setWord s a v).extAddr = s.extAddr := rfl
@[simp] theorem setWord_extData (s : State) (a : Nat) (v : Half) : (setWord s a v).extData = s.extData := rfl
@[simp] theorem setWord_volumeTable (s : State) (a : Nat) (v : Half) : (setWord s a v).volumeTable = s.volumeTable := rfl
@[simp] theorem setWord_panTable (s : State) (a : Nat) (v : Half) : (setWord s a v).panTable = s.panTable := rfl
@[simp] theorem setWord_ar (s : State) (a : Nat) (v : Half) : (setWord s a v).ar = s.ar := rfl
@[simp] theorem setWord_dr (s : State) (a : Nat) (v : Half) : (setWord s a v).dr = s.dr := rfl
@[simp] theorem setWord_rr (s : State) (a : Nat) (v : Half) : (setWord s a v).rr = s.rr := rfl
@[simp] theorem setWord_pending (s : State) (a : Nat) (v : Half) : (setWord s a v).pending = s.pending := rfl
@[simp] theorem setWord_lastRead (s : State) (a : Nat) (v : Half) : (setWord s a v).lastRead = s.lastRead := rfl
@[simp] theorem setWord_outputs (s : State) (a : Nat) (v : Half) : (setWord s a v).outputs = s.outputs := rfl

/-! ## returnRead -/

@[simp] theorem returnRead_cfg (s : State) (v : Half) : (returnRead s v).cfg = s.cfg := rfl
@[simp] theorem returnRead_clock (s : State) (v : Half) : (returnRead s v).clock = s.clock := rfl
@[simp] theorem returnRead_voices (s : State) (v : Half) : (returnRead s v).voices = s.voices := rfl
@[simp] theorem returnRead_status (s : State) (v : Half) : (returnRead s v).status = s.status := rfl
@[simp] theorem returnRead_reqch (s : State) (v : Half) : (returnRead s v).reqch = s.reqch := rfl
@[simp] theorem returnRead_extAddr (s : State) (v : Half) : (returnRead s v).extAddr = s.extAddr := rfl
@[simp] theorem returnRead_extData (s : State) (v : Half) : (returnRead s v).extData = s.extData := rfl
@[simp] theorem returnRead_volumeTable (s : State) (v : Half) : (returnRead s v).volumeTable = s.volumeTable := rfl
@[simp] theorem returnRead_panTable (s : State) (v : Half) : (returnRead s v).panTable = s.panTable := rfl
@[simp] theorem returnRead_ar (s : State) (v : Half) : (returnRead s v).ar = s.ar := rfl
@[simp] theorem returnRead_dr (s : State) (v : Half) : (returnRead s v).dr = s.dr := rfl
@[simp] theorem returnRead_rr (s : State) (v : Half) : (returnRead s v).rr = s.rr := rfl
@[simp] theorem returnRead_storage (s : State) (v : Half) : (returnRead s v).storage = s.storage := rfl
@[simp] theorem returnRead_pending (s : State) (v : Half) : (returnRead s v).pending = s.pending := rfl
@[simp] theorem returnRead_outputs (s : State) (v : Half) : (returnRead s v).outputs = s.outputs := rfl

/-! ## emitPair -/

@[simp] theorem emitPair_cfg (s : State) (l r : Int) : (emitPair s l r).cfg = s.cfg := rfl
@[simp] theorem emitPair_clock (s : State) (l r : Int) : (emitPair s l r).clock = s.clock := rfl
@[simp] theorem emitPair_voices (s : State) (l r : Int) : (emitPair s l r).voices = s.voices := rfl
@[simp] theorem emitPair_status (s : State) (l r : Int) : (emitPair s l r).status = s.status := rfl
@[simp] theorem emitPair_reqch (s : State) (l r : Int) : (emitPair s l r).reqch = s.reqch := rfl
@[simp] theorem emitPair_extAddr (s : State) (l r : Int) : (emitPair s l r).extAddr = s.extAddr := rfl
@[simp] theorem emitPair_extData (s : State) (l r : Int) : (emitPair s l r).extData = s.extData := rfl
@[simp] theorem emitPair_volumeTable (s : State) (l r : Int) : (emitPair s l r).volumeTable = s.volumeTable := rfl
@[simp] theorem emitPair_panTable (s : State) (l r : Int) : (emitPair s l r).panTable = s.panTable := rfl
@[simp] theorem emitPair_ar (s : State) (l r : Int) : (emitPair s l r).ar = s.ar := rfl
@[simp] theorem emitPair_dr (s : State) (l r : Int) : (emitPair s l r).dr = s.dr := rfl
@[simp] theorem emitPair_rr (s : State) (l r : Int) : (emitPair s l r).rr = s.rr := rfl
@[simp] theorem emitPair_storage (s : State) (l r : Int) : (emitPair s l r).storage = s.storage := rfl
@[simp] theorem emitPair_pending (s : State) (l r : Int) : (emitPair s l r).pending = s.pending := rfl
@[simp] theorem emitPair_lastRead (s : State) (l r : Int) : (emitPair s l r).lastRead = s.lastRead := rfl

/-! ## buildRateTables -/

@[simp] theorem buildRateTables_cfg (s : State) : (buildRateTables s).cfg = s.cfg := rfl
@[simp] theorem buildRateTables_clock (s : State) : (buildRateTables s).clock = s.clock := rfl
@[simp] theorem buildRateTables_voices (s : State) : (buildRateTables s).voices = s.voices := rfl
@[simp] theorem buildRateTables_status (s : State) : (buildRateTables s).status = s.status := rfl
@[simp] theorem buildRateTables_reqch (s : State) : (buildRateTables s).reqch = s.reqch := rfl
@[simp] theorem buildRateTables_extAddr (s : State) : (buildRateTables s).extAddr = s.extAddr := rfl
@[simp] theorem buildRateTables_extData (s : State) : (buildRateTables s).extData = s.extData := rfl
@[simp] theorem buildRateTables_volumeTable (s : State) : (buildRateTables s).volumeTable = s.volumeTable := rfl
@[simp] theorem buildRateTables_panTable (s : State) : (buildRateTables s).panTable = s.panTable := rfl
@[simp] theorem buildRateTables_storage (s : State) : (buildRateTables s).storage = s.storage := rfl
@[simp] theorem buildRateTables_pending (s : State) : (buildRateTables s).pending = s.pending := rfl
@[simp] theorem buildRateTables_lastRead (s : State) : (buildRateTables s).lastRead = s.lastRead := rfl
@[simp] theorem buildRateTables_outputs (s : State) : (buildRateTables s).outputs = s.outputs := rfl

/-! ## What they write -/

@[simp] theorem returnRead_lastRead (s : State) (v : Half) : (returnRead s v).lastRead = some v := rfl

@[simp] theorem emitPair_outputs (s : State) (l r : Int) :
    (emitPair s l r).outputs = s.outputs ++ [(l, r)] := rfl

@[simp] theorem buildRateTables_ar (s : State) :
    (buildRateTables s).ar = buildAttackTable s.cfg.attackRate (sampleRate s.clock) := rfl

@[simp] theorem buildRateTables_dr (s : State) :
    (buildRateTables s).dr = buildFallTable s.cfg.decayRate (sampleRate s.clock) := rfl

@[simp] theorem buildRateTables_rr (s : State) :
    (buildRateTables s).rr = buildFallTable s.cfg.releaseRate (sampleRate s.clock) := rfl

/-! ## Voice records -/

/-- Two states with the same voice records have the same voice `n`. -/
theorem voiceAt_congr {s t : State} (h : t.voices = s.voices) (n : VoiceIdx) :
    voiceAt t n = voiceAt s n := by simp only [voiceAt, h]

@[simp] theorem voiceAt_setWord (s : State) (a : Nat) (v : Half) (n : VoiceIdx) :
    voiceAt (setWord s a v) n = voiceAt s n := rfl

@[simp] theorem voiceAt_returnRead (s : State) (v : Half) (n : VoiceIdx) :
    voiceAt (returnRead s v) n = voiceAt s n := rfl

@[simp] theorem voiceAt_emitPair (s : State) (l r : Int) (n : VoiceIdx) :
    voiceAt (emitPair s l r) n = voiceAt s n := rfl

@[simp] theorem voiceAt_buildRateTables (s : State) (n : VoiceIdx) :
    voiceAt (buildRateTables s) n = voiceAt s n := rfl

/-- Reading a voice record after a write of one. -/
theorem voiceAt_setVoice (s : State) (n m : VoiceIdx) (v : Voice) :
    voiceAt (setVoice s n v) m = if m = n then v else voiceAt s m := by
  simp only [voiceAt, setVoice, Vector.getElem_set]
  by_cases h : m = n
  · subst h; simp
  · have : n.toNat ≠ m.toNat := fun e => h (BitVec.eq_of_toNat_eq e.symm)
    simp [h, this]

@[simp] theorem voiceAt_setVoice_self (s : State) (n : VoiceIdx) (v : Voice) :
    voiceAt (setVoice s n v) n = v := by simp [voiceAt_setVoice]

@[simp] theorem voiceAt_setVoice_of_ne {s : State} {n m : VoiceIdx} (h : m ≠ n) (v : Voice) :
    voiceAt (setVoice s n v) m = voiceAt s m := by simp [voiceAt_setVoice, h]

/-- Two states that agree on every voice record have the same records. -/
theorem voices_ext {s t : State} (h : ∀ n, voiceAt t n = voiceAt s n) : t.voices = s.voices := by
  apply Vector.ext
  intro i hi
  have := h (BitVec.ofNat 5 i)
  simpa [voiceAt, Nat.mod_eq_of_lt hi] using this

/-- Every voice index is processed by a tick. -/
theorem mem_allVoices (n : VoiceIdx) : n ∈ allVoices :=
  List.mem_map.2 ⟨n.toNat, List.mem_range.2 n.isLt, by simp⟩

/-- No voice index is processed twice by a tick. -/
theorem allVoices_nodup : allVoices.Nodup := by decide

/-! ## The invariant -/

/-- The invariant says nothing of the requests. -/
theorem Inv.withPending {s : State} (h : Inv s) (q : List HostRequest) :
    Inv { s with pending := q } where
  params := h.params
  clock := h.clock
  tables := ⟨h.tables.volume, h.tables.pan, h.tables.attack, h.tables.decay, h.tables.release⟩
  storage := ⟨h.storage.canonical, h.storage.inRange⟩
  voices := h.voices

/-- Writing a voice record that is as it should be keeps the invariant. -/
theorem Inv.setVoice {s : State} (h : Inv s) (n : VoiceIdx) {v : Voice} (hv : VoiceOk v) :
    Inv (setVoice s n v) where
  params := h.params
  clock := h.clock
  tables := ⟨h.tables.volume, h.tables.pan, h.tables.attack, h.tables.decay, h.tables.release⟩
  storage := ⟨h.storage.canonical, h.storage.inRange⟩
  voices := fun m => by
    rw [voiceAt_setVoice]
    split
    · exact hv
    · exact h.voices m

end Sys2Proof.Machine
end

