-- ==== Sys2Proof/Laws/Decode.lean ====
section
/-! SUPPORT. Laws of the access word and its fields: packing and unpacking are inverse. -/

namespace Sys2Proof

/-! ## The access word -/

@[simp] theorem accessIsWrite_accessWord (write : Bool) (offset data : Half) :
    accessIsWrite (accessWord write offset data) = write := by
  simp only [accessIsWrite, accessWord, BitVec.getLsbD_append]
  cases write <;> rfl

@[simp] theorem accessOffset_accessWord (write : Bool) (offset data : Half) :
    accessOffset (accessWord write offset data) = offset := by
  apply BitVec.eq_of_getLsbD_eq
  intro i hi
  simp only [accessOffset, accessWord, BitVec.getLsbD_extractLsb', BitVec.getLsbD_append]
  simp [hi]

@[simp] theorem accessData_accessWord (write : Bool) (offset data : Half) :
    accessData (accessWord write offset data) = data := by
  apply BitVec.eq_of_getLsbD_eq
  intro i hi
  simp only [accessData, accessWord, BitVec.getLsbD_extractLsb', BitVec.getLsbD_append]
  simp [hi]

/-- An access word is its three fields (30_encoding R60). -/
theorem accessWord_fields (w : AccessWord) :
    accessWord (accessIsWrite w) (accessOffset w) (accessData w) = w := by
  apply BitVec.eq_of_getLsbD_eq
  intro i hi
  simp only [accessWord, accessIsWrite, accessOffset, accessData, BitVec.getLsbD_append,
    BitVec.getLsbD_extractLsb', BitVec.getLsbD_ofBool]
  by_cases h1 : i < 16
  · simp [h1]
  · by_cases h2 : i - 16 < 16
    · simp [h1, h2, show 16 + (i - 16) = i by omega]
    · have : i = 32 := by omega
      subst this; simp

/-! ## A per-channel offset -/

@[simp] theorem offsetPage_channelOffset (page : BitVec 6) (ch : VoiceIdx) (reg : RegNum) :
    offsetPage (channelOffset page ch reg) = page := by
  apply BitVec.eq_of_getLsbD_eq
  intro i hi
  simp only [offsetPage, channelOffset, BitVec.getLsbD_extractLsb', BitVec.getLsbD_append]
  simp [hi, show ¬ 10 + i < 5 by omega, show ¬ 10 + i - 5 < 5 by omega,
    show 10 + i - 5 - 5 = i by omega]

@[simp] theorem offsetChannel_channelOffset (page : BitVec 6) (ch : VoiceIdx) (reg : RegNum) :
    offsetChannel (channelOffset page ch reg) = ch := by
  apply BitVec.eq_of_getLsbD_eq
  intro i hi
  simp only [offsetChannel, channelOffset, BitVec.getLsbD_extractLsb', BitVec.getLsbD_append]
  simp [hi]

@[simp] theorem offsetReg_channelOffset (page : BitVec 6) (ch : VoiceIdx) (reg : RegNum) :
    offsetReg (channelOffset page ch reg) = reg := by
  apply BitVec.eq_of_getLsbD_eq
  intro i hi
  simp only [offsetReg, channelOffset, BitVec.getLsbD_extractLsb', BitVec.getLsbD_append]
  simp [hi]

/-- An offset is its page, voice and register (30_encoding R61). -/
theorem channelOffset_fields (o : Half) :
    channelOffset (offsetPage o) (offsetChannel o) (offsetReg o) = o := by
  apply BitVec.eq_of_getLsbD_eq
  intro i hi
  simp only [channelOffset, offsetPage, offsetChannel, offsetReg, BitVec.getLsbD_append,
    BitVec.getLsbD_extractLsb']
  by_cases h1 : i < 5
  · simp [h1]
  · by_cases h2 : i - 5 < 5
    · simp [h1, h2, show 5 + (i - 5) = i by omega]
    · simp [h1, h2, show 10 + (i - 5 - 5) = i by omega, show i - 5 - 5 < 6 by omega]

/-- The value of a per-channel offset. -/
theorem channelOffset_toNat (page : BitVec 6) (ch : VoiceIdx) (reg : RegNum) :
    (channelOffset page ch reg).toNat = page.toNat * 1024 + ch.toNat * 32 + reg.toNat := by
  simp only [channelOffset, BitVec.toNat_append]
  rw [← Nat.shiftLeft_add_eq_or_of_lt ch.isLt, ← Nat.shiftLeft_add_eq_or_of_lt reg.isLt]
  simp only [Nat.shiftLeft_eq]
  ring

/-- An offset is per-channel exactly where bits 15:10 are not all zero (30_encoding R61). -/
theorem channelOffset_lt_iff (page : BitVec 6) (ch : VoiceIdx) (reg : RegNum) :
    (channelOffset page ch reg).toNat < 0x400 ↔ page = 0 := by
  rw [channelOffset_toNat]
  have := ch.isLt
  have := reg.isLt
  constructor
  · intro h; apply BitVec.eq_of_toNat_eq; simp; omega
  · rintro rfl; simp; omega

/-! ## The command data -/

@[simp] theorem dataVoice_channelControlData (ignored : BitVec 9) (cmd : BitVec 2) (ch : VoiceIdx) :
    dataVoice (channelControlData ignored cmd ch) = ch := by
  apply BitVec.eq_of_getLsbD_eq
  intro i hi
  simp only [dataVoice, channelControlData, BitVec.getLsbD_extractLsb', BitVec.getLsbD_append]
  simp [hi]

@[simp] theorem dataChannelCommand_channelControlData (ignored : BitVec 9) (cmd : BitVec 2)
    (ch : VoiceIdx) : dataChannelCommand (channelControlData ignored cmd ch) = cmd := by
  apply BitVec.eq_of_getLsbD_eq
  intro i hi
  simp only [dataChannelCommand, channelControlData, BitVec.getLsbD_extractLsb',
    BitVec.getLsbD_append]
  simp [hi]

@[simp] theorem ignored_channelControlData (ignored : BitVec 9) (cmd : BitVec 2) (ch : VoiceIdx) :
    (channelControlData ignored cmd ch).extractLsb' 7 9 = ignored := by
  apply BitVec.eq_of_getLsbD_eq
  intro i hi
  simp only [channelControlData, BitVec.getLsbD_extractLsb', BitVec.getLsbD_append]
  simp [hi, show ¬ 7 + i < 5 by omega, show ¬ 7 + i - 5 < 2 by omega,
    show 7 + i - 5 - 2 = i by omega]

@[simp] theorem low_channelControlData (ignored : BitVec 9) (cmd : BitVec 2) (ch : VoiceIdx) :
    (channelControlData ignored cmd ch).extractLsb' 5 1 = cmd.extractLsb' 0 1 := by
  apply BitVec.eq_of_getLsbD_eq
  intro i hi
  simp only [channelControlData, BitVec.getLsbD_extractLsb', BitVec.getLsbD_append]
  simp [show i = 0 by omega]

@[simp] theorem dataExtCommand_extCommandData (ignored : BitVec 14) (cmd : BitVec 2) :
    dataExtCommand (extCommandData ignored cmd) = cmd := by
  apply BitVec.eq_of_getLsbD_eq
  intro i hi
  simp only [dataExtCommand, extCommandData, BitVec.getLsbD_extractLsb', BitVec.getLsbD_append]
  simp [hi]

@[simp] theorem ignored_extCommandData (ignored : BitVec 14) (cmd : BitVec 2) :
    (extCommandData ignored cmd).extractLsb' 2 14 = ignored := by
  apply BitVec.eq_of_getLsbD_eq
  intro i hi
  simp only [extCommandData, BitVec.getLsbD_extractLsb', BitVec.getLsbD_append]
  simp [hi, show ¬ 2 + i < 2 by omega]

@[simp] theorem dataVoice_reqch (ignored : BitVec 11) (ch : VoiceIdx) :
    dataVoice (ignored ++ ch : Half) = ch := by
  apply BitVec.eq_of_getLsbD_eq
  intro i hi
  simp only [dataVoice, BitVec.getLsbD_extractLsb', BitVec.getLsbD_append]
  simp [hi]

@[simp] theorem ignored_reqch (ignored : BitVec 11) (ch : VoiceIdx) :
    (ignored ++ ch : Half).extractLsb' 5 11 = ignored := by
  apply BitVec.eq_of_getLsbD_eq
  intro i hi
  simp only [BitVec.getLsbD_extractLsb', BitVec.getLsbD_append]
  simp [hi]

/-! ## Decoding a packed word -/

@[simp] theorem decode_accessWord (m : ChRegMap) (write : Bool) (offset data : Half) :
    decode m (accessWord write offset data) = decodeAccess m write offset data := by
  simp [decode]

theorem decodeAccess_globalWrite (m : ChRegMap) {offset : Half} (h : offset.toNat < 0x400)
    (data : Half) : decodeAccess m true offset data = decodeGlobalWrite offset data := by
  simp [decodeAccess, h]

theorem decodeAccess_globalRead (m : ChRegMap) {offset : Half} (h : offset.toNat < 0x400)
    (data : Half) : decodeAccess m false offset data = decodeGlobalRead offset := by
  simp [decodeAccess, h]

theorem decodeAccess_channelWrite (m : ChRegMap) {page : BitVec 6} (h : page ≠ 0) (ch : VoiceIdx)
    (reg : RegNum) (data : Half) :
    decodeAccess m true (channelOffset page ch reg) data = decodeChannelWrite m page ch reg data := by
  have := (channelOffset_lt_iff page ch reg).not.2 h
  simp [decodeAccess, this]

theorem decodeAccess_channelRead (m : ChRegMap) {page : BitVec 6} (h : page ≠ 0) (ch : VoiceIdx)
    (reg : RegNum) (data : Half) :
    decodeAccess m false (channelOffset page ch reg) data = .rdCh page ch reg := by
  have := (channelOffset_lt_iff page ch reg).not.2 h
  simp [decodeAccess, this]

end Sys2Proof
end

