-- ==== Sys2Proof/Laws/Float.lean ====
section
/-! SUPPORT. Laws of the binary64 rounding and of the operations built on it (00_scope R11). -/

namespace Sys2Proof.Machine

/-! ## The quantum -/

theorem log2_lt_two_pow (q : Nat) : q < 2 ^ (q.log2 + 1) := Nat.lt_log2_self

theorem two_pow_log2_le {q : Nat} (h : q ≠ 0) : 2 ^ q.log2 ≤ q := Nat.log2_self_le h

theorem log2_mono {a b : Nat} (h : a ≤ b) : a.log2 ≤ b.log2 := by
  rcases Nat.eq_zero_or_pos a with rfl | ha
  · simp
  · exact (Nat.le_log2 (by omega)).2 ((two_pow_log2_le (by omega)).trans h)

theorem f64Quantum_mono {a b : Nat} (h : a ≤ b) : f64Quantum a ≤ f64Quantum b :=
  Nat.sub_le_sub_right (log2_mono h) 52

/-- The significand of `q` in its quantum has at most 53 bits. -/
theorem div_quantum_lt (q : Nat) : q / 2 ^ f64Quantum q < 2 ^ 53 := by
  rw [Nat.div_lt_iff_lt_mul (by positivity), ← pow_add]
  refine (log2_lt_two_pow q).trans_le (Nat.pow_le_pow_right (by omega) ?_)
  unfold f64Quantum; omega

/-- Where the quantum is not one unit the significand has 53 bits. -/
theorem le_div_quantum {q : Nat} (h : 0 < f64Quantum q) : 2 ^ 52 ≤ q / 2 ^ f64Quantum q := by
  have hq : q ≠ 0 := by rintro rfl; simp [f64Quantum] at h
  rw [Nat.le_div_iff_mul_le (by positivity), ← pow_add]
  refine le_trans (Nat.pow_le_pow_right (by omega) ?_) (two_pow_log2_le hq)
  unfold f64Quantum at *; omega

/-- A magnitude is binary64 exactly where its quantum divides it. -/
theorem f64RoundMag_eq_self_iff (n : Nat) :
    f64RoundMag n 1 = n ↔ 2 ^ f64Quantum n ∣ n := by
  simp only [f64RoundMag, Nat.div_one, one_mul]
  constructor
  · intro h; exact Dvd.intro_left _ h
  · intro h
    have h0 := Nat.mod_eq_zero_of_dvd h
    rw [if_neg (by
      have : 0 < 2 ^ f64Quantum n := by positivity
      omega)]
    exact Nat.div_mul_cancel h

/-! ## Rounding a magnitude -/

/-- The two neighbours between which a magnitude is rounded. -/
theorem f64RoundMag_cases (num den : Nat) :
    f64RoundMag num den =
        num / (den * 2 ^ f64Quantum (num / den)) * 2 ^ f64Quantum (num / den) ∨
      f64RoundMag num den =
        (num / (den * 2 ^ f64Quantum (num / den)) + 1) * 2 ^ f64Quantum (num / den) := by
  simp only [f64RoundMag]
  split
  · exact .inr rfl
  · exact .inl rfl

theorem significand_lt (num den : Nat) :
    num / (den * 2 ^ f64Quantum (num / den)) < 2 ^ 53 := by
  rw [← Nat.div_div_eq_div_mul]; exact div_quantum_lt _

theorem le_significand {num den : Nat} (h : 0 < f64Quantum (num / den)) :
    2 ^ 52 ≤ num / (den * 2 ^ f64Quantum (num / den)) := by
  rw [← Nat.div_div_eq_div_mul]; exact le_div_quantum h

/-- A number of at most 53 significant bits is binary64. -/
theorem f64RoundMag_of_significand {m k : Nat} (h : m ≤ 2 ^ 53) :
    f64RoundMag (m * 2 ^ k) 1 = m * 2 ^ k := by
  rw [f64RoundMag_eq_self_iff]
  rcases Nat.lt_or_ge m (2 ^ 53) with hm | hm
  · have hlt : m * 2 ^ k < 2 ^ (53 + k) := by
      rw [pow_add]; exact Nat.mul_lt_mul_of_pos_right hm (by positivity)
    refine Dvd.dvd.mul_left (pow_dvd_pow 2 ?_) m
    unfold f64Quantum
    rcases Nat.eq_zero_or_pos (m * 2 ^ k) with h0 | h0
    · rw [h0]; simp
    · have := (Nat.log2_lt (by omega)).2 hlt; omega
  · have : m = 2 ^ 53 := by omega
    subst this
    rw [← pow_add]
    refine pow_dvd_pow 2 ?_
    unfold f64Quantum; rw [Nat.log2_two_pow]; omega

/-- What rounding gives is binary64. -/
theorem f64RoundMag_idem (num den : Nat) :
    f64RoundMag (f64RoundMag num den) 1 = f64RoundMag num den := by
  have hm := significand_lt num den
  rcases f64RoundMag_cases num den with h | h <;> rw [h] <;>
    exact f64RoundMag_of_significand (by omega)

@[simp] theorem f64RoundMag_zero (den : Nat) : f64RoundMag 0 den = 0 := by
  simp [f64RoundMag, f64Quantum]

/-- Rounding keeps the order of the exact values. -/
theorem f64RoundMag_mono {a b c d : Nat} (hb : 0 < b) (hd : 0 < d) (h : a * d ≤ c * b) :
    f64RoundMag a b ≤ f64RoundMag c d := by
  have hq : a / b ≤ c / d := by
    rw [Nat.le_div_iff_mul_le hd]
    have h1 := Nat.div_mul_le_self a b
    have h2 : a / b * d * b ≤ c * b := by
      calc a / b * d * b = a / b * b * d := by ring
        _ ≤ a * d := Nat.mul_le_mul_right d h1
        _ ≤ c * b := h
    exact Nat.le_of_mul_le_mul_right h2 hb
  have hk := f64Quantum_mono hq
  rcases Nat.lt_or_ge (f64Quantum (a / b)) (f64Quantum (c / d)) with hlt | hge
  · have hm := significand_lt a b
    have hm' := le_significand (num := c) (den := d) (by omega)
    have h1 : f64RoundMag a b ≤ 2 ^ (53 + f64Quantum (a / b)) := by
      rw [pow_add]
      rcases f64RoundMag_cases a b with e | e <;> rw [e] <;>
        exact Nat.mul_le_mul_right _ (by omega)
    have h2 : 2 ^ (52 + f64Quantum (c / d)) ≤ f64RoundMag c d := by
      rw [pow_add]
      rcases f64RoundMag_cases c d with e | e <;> rw [e] <;>
        exact Nat.mul_le_mul_right _ (by omega)
    exact h1.trans (le_trans (Nat.pow_le_pow_right (by omega) (by omega)) h2)
  · have hkk : f64Quantum (c / d) = f64Quantum (a / b) := by omega
    unfold f64RoundMag
    simp only [hkk]
    generalize f64Quantum (a / b) = k
    have hp : 0 < 2 ^ k := by positivity
    have hD : 0 < b * 2 ^ k := by positivity
    have hE : 0 < d * 2 ^ k := by positivity
    have hc : a * (d * 2 ^ k) ≤ c * (b * 2 ^ k) := by
      calc a * (d * 2 ^ k) = a * d * 2 ^ k := by ring
        _ ≤ c * b * 2 ^ k := Nat.mul_le_mul_right _ h
        _ = c * (b * 2 ^ k) := by ring
    generalize b * 2 ^ k = D at *
    generalize d * 2 ^ k = E at *
    refine Nat.mul_le_mul_right _ ?_
    have ha := Nat.div_add_mod a D
    have hcm := Nat.div_add_mod c E
    have hra := Nat.mod_lt a hD
    have hrc := Nat.mod_lt c hE
    generalize a / D = m at *
    generalize c / E = n at *
    generalize a % D = r at *
    generalize c % E = t at *
    subst ha; subst hcm
    have hmn : m ≤ n := by
      by_contra hcon
      have h3 : n + 1 ≤ m := by omega
      have : (E * n + t) * D < (D * m + r) * E := by
        calc (E * n + t) * D < (E * n + E) * D := by
              exact Nat.mul_lt_mul_of_pos_right (by omega) hD
          _ = D * (n + 1) * E := by ring
          _ ≤ D * m * E := Nat.mul_le_mul_right _ (Nat.mul_le_mul_left _ h3)
          _ ≤ (D * m + r) * E := Nat.mul_le_mul_right _ (by omega)
      omega
    rcases Nat.lt_or_ge m n with hlt2 | hge2
    · split <;> split <;> omega
    · have : m = n := by omega
      subst this
      have hrt : r * E ≤ t * D := by
        have : (D * m + r) * E = D * m * E + r * E := by ring
        have : (E * m + t) * D = D * m * E + t * D := by ring
        omega
      split <;> split <;> try omega
      rename_i h1 h2
      exfalso
      have h4 : ¬ (E < 2 * t) := by tauto
      have h5 : D ≤ 2 * r := by omega
      have h6 : 2 * t * D ≤ E * D := Nat.mul_le_mul_right _ (by omega)
      have h7 : D * E ≤ 2 * r * E := Nat.mul_le_mul_right _ h5
      have h8 : 2 * r * E ≤ 2 * t * D := by nlinarith
      have h9 : 2 * t * D = E * D := by
        have : D * E = E * D := by ring
        omega
      have h10 : 2 * t = E := Nat.eq_of_mul_eq_mul_right hD h9
      have h11 : 2 * r * E = D * E := by
        have : D * E = E * D := by ring
        omega
      have h12 : 2 * r = D := Nat.eq_of_mul_eq_mul_right hE h11
      omega

/-! ## Rounding a signed value -/

theorem sign_nonneg_of_nonneg {a : Int} (h : 0 ≤ a) : 0 ≤ a.sign := by
  rcases h.lt_or_eq with h | rfl
  · rw [Int.sign_eq_one_of_pos h]; omega
  · simp

theorem sign_nonpos_of_nonpos {a : Int} (h : a ≤ 0) : a.sign ≤ 0 := by
  rcases h.lt_or_eq with h | rfl
  · rw [Int.sign_eq_neg_one_of_neg h]; omega
  · simp

theorem f64Round_units (num : Int) (den : Nat) :
    (f64Round num den).units = num.sign * f64RoundMag num.natAbs den := rfl

theorem f64Round_natAbs (num : Int) (den : Nat) :
    (f64Round num den).units.natAbs = f64RoundMag num.natAbs den := by
  rw [f64Round_units, Int.natAbs_mul]
  rcases Int.lt_trichotomy num 0 with h | rfl | h
  · simp [Int.sign_eq_neg_one_of_neg h]
  · simp
  · simp [Int.sign_eq_one_of_pos h]

/-- What rounding gives is binary64. -/
theorem f64Round_rounded (num : Int) (den : Nat) : f64Rounded (f64Round num den) := by
  unfold f64Rounded; rw [f64Round_natAbs]; exact f64RoundMag_idem _ _

theorem f64Round_nonneg {num : Int} (h : 0 ≤ num) (den : Nat) : 0 ≤ (f64Round num den).units := by
  rw [f64Round_units]; exact mul_nonneg (sign_nonneg_of_nonneg h) (by positivity)

theorem f64Round_nonpos {num : Int} (h : num ≤ 0) (den : Nat) : (f64Round num den).units ≤ 0 := by
  rw [f64Round_units]
  exact mul_nonpos_of_nonpos_of_nonneg (sign_nonpos_of_nonpos h) (by positivity)

@[simp] theorem f64Round_zero (den : Nat) : f64Round 0 den = f64Zero := by simp [f64Round, f64Zero]

theorem f64Round_of_nonneg {num : Int} (h : 0 ≤ num) (den : Nat) :
    (f64Round num den).units = f64RoundMag num.toNat den := by
  rw [f64Round_units]
  rcases h.lt_or_eq with h | rfl
  · rw [Int.sign_eq_one_of_pos h, one_mul]; congr 2; omega
  · simp

theorem f64Round_of_nonpos {num : Int} (h : num ≤ 0) (den : Nat) :
    (f64Round num den).units = -f64RoundMag (-num).toNat den := by
  rw [f64Round_units]
  rcases h.lt_or_eq with h | rfl
  · rw [Int.sign_eq_neg_one_of_neg h, neg_one_mul]; congr 3; omega
  · simp

/-- A binary64 number rounds to itself. -/
theorem f64Round_eq_self {x : F64} (h : f64Rounded x) : f64Round x.units 1 = x := by
  cases x with
  | mk u =>
    simp only [f64Rounded] at h
    simp only [f64Round, h, F64.mk.injEq]
    exact Int.sign_mul_natAbs u

/-- Rounding whole units keeps the order. -/
theorem f64Round_mono {a b : Int} (h : a ≤ b) : (f64Round a 1).units ≤ (f64Round b 1).units := by
  rcases Int.le_total 0 a with ha | ha
  · rw [f64Round_of_nonneg ha, f64Round_of_nonneg (ha.trans h)]
    exact_mod_cast f64RoundMag_mono Nat.one_pos Nat.one_pos (by omega)
  · rcases Int.le_total 0 b with hb | hb
    · exact (f64Round_nonpos ha 1).trans (f64Round_nonneg hb 1)
    · rw [f64Round_of_nonpos ha, f64Round_of_nonpos hb]
      have := f64RoundMag_mono (a := (-b).toNat) (c := (-a).toNat) Nat.one_pos Nat.one_pos
        (by omega)
      omega

theorem f64Rounded_zero : f64Rounded f64Zero := f64RoundMag_zero 1

/-! ## The operations -/

theorem f64One_eq : f64One = 2 ^ 1074 := by unfold f64One; rfl

theorem f64One_pos : 0 < f64One := by rw [f64One_eq]; positivity

theorem f64RoundMag_significand_one {m : Nat} (h : m ≤ 2 ^ 53) :
    f64RoundMag (m * f64One) 1 = m * f64One := by
  rw [f64One_eq]; exact f64RoundMag_of_significand h

theorem f64Rounded_one : f64Rounded f64Unit := by
  have := f64RoundMag_significand_one (m := 1) (by norm_num)
  rw [one_mul] at this
  exact this

theorem f64Add_rounded (a b : F64) : f64Rounded (f64Add a b) := f64Round_rounded _ _

theorem f64Mul_rounded (a b : F64) : f64Rounded (f64Mul a b) := f64Round_rounded _ _

theorem f64Div_rounded (a b : F64) : f64Rounded (f64Div a b) := f64Round_rounded _ _

theorem f64OfInt_rounded (n : Int) : f64Rounded (f64OfInt n) := f64Round_rounded _ _

theorem f64Mul_nonneg {a b : F64} (ha : 0 ≤ a.units) (hb : 0 ≤ b.units) :
    0 ≤ (f64Mul a b).units := f64Round_nonneg (mul_nonneg ha hb) _

theorem f64Mul_nonpos {a b : F64} (ha : a.units ≤ 0) (hb : 0 ≤ b.units) :
    (f64Mul a b).units ≤ 0 := f64Round_nonpos (mul_nonpos_of_nonpos_of_nonneg ha hb) _

theorem f64Div_nonneg {a b : F64} (ha : 0 ≤ a.units) (hb : 0 ≤ b.units) :
    0 ≤ (f64Div a b).units :=
  f64Round_nonneg (mul_nonneg (mul_nonneg ha (Int.natCast_nonneg _)) (sign_nonneg_of_nonneg hb)) _

theorem f64Div_nonpos {a b : F64} (ha : a.units ≤ 0) (hb : 0 ≤ b.units) :
    (f64Div a b).units ≤ 0 :=
  f64Round_nonpos (mul_nonpos_of_nonpos_of_nonneg
    (mul_nonpos_of_nonpos_of_nonneg ha (Int.natCast_nonneg _)) (sign_nonneg_of_nonneg hb)) _

theorem f64OfInt_nonneg {n : Int} (h : 0 ≤ n) : 0 ≤ (f64OfInt n).units :=
  f64Round_nonneg (mul_nonneg h (Int.natCast_nonneg _)) _

theorem f64OfInt_nonpos {n : Int} (h : n ≤ 0) : (f64OfInt n).units ≤ 0 :=
  f64Round_nonpos (mul_nonpos_of_nonpos_of_nonneg h (Int.natCast_nonneg _)) _

theorem sign_f64One : ((f64One : Nat) : Int).sign = 1 :=
  Int.sign_eq_one_of_pos (by exact_mod_cast f64One_pos)

/-- An integer of at most 53 bits converts exactly (00_scope R11). -/
theorem f64OfInt_exact {n : Int} (h : n.natAbs ≤ 2 ^ 53) : (f64OfInt n).units = n * f64One := by
  rw [f64OfInt, f64Round_units, Int.natAbs_mul, Int.natAbs_natCast, f64RoundMag_significand_one h,
    Int.sign_mul, sign_f64One, mul_one, Nat.cast_mul, ← mul_assoc, Int.sign_mul_natAbs]

/-- Multiplying by 1.0 changes nothing (43 R149). -/
theorem f64Mul_one {x : F64} (h : f64Rounded x) : f64Mul x f64Unit = x := by
  have key : f64RoundMag (x.units.natAbs * f64One) f64One = x.units.natAbs := by
    have e : f64RoundMag (x.units.natAbs * f64One) f64One = f64RoundMag x.units.natAbs 1 := by
      apply le_antisymm <;> apply f64RoundMag_mono <;>
        first | exact f64One_pos | exact Nat.one_pos | simp
    rw [e]; exact h
  have hu : (f64Mul x f64Unit).units = x.units := by
    show (f64Round (x.units * (f64One : Int)) f64One).units = x.units
    rw [f64Round_units, Int.natAbs_mul, Int.natAbs_natCast, key, Int.sign_mul, sign_f64One, mul_one,
      Int.sign_mul_natAbs]
  cases x; cases h' : f64Mul _ _; simp_all

@[simp] theorem f64Mul_zero (x : F64) : f64Mul x f64Zero = f64Zero := by
  simp [f64Mul, f64Zero, f64Round]

@[simp] theorem f64Zero_mul (x : F64) : f64Mul f64Zero x = f64Zero := by
  simp [f64Mul, f64Zero, f64Round]

/-- Adding a step that is not negative does not lower a level (43 R153). -/
theorem le_f64Add {a b : F64} (ha : f64Rounded a) (hb : 0 ≤ b.units) :
    a.units ≤ (f64Add a b).units := by
  conv_lhs => rw [← f64Round_eq_self ha]
  exact f64Round_mono (by omega)

/-- Adding a step that is not positive does not raise a level (43 R153). -/
theorem f64Add_le {a b : F64} (ha : f64Rounded a) (hb : b.units ≤ 0) :
    (f64Add a b).units ≤ a.units := by
  conv_rhs => rw [← f64Round_eq_self ha]
  exact f64Round_mono (by omega)

/-! ## Truncation (00_scope R10) -/

/-- Truncation keeps the order. -/
theorem f64Trunc_mono {a b : F64} (h : a.units ≤ b.units) : f64Trunc a ≤ f64Trunc b :=
  Int.tdiv_le_tdiv (by exact_mod_cast f64One_pos) h

/-- A number of magnitude below 1.0 truncates to 0. -/
theorem f64Trunc_of_lt_one {a : F64} (h : a.units.natAbs < f64One) : f64Trunc a = 0 := by
  rw [f64Trunc, ← Int.natAbs_eq_zero, Int.natAbs_tdiv]
  exact Nat.div_eq_of_lt h

@[simp] theorem f64Trunc_zero : f64Trunc f64Zero = 0 := by simp [f64Trunc, f64Zero]

@[simp] theorem f64OfInt_zero : f64OfInt 0 = f64Zero := by simp [f64OfInt]

/-- Truncation undoes the conversion of an integer of at most 53 bits. -/
theorem f64Trunc_ofInt {e : Int} (h : e.natAbs ≤ 2 ^ 53) : f64Trunc (f64OfInt e) = e := by
  rw [f64Trunc, f64OfInt_exact h]
  exact Int.mul_tdiv_cancel _ (by have := f64One_pos; omega)

/-- Rounding a negated value. -/
theorem f64Round_neg (x : Int) : (f64Round (-x) 1).units = -(f64Round x 1).units := by
  simp [f64Round]

/-- An integer of at most 53 bits times a number, rounded once. -/
theorem f64Mul_ofInt {e : Int} (h : e.natAbs ≤ 2 ^ 53) (f : F64) :
    f64Mul (f64OfInt e) f = f64Round (e * f.units) 1 := by
  rw [f64Mul, f64OfInt_exact h, show e * (f64One : Int) * f.units = e * f.units * f64One by ring]
  unfold f64Round
  rw [Int.sign_mul (e * f.units) f64One, sign_f64One, mul_one, Int.natAbs_mul (e * f.units) f64One,
    Int.natAbs_natCast]
  congr 3
  apply le_antisymm <;> apply f64RoundMag_mono <;>
    first | exact f64One_pos | exact Nat.one_pos | simp

/-- A factor from 0.0 to 1.0 moves a value that is not negative toward zero (44 R165, R166). -/
theorem f64Trunc_mul_of_nonneg {e : Int} (h : e.natAbs ≤ 2 ^ 53) (h0 : 0 ≤ e) {f : F64}
    (hf : 0 ≤ f.units) (hf1 : f.units ≤ f64One) :
    0 ≤ f64Trunc (f64Mul (f64OfInt e) f) ∧ f64Trunc (f64Mul (f64OfInt e) f) ≤ e := by
  constructor
  · exact Int.tdiv_nonneg (f64Mul_nonneg (f64OfInt_nonneg h0) hf) (by positivity)
  · conv_rhs => rw [← f64Trunc_ofInt h]
    rw [f64Mul_ofInt h]
    exact f64Trunc_mono (f64Round_mono (mul_le_mul_of_nonneg_left hf1 h0))

/-- A factor from 0.0 to 1.0 moves a value that is not positive toward zero (44 R165, R166). -/
theorem f64Trunc_mul_of_nonpos {e : Int} (h : e.natAbs ≤ 2 ^ 53) (h0 : e ≤ 0) {f : F64}
    (hf : 0 ≤ f.units) (hf1 : f.units ≤ f64One) :
    e ≤ f64Trunc (f64Mul (f64OfInt e) f) ∧ f64Trunc (f64Mul (f64OfInt e) f) ≤ 0 := by
  have hn : (-e).natAbs ≤ 2 ^ 53 := by omega
  have hm := f64Trunc_mul_of_nonneg hn (by omega) hf hf1
  have hneg : f64Trunc (f64Mul (f64OfInt (-e)) f) = -f64Trunc (f64Mul (f64OfInt e) f) := by
    rw [f64Mul_ofInt hn, f64Mul_ofInt h, f64Trunc, f64Trunc, neg_mul, f64Round_neg, Int.neg_tdiv]
  omega

end Sys2Proof.Machine
end

