-- ==== Sys2Proof/Laws/Memory.lean ====
section
/-! SUPPORT. Laws of storage: read after write, the canonical form, and the word operations. -/

namespace Sys2Proof.Machine

/-! ## Reading after a write -/

/-- The canonical form, unfolded at a cell. -/
theorem Memory.wf_cons {a : Nat} {v : Byte} {rest : Memory} :
    Memory.wf ((a, v) :: rest) = true ↔
      v ≠ unlistedByte ∧ (∀ c ∈ rest, a < c.1) ∧ Memory.wf rest = true := by
  simp [Memory.wf, List.all_eq_true, and_assoc]

/-- A byte below every listed address is unlisted. -/
theorem memRead_of_lt {m : Memory} {a : Nat} (h : ∀ c ∈ m, a < c.1) : memRead m a = unlistedByte := by
  induction m with
  | nil => rfl
  | cons c rest ih =>
    obtain ⟨b, w⟩ := c
    have hb : a < b := h (b, w) (by simp)
    rw [memRead, if_neg (by omega)]
    exact ih fun c hc => h c (by simp [hc])

theorem memRead_memCell {a : Nat} {v : Byte} {rest : Memory} (h : ∀ c ∈ rest, a < c.1) (b : Nat) :
    memRead (memCell a v rest) b = if b = a then v else memRead rest b := by
  unfold memCell
  split
  · next hv =>
    split
    · next hb => subst hb; rw [memRead_of_lt h, hv]
    · rfl
  · rfl

/-- What a byte reads as after a byte is written. -/
theorem memRead_memWrite {m : Memory} (hm : Memory.wf m = true) (a : Nat) (v : Byte) (b : Nat) :
    memRead (memWrite m a v) b = if b = a then v else memRead m b := by
  induction m with
  | nil => rw [memWrite, memRead_memCell (by simp)]
  | cons c rest ih =>
    obtain ⟨d, w⟩ := c
    obtain ⟨-, hlt, hrest⟩ := Memory.wf_cons.1 hm
    rw [memWrite]
    split
    · next had =>
      refine memRead_memCell ?_ b
      intro c hc
      rcases List.mem_cons.1 hc with rfl | hc
      · exact had
      · exact had.trans (hlt c hc)
    · split
      · next hna had =>
        subst had
        rw [memRead_memCell hlt, memRead]
        by_cases hb : b = a <;> simp [hb]
      · next hna had =>
        rw [memRead, memRead, ih hrest]
        by_cases hb : b = d
        · have : b ≠ a := by omega
          simp [hb, show d ≠ a by omega]
        · simp [hb]

/-! ## The canonical form -/

/-- The listed addresses after a write are the old ones and the written one. -/
theorem mem_memWrite {m : Memory} {a : Nat} {v : Byte} {c : Host.Cell} (h : c ∈ memWrite m a v) :
    c.1 = a ∨ c ∈ m := by
  have cell : ∀ {rest : Memory}, c ∈ memCell a v rest → c.1 = a ∨ c ∈ rest := by
    intro rest hc
    unfold memCell at hc
    split at hc
    · exact .inr hc
    · rcases List.mem_cons.1 hc with rfl | hc
      · exact .inl rfl
      · exact .inr hc
  induction m with
  | nil => exact cell h
  | cons d rest ih =>
    obtain ⟨b, w⟩ := d
    rw [memWrite] at h
    split at h
    · exact cell h
    · split at h
      · rcases cell h with h | h
        · exact .inl h
        · exact .inr (by simp [h])
      · rcases List.mem_cons.1 h with rfl | h
        · exact .inr (by simp)
        · rcases ih h with h | h
          · exact .inl h
          · exact .inr (by simp [h])

theorem Memory.wf_memCell {a : Nat} {v : Byte} {rest : Memory} (h : ∀ c ∈ rest, a < c.1)
    (hr : Memory.wf rest = true) : Memory.wf (memCell a v rest) = true := by
  unfold memCell
  split
  · exact hr
  · next hv => exact Memory.wf_cons.2 ⟨hv, h, hr⟩

/-- A write keeps the canonical form. -/
theorem Memory.wf_memWrite {m : Memory} (hm : Memory.wf m = true) (a : Nat) (v : Byte) :
    Memory.wf (memWrite m a v) = true := by
  induction m with
  | nil => exact Memory.wf_memCell (by simp) rfl
  | cons c rest ih =>
    obtain ⟨d, w⟩ := c
    obtain ⟨hw, hlt, hrest⟩ := Memory.wf_cons.1 hm
    rw [memWrite]
    split
    · next had =>
      refine Memory.wf_memCell ?_ hm
      intro c hc
      rcases List.mem_cons.1 hc with rfl | hc
      · exact had
      · exact had.trans (hlt c hc)
    · split
      · next _ had => subst had; exact Memory.wf_memCell hlt hrest
      · refine Memory.wf_cons.2 ⟨hw, ?_, ih hrest⟩
        intro c hc
        rcases mem_memWrite hc with h | h
        · omega
        · exact hlt c h

/-- Storage after reset is in canonical form. -/
theorem Memory.wf_reset : Memory.wf State.reset.storage = true := rfl

/-- Two memories in canonical form that read alike are equal. -/
theorem Memory.ext {m m' : Memory} (hm : Memory.wf m = true) (hm' : Memory.wf m' = true)
    (h : ∀ a, memRead m a = memRead m' a) : m = m' := by
  induction m generalizing m' with
  | nil =>
    cases m' with
    | nil => rfl
    | cons c rest =>
      obtain ⟨b, w⟩ := c
      have := h b
      simp only [memRead, if_true] at this
      exact absurd this.symm (Memory.wf_cons.1 hm').1
  | cons c rest ih =>
    obtain ⟨b, w⟩ := c
    obtain ⟨hw, hlt, hrest⟩ := Memory.wf_cons.1 hm
    cases m' with
    | nil =>
      have := h b
      simp only [memRead, if_true] at this
      exact absurd this hw
    | cons c' rest' =>
      obtain ⟨b', w'⟩ := c'
      obtain ⟨hw', hlt', hrest'⟩ := Memory.wf_cons.1 hm'
      have hbb : b = b' := by
        rcases Nat.lt_trichotomy b b' with hb | hb | hb
        · have := h b
          rw [memRead, if_pos rfl, memRead_of_lt] at this
          · exact absurd this hw
          · intro c hc
            rcases List.mem_cons.1 hc with rfl | hc
            · exact hb
            · exact hb.trans (hlt' c hc)
        · exact hb
        · have := h b'
          rw [memRead_of_lt, memRead, if_pos rfl] at this
          · exact absurd this.symm hw'
          · intro c hc
            rcases List.mem_cons.1 hc with rfl | hc
            · exact hb
            · exact hb.trans (hlt c hc)
      subst hbb
      have hww : w = w' := by
        have := h b
        simpa [memRead] using this
      subst hww
      have hre : rest = rest' := ih hrest hrest' fun a => by
        by_cases hab : a = b
        · subst hab; rw [memRead_of_lt hlt, memRead_of_lt hlt']
        · have := h a
          simpa [memRead, hab] using this
      rw [hre]

/-! ## Words -/

/-- A word is the two bytes it is split into, in either byte order. -/
@[simp] theorem wordOfBytes_split (order : ByteOrder) (v : Half) :
    wordOfBytes order (firstByte order v) (secondByte order v) = v := by
  cases order <;> simp only [wordOfBytes, firstByte, secondByte] <;>
    exact BitVec.eq_of_getLsbD_eq fun i hi => by
      simp only [BitVec.getLsbD_append, BitVec.getLsbD_extractLsb']
      by_cases h : i < 8
      · simp [h]
      · simp [h]; grind

/-- What a byte reads as after a word is written. -/
theorem memRead_setWord {s : State} (hm : Memory.wf s.storage = true) (a : Nat) (v : Half) (b : Nat) :
    memRead (setWord s a v).storage b =
      if b = a + 1 then secondByte s.cfg.byteOrder v
      else if b = a then firstByte s.cfg.byteOrder v else memRead s.storage b := by
  simp only [setWord]
  rw [memRead_memWrite (Memory.wf_memWrite hm _ _), memRead_memWrite hm]

/-- The word just written is read back (20_memory R58). -/
theorem wordAt_setWord {s : State} (hm : Memory.wf s.storage = true) (a : Nat) (v : Half) :
    wordAt (setWord s a v) a = v := by
  unfold wordAt
  rw [memRead_setWord hm, memRead_setWord hm]
  simp

/-- A word that shares no byte with the written one is unchanged. -/
theorem wordAt_setWord_of_ne {s : State} (hm : Memory.wf s.storage = true) {a b : Nat} (v : Half)
    (h1 : b ≠ a) (h2 : b ≠ a + 1) (h3 : b + 1 ≠ a) : wordAt (setWord s a v) b = wordAt s b := by
  unfold wordAt
  rw [memRead_setWord hm, memRead_setWord hm]
  simp [h1, h2, h3]

/-- Writing a word keeps the canonical form. -/
theorem Memory.wf_setWord {s : State} (hm : Memory.wf s.storage = true) (a : Nat) (v : Half) :
    Memory.wf (setWord s a v).storage = true :=
  Memory.wf_memWrite (Memory.wf_memWrite hm _ _) _ _

end Sys2Proof.Machine
end

