-- ==== Sys2Proof/Laws/Operands.lean ====
section
/-! SUPPORT. The operands and the phase accumulator on numbers. -/

namespace Sys2Proof.Machine

/-- The position of a sample index, on numbers (10_state R23). -/
theorem posOfIndex_toNat (a : Addr24) : (posOfIndex a).toNat = a.toNat * 2 ^ 16 := by
  rw [posOfIndex, BitVec.toNat_append, Nat.shiftLeft_eq]; simp

/-- The sample index of a position, on numbers (10_state R23). -/
theorem posIndex_toNat (p : Pos) : (posIndex p).toNat = p.toNat / 2 ^ 16 := by
  have := p.isLt
  rw [posIndex, BitVec.extractLsb'_toNat, Nat.shiftRight_eq_div_pow]; omega

@[simp] theorem posIndex_posOfIndex (a : Addr24) : posIndex (posOfIndex a) = a :=
  BitVec.eq_of_toNat_eq (by rw [posIndex_toNat, posOfIndex_toNat]; omega)

/-- Clearing the fraction of a position (45 R175). -/
theorem clearFraction_toNat (p : Pos) :
    (p &&& (0xFFFFFF0000 : Pos)).toNat = p.toNat / 2 ^ 16 * 2 ^ 16 := by
  have e : p &&& (0xFFFFFF0000 : Pos) = (p >>> 16) <<< 16 := by
    apply BitVec.eq_of_getLsbD_eq
    intro i hi
    have hm : (0xFFFFFF0000 : Pos).getLsbD i = (decide (i < 40) && !decide (i < 16)) := by
      interval_cases i <;> rfl
    rw [BitVec.getLsbD_and, BitVec.getLsbD_shiftLeft, BitVec.getLsbD_ushiftRight, hm]
    by_cases h : i < 16
    · simp [h]
    · simp [h, hi, show 16 + (i - 16) = i by omega]
  have := p.isLt
  rw [e, BitVec.toNat_shiftLeft, BitVec.toNat_ushiftRight, Nat.shiftRight_eq_div_pow,
    Nat.shiftLeft_eq]
  omega

/-- The wrapped position before the clamp, on numbers (45 R175). -/
theorem loopBack_toNat (v : Voice) :
    ((loopBack v).toNat : Int) =
      ((advancedPos v : Int) - (voiceLoop v).toNat * 2 ^ 16) % 2 ^ 40 / 2 ^ 16 * 2 ^ 16 := by
  have := (voiceLoop v).isLt
  rw [loopBack, clearFraction_toNat, BitVec.toNat_sub, posOfIndex_toNat, BitVec.toNat_ofNat]
  omega

/-- The start clamp, on numbers (45 R176). -/
theorem clampToStart_toNat (v : Voice) (p : Pos) :
    (clampToStart v p).toNat = max p.toNat ((voiceStart v).toNat * 2 ^ 16) := by
  simp only [clampToStart, BitVec.lt_def, posOfIndex_toNat]
  split
  · rw [posOfIndex_toNat]; omega
  · omega

/-- A byte in the upper half of a word (30_encoding R69). -/
theorem byteHigh_toNat (b : Byte) : (b ++ (0 : BitVec 8) : Half).toNat = b.toNat * 2 ^ 8 := by
  rw [BitVec.toNat_append, Nat.shiftLeft_eq]; simp

end Sys2Proof.Machine
end

