-- ==== Sys2Proof/Laws/Ops.lean ====
section
/-! SUPPORT. What the storage port, the fault and the host's answers can do, said once. -/

namespace Sys2Proof.Machine

/-- Inside the range a storage read answers the word (20_memory R47). -/
theorem storageRead_of_inside {s : State} {op : StorageOp} {a : BitVec 32}
    (h : a.toNat + 2 ≤ s.cfg.storageBytes) : storageRead s op a = .ok (wordAt s a.toNat) := by
  simp [storageRead, outsideStorage, Nat.not_lt.2 h]

/-- Outside the range a storage read raises the fault (60 R186). -/
theorem storageRead_of_outside {s : State} {op : StorageOp} {a : BitVec 32}
    (h : s.cfg.storageBytes < a.toNat + 2) : storageRead s op a = .error (.storageFault a op) := by
  simp [storageRead, outsideStorage, h, raiseStorageFault]

/-- Inside the range a storage write rewrites the word (20_memory R47). -/
theorem storageWrite_of_inside {s : State} {op : StorageOp} {a : BitVec 32} {v : Half}
    (h : a.toNat + 2 ≤ s.cfg.storageBytes) : storageWrite s op a v = .ok (setWord s a.toNat v) := by
  simp [storageWrite, outsideStorage, Nat.not_lt.2 h]

/-- Outside the range a storage write raises the fault (60 R186). -/
theorem storageWrite_of_outside {s : State} {op : StorageOp} {a : BitVec 32} {v : Half}
    (h : s.cfg.storageBytes < a.toNat + 2) :
    storageWrite s op a v = .error (.storageFault a op) := by
  simp [storageWrite, outsideStorage, h, raiseStorageFault]

/-- Everything a storage read can answer. -/
theorem storageRead_cases (s : State) (op : StorageOp) (a : BitVec 32) :
    (a.toNat + 2 ≤ s.cfg.storageBytes ∧ storageRead s op a = .ok (wordAt s a.toNat)) ∨
      (s.cfg.storageBytes < a.toNat + 2 ∧ storageRead s op a = .error (.storageFault a op)) := by
  rcases Nat.lt_or_ge s.cfg.storageBytes (a.toNat + 2) with h | h
  · exact .inr ⟨h, storageRead_of_outside h⟩
  · exact .inl ⟨h, storageRead_of_inside h⟩

/-- A storage read looks at nothing but the parameters and storage. -/
theorem storageRead_congr {s t : State} (hc : t.cfg = s.cfg) (hm : t.storage = s.storage)
    (op : StorageOp) (a : BitVec 32) : storageRead t op a = storageRead s op a := by
  simp [storageRead, outsideStorage, wordAt, hc, hm]

@[simp] theorem outcomeOf_ok (s : State) : outcomeOf (.ok s) = .next s := rfl

@[simp] theorem outcomeOf_error (f : Fault) : outcomeOf (.error f) = .fault f := rfl

/-! ## The access meanings that can fault -/

/-- What WR_EXTWRITE does (40 R92). -/
theorem execWrExtwrite_eq (s : State) :
    execWrExtwrite s =
      if (extByteAddr s).toNat + 2 ≤ s.cfg.storageBytes then
        .next (setWord s (extByteAddr s).toNat s.extData)
      else .fault (.storageFault (extByteAddr s) .extWrite) := by
  unfold execWrExtwrite
  split
  · next h => rw [storageWrite_of_inside h, outcomeOf_ok]
  · next h => rw [storageWrite_of_outside (by omega), outcomeOf_error]

/-- What RD_EXTDATA does (40 R94). -/
theorem execRdExtdata_eq (s : State) :
    execRdExtdata s =
      if (extByteAddr s).toNat + 2 ≤ s.cfg.storageBytes then
        .next (returnRead s (wordAt s (extByteAddr s).toNat))
      else .fault (.storageFault (extByteAddr s) .extRead) := by
  unfold execRdExtdata
  split
  · next h => rw [storageRead_of_inside h]; rfl
  · next h => rw [storageRead_of_outside (by omega)]; rfl

/-! ## Views of a voice that no live state enters -/

@[simp] theorem voiceStart_live (v : Voice) (p : Pos) (e : EnvPhase) (l st : F64) :
    voiceStart { v with pos := p, envPhase := e, envLevel := l, envStep := st } = voiceStart v := rfl

@[simp] theorem voiceEnd_live (v : Voice) (p : Pos) (e : EnvPhase) (l st : F64) :
    voiceEnd { v with pos := p, envPhase := e, envLevel := l, envStep := st } = voiceEnd v := rfl

end Sys2Proof.Machine
end

