-- ==== Sys2Proof/Laws/PerInstr.lean ====
section
/-! SUPPORT. The family RoundTrip, made per instruction: decoding the encoding of a well-formed
instruction gives it back, under every register map that gives each field a register of its own. -/

namespace Sys2Proof.Laws

/-- Decoding the encoding of `i` gives `i` back, where `i` is well formed. -/
def RoundTrip.Statement (i : Instr) : Prop :=
  ∀ m : ChRegMap, m.wf → i.wellFormed m = true → decode m (encode m i) = i

/-- The register map sends each field's number to that field's row and every other to WR_CH_NOP. -/
theorem decodeChannelWrite_cases (m : ChRegMap) (h : m.wf) (page : BitVec 6) (ch : VoiceIdx)
    (data : Half) :
    decodeChannelWrite m page ch m.startH data = .wrChStarth page ch data ∧
      decodeChannelWrite m page ch m.startL data = .wrChStartl page ch data ∧
      decodeChannelWrite m page ch m.freq data = .wrChFreq page ch data ∧
      decodeChannelWrite m page ch m.endL data = .wrChEndl page ch data ∧
      decodeChannelWrite m page ch m.endHloopH data = .wrChEndhLooph page ch data ∧
      decodeChannelWrite m page ch m.loopL data = .wrChLoopl page ch data ∧
      decodeChannelWrite m page ch m.pan data = .wrChPan page ch data ∧
      decodeChannelWrite m page ch m.effect data = .wrChEffect page ch data ∧
      decodeChannelWrite m page ch m.volume data = .wrChVolume page ch data ∧
      decodeChannelWrite m page ch m.attack data = .wrChAttack page ch data ∧
      decodeChannelWrite m page ch m.decay data = .wrChDecay page ch data ∧
      decodeChannelWrite m page ch m.release data = .wrChRelease page ch data ∧
      decodeChannelWrite m page ch m.cutoff data = .wrChCutoff page ch data := by
  simp only [ChRegMap.wf, chRegMapNumbers, List.nodup_cons, List.mem_cons, not_or] at h
  simp only [decodeChannelWrite]
  refine ⟨?_, ?_, ?_, ?_, ?_, ?_, ?_, ?_, ?_, ?_, ?_, ?_, ?_⟩ <;>
    simp_all [eq_comm]

/-- The command bits of a mute are neither those of a key-on nor those of a key-off (30_encoding R67). -/
theorem mute_command (low : BitVec 1) :
    ¬ (0 : BitVec 1) ++ low = (0b11 : BitVec 2) ∧ ¬ (0 : BitVec 1) ++ low = (0b10 : BitVec 2) ∧
      ((0 : BitVec 1) ++ low : BitVec 2).extractLsb' 0 1 = low := by
  revert low; decide

/-- An unlisted register number decodes to WR_CH_NOP (40 R110). -/
theorem decodeChannelWrite_unlisted (m : ChRegMap) {reg : RegNum} (h : reg ∉ chRegMapNumbers m)
    (page : BitVec 6) (ch : VoiceIdx) (data : Half) :
    decodeChannelWrite m page ch reg data = .wrChNop page ch reg data := by
  simp only [chRegMapNumbers, List.mem_cons, not_or] at h
  simp_all [decodeChannelWrite]

theorem RoundTrip.wrStatus (data : Half) : RoundTrip.Statement (.wrStatus data) := by
  intro m _ _
  rw [encode, decode_accessWord, decodeAccess_globalWrite m (by decide)]
  simp [decodeGlobalWrite]

theorem RoundTrip.rdStatus : RoundTrip.Statement .rdStatus := by
  intro m _ _
  rw [encode, decode_accessWord, decodeAccess_globalRead m (by decide)]
  simp [decodeGlobalRead]

theorem RoundTrip.wrKeyon (ch : VoiceIdx) (ignored : BitVec 9) : RoundTrip.Statement (.wrKeyon ch ignored) := by
  intro m _ _
  rw [encode, decode_accessWord, decodeAccess_globalWrite m (by decide)]
  simp [decodeGlobalWrite, decodeChannelControl]

theorem RoundTrip.wrKeyoff (ch : VoiceIdx) (ignored : BitVec 9) : RoundTrip.Statement (.wrKeyoff ch ignored) := by
  intro m _ _
  rw [encode, decode_accessWord, decodeAccess_globalWrite m (by decide)]
  simp [decodeGlobalWrite, decodeChannelControl]

theorem RoundTrip.wrMute (ch : VoiceIdx) (low : BitVec 1) (ignored : BitVec 9) : RoundTrip.Statement (.wrMute ch low ignored) := by
  intro m _ _
  rw [encode, decode_accessWord, decodeAccess_globalWrite m (by decide)]
  simp only [decodeGlobalWrite, decodeChannelControl,
    dataChannelCommand_channelControlData, dataVoice_channelControlData, ignored_channelControlData,
    low_channelControlData]
  have h := mute_command low
  rw [if_neg (by decide), if_pos trivial, if_neg h.1, if_neg h.2.1, h.2.2]

theorem RoundTrip.wrReqch (ch : VoiceIdx) (ignored : BitVec 11) : RoundTrip.Statement (.wrReqch ch ignored) := by
  intro m _ _
  rw [encode, decode_accessWord, decodeAccess_globalWrite m (by decide)]
  simp [decodeGlobalWrite]

theorem RoundTrip.rdPos : RoundTrip.Statement .rdPos := by
  intro m _ _
  rw [encode, decode_accessWord, decodeAccess_globalRead m (by decide)]
  simp [decodeGlobalRead]

theorem RoundTrip.wrExtaddrLo (data : Half) : RoundTrip.Statement (.wrExtaddrLo data) := by
  intro m _ _
  rw [encode, decode_accessWord, decodeAccess_globalWrite m (by decide)]
  simp [decodeGlobalWrite]

theorem RoundTrip.wrExtaddrHi (data : Half) : RoundTrip.Statement (.wrExtaddrHi data) := by
  intro m _ _
  rw [encode, decode_accessWord, decodeAccess_globalWrite m (by decide)]
  simp [decodeGlobalWrite]

theorem RoundTrip.wrExtdata (data : Half) : RoundTrip.Statement (.wrExtdata data) := by
  intro m _ _
  rw [encode, decode_accessWord, decodeAccess_globalWrite m (by decide)]
  simp [decodeGlobalWrite]

theorem RoundTrip.wrExtwrite (ignored : BitVec 14) : RoundTrip.Statement (.wrExtwrite ignored) := by
  intro m _ _
  rw [encode, decode_accessWord, decodeAccess_globalWrite m (by decide)]
  simp [decodeGlobalWrite, decodeExtCommand]

theorem RoundTrip.wrExtcmdNop (cmd : BitVec 2) (ignored : BitVec 14) : RoundTrip.Statement (.wrExtcmdNop cmd ignored) := by
  intro m _ h
  have h : cmd ≠ 3 := by simpa [Instr.wellFormed] using h
  rw [encode, decode_accessWord, decodeAccess_globalWrite m (by decide)]
  simp [decodeGlobalWrite, decodeExtCommand]
  exact h

theorem RoundTrip.rdExtdata : RoundTrip.Statement .rdExtdata := by
  intro m _ _
  rw [encode, decode_accessWord, decodeAccess_globalRead m (by decide)]
  simp [decodeGlobalRead]

theorem RoundTrip.wrGlobalNop (offset : Half) (data : Half) : RoundTrip.Statement (.wrGlobalNop offset data) := by
  intro m _ h
  simp only [Instr.wellFormed, decide_eq_true_eq, writtenGlobals, List.mem_cons, not_or] at h
  rw [encode, decode_accessWord, decodeAccess_globalWrite m h.1]
  simp_all [decodeGlobalWrite]

theorem RoundTrip.rdGlobalZero (offset : Half) : RoundTrip.Statement (.rdGlobalZero offset) := by
  intro m _ h
  simp only [Instr.wellFormed, decide_eq_true_eq, readGlobals, List.mem_cons, not_or] at h
  rw [encode, decode_accessWord, decodeAccess_globalRead m h.1]
  simp_all [decodeGlobalRead]

theorem RoundTrip.wrChStarth (page : BitVec 6) (ch : VoiceIdx) (data : Half) : RoundTrip.Statement (.wrChStarth page ch data) := by
  intro m hm h
  have h : page ≠ 0 := by simpa [Instr.wellFormed] using h
  rw [encode, encodeChannelWrite, decode_accessWord, decodeAccess_channelWrite m h]
  exact (decodeChannelWrite_cases m hm page ch data).1

theorem RoundTrip.wrChStartl (page : BitVec 6) (ch : VoiceIdx) (data : Half) : RoundTrip.Statement (.wrChStartl page ch data) := by
  intro m hm h
  have h : page ≠ 0 := by simpa [Instr.wellFormed] using h
  rw [encode, encodeChannelWrite, decode_accessWord, decodeAccess_channelWrite m h]
  exact (decodeChannelWrite_cases m hm page ch data).2.1

theorem RoundTrip.wrChFreq (page : BitVec 6) (ch : VoiceIdx) (data : Half) : RoundTrip.Statement (.wrChFreq page ch data) := by
  intro m hm h
  have h : page ≠ 0 := by simpa [Instr.wellFormed] using h
  rw [encode, encodeChannelWrite, decode_accessWord, decodeAccess_channelWrite m h]
  exact (decodeChannelWrite_cases m hm page ch data).2.2.1

theorem RoundTrip.wrChEndl (page : BitVec 6) (ch : VoiceIdx) (data : Half) : RoundTrip.Statement (.wrChEndl page ch data) := by
  intro m hm h
  have h : page ≠ 0 := by simpa [Instr.wellFormed] using h
  rw [encode, encodeChannelWrite, decode_accessWord, decodeAccess_channelWrite m h]
  exact (decodeChannelWrite_cases m hm page ch data).2.2.2.1

theorem RoundTrip.wrChEndhLooph (page : BitVec 6) (ch : VoiceIdx) (data : Half) : RoundTrip.Statement (.wrChEndhLooph page ch data) := by
  intro m hm h
  have h : page ≠ 0 := by simpa [Instr.wellFormed] using h
  rw [encode, encodeChannelWrite, decode_accessWord, decodeAccess_channelWrite m h]
  exact (decodeChannelWrite_cases m hm page ch data).2.2.2.2.1

theorem RoundTrip.wrChLoopl (page : BitVec 6) (ch : VoiceIdx) (data : Half) : RoundTrip.Statement (.wrChLoopl page ch data) := by
  intro m hm h
  have h : page ≠ 0 := by simpa [Instr.wellFormed] using h
  rw [encode, encodeChannelWrite, decode_accessWord, decodeAccess_channelWrite m h]
  exact (decodeChannelWrite_cases m hm page ch data).2.2.2.2.2.1

theorem RoundTrip.wrChPan (page : BitVec 6) (ch : VoiceIdx) (data : Half) : RoundTrip.Statement (.wrChPan page ch data) := by
  intro m hm h
  have h : page ≠ 0 := by simpa [Instr.wellFormed] using h
  rw [encode, encodeChannelWrite, decode_accessWord, decodeAccess_channelWrite m h]
  exact (decodeChannelWrite_cases m hm page ch data).2.2.2.2.2.2.1

theorem RoundTrip.wrChEffect (page : BitVec 6) (ch : VoiceIdx) (data : Half) : RoundTrip.Statement (.wrChEffect page ch data) := by
  intro m hm h
  have h : page ≠ 0 := by simpa [Instr.wellFormed] using h
  rw [encode, encodeChannelWrite, decode_accessWord, decodeAccess_channelWrite m h]
  exact (decodeChannelWrite_cases m hm page ch data).2.2.2.2.2.2.2.1

theorem RoundTrip.wrChVolume (page : BitVec 6) (ch : VoiceIdx) (data : Half) : RoundTrip.Statement (.wrChVolume page ch data) := by
  intro m hm h
  have h : page ≠ 0 := by simpa [Instr.wellFormed] using h
  rw [encode, encodeChannelWrite, decode_accessWord, decodeAccess_channelWrite m h]
  exact (decodeChannelWrite_cases m hm page ch data).2.2.2.2.2.2.2.2.1

theorem RoundTrip.wrChAttack (page : BitVec 6) (ch : VoiceIdx) (data : Half) : RoundTrip.Statement (.wrChAttack page ch data) := by
  intro m hm h
  have h : page ≠ 0 := by simpa [Instr.wellFormed] using h
  rw [encode, encodeChannelWrite, decode_accessWord, decodeAccess_channelWrite m h]
  exact (decodeChannelWrite_cases m hm page ch data).2.2.2.2.2.2.2.2.2.1

theorem RoundTrip.wrChDecay (page : BitVec 6) (ch : VoiceIdx) (data : Half) : RoundTrip.Statement (.wrChDecay page ch data) := by
  intro m hm h
  have h : page ≠ 0 := by simpa [Instr.wellFormed] using h
  rw [encode, encodeChannelWrite, decode_accessWord, decodeAccess_channelWrite m h]
  exact (decodeChannelWrite_cases m hm page ch data).2.2.2.2.2.2.2.2.2.2.1

theorem RoundTrip.wrChRelease (page : BitVec 6) (ch : VoiceIdx) (data : Half) : RoundTrip.Statement (.wrChRelease page ch data) := by
  intro m hm h
  have h : page ≠ 0 := by simpa [Instr.wellFormed] using h
  rw [encode, encodeChannelWrite, decode_accessWord, decodeAccess_channelWrite m h]
  exact (decodeChannelWrite_cases m hm page ch data).2.2.2.2.2.2.2.2.2.2.2.1

theorem RoundTrip.wrChCutoff (page : BitVec 6) (ch : VoiceIdx) (data : Half) : RoundTrip.Statement (.wrChCutoff page ch data) := by
  intro m hm h
  have h : page ≠ 0 := by simpa [Instr.wellFormed] using h
  rw [encode, encodeChannelWrite, decode_accessWord, decodeAccess_channelWrite m h]
  exact (decodeChannelWrite_cases m hm page ch data).2.2.2.2.2.2.2.2.2.2.2.2

theorem RoundTrip.wrChNop (page : BitVec 6) (ch : VoiceIdx) (reg : RegNum) (data : Half) : RoundTrip.Statement (.wrChNop page ch reg data) := by
  intro m _ h
  simp only [Instr.wellFormed, decide_eq_true_eq] at h
  rw [encode, encodeChannelWrite, decode_accessWord, decodeAccess_channelWrite m h.1]
  exact decodeChannelWrite_unlisted m h.2 page ch data

theorem RoundTrip.rdCh (page : BitVec 6) (ch : VoiceIdx) (reg : RegNum) : RoundTrip.Statement (.rdCh page ch reg) := by
  intro m _ h
  have h : page ≠ 0 := by simpa [Instr.wellFormed] using h
  rw [encode, decode_accessWord, decodeAccess_channelRead m h]

end Sys2Proof.Laws
end

