-- ==== Sys2Proof/Laws/Tables.lean ====
section
/-! SUPPORT. The rate tables: what an entry is, its sign and its rounding (43 R144, R145, R153). -/

namespace Sys2Proof.Machine

@[simp] theorem f64Unit_units : f64Unit.units = (f64One : Int) := rfl

@[simp] theorem f64Zero_units : f64Zero.units = 0 := rfl

/-- An entry of the attack table (43 R144). -/
theorem buildAttackTable_get (c : RateConsts) (fs : Nat) (i : Fin 0x9F) :
    (buildAttackTable c fs)[i] = rateEntry c f64Unit (attackBase c fs) i.val := by
  unfold buildAttackTable; simp

/-- An entry of a decay or release table (43 R145). -/
theorem buildFallTable_get (c : RateConsts) (fs : Nat) (i : Fin 0x9F) :
    (buildFallTable c fs)[i] = rateEntry c (fallBase c fs) (fallBase c fs) i.val := by
  unfold buildFallTable; simp

theorem attackBase_nonneg {c : RateConsts} (hc : RateConstsOk c) (fs : Nat) :
    0 ≤ (attackBase c fs).units :=
  f64Div_nonneg (by simp) (f64Mul_nonneg hc.speed_pos.le (f64OfInt_nonneg (by omega)))

theorem fallBase_nonpos {c : RateConsts} (hc : RateConstsOk c) (fs : Nat) :
    (fallBase c fs).units ≤ 0 :=
  f64Div_nonpos (f64OfInt_nonpos (by omega))
    (f64Mul_nonneg hc.speed_pos.le (f64OfInt_nonneg (by omega)))

/-- Every entry is binary64. -/
theorem rateEntry_rounded (c : RateConsts) {low : F64} (hl : f64Rounded low) (rate : F64) (i : Nat) :
    f64Rounded (rateEntry c low rate i) := by
  unfold rateEntry
  split
  · exact hl
  · split
    · exact f64Div_rounded _ _
    · exact f64Rounded_zero

/-- The factor of the ramp is not negative. -/
theorem rateRamp_factors {c : RateConsts} (hc : RateConstsOk c) {i : Nat} (hi : i < c.max) :
    0 ≤ (f64OfInt ((c.max : Int) - i)).units ∧ 0 ≤ (f64OfInt ((c.max : Int) - c.min)).units := by
  have := hc.min_le
  exact ⟨f64OfInt_nonneg (by omega), f64OfInt_nonneg (by omega)⟩

/-- An entry has the sign of the rate, or is 0.0 (43 R153). -/
theorem rateEntry_nonneg {c : RateConsts} (hc : RateConstsOk c) {low rate : F64}
    (hl : 0 ≤ low.units) (hr : 0 ≤ rate.units) (i : Nat) : 0 ≤ (rateEntry c low rate i).units := by
  unfold rateEntry
  split
  · exact hl
  · split
    · next h =>
      obtain ⟨h1, h2⟩ := rateRamp_factors hc h
      exact f64Div_nonneg (f64Mul_nonneg hr h1) h2
    · exact le_refl _

/-- An entry has the sign of the rate, or is 0.0 (43 R153). -/
theorem rateEntry_nonpos {c : RateConsts} (hc : RateConstsOk c) {low rate : F64}
    (hl : low.units ≤ 0) (hr : rate.units ≤ 0) (i : Nat) : (rateEntry c low rate i).units ≤ 0 := by
  unfold rateEntry
  split
  · exact hl
  · split
    · next h =>
      obtain ⟨h1, h2⟩ := rateRamp_factors hc h
      exact f64Div_nonpos (f64Mul_nonpos hr h1) h2
    · exact le_refl _

end Sys2Proof.Machine
end

