-- ==== Sys2Proof/Laws/Tick.lean ====
section
/-! SUPPORT. What the stages of a tick, the tick itself and a step can do, said once. -/

namespace Sys2Proof.Machine

/-! ## The envelope step -/

/-- The level an envelope step tests at its boundary (43 R149). -/
theorem envAdvance_cases (s : State) (v : Voice) :
    (v.envPhase = .none ∧ envAdvance s v = { v with envLevel := f64Add v.envLevel (envRate v) }) ∨
    (v.envPhase = .attack ∧ f64Unit.units ≤ (f64Add v.envLevel (envRate v)).units ∧
      envAdvance s v =
        { v with envLevel := f64Unit, envPhase := .decay, envStep := decayStep s v }) ∨
    (v.envPhase = .attack ∧ (f64Add v.envLevel (envRate v)).units < f64Unit.units ∧
      envAdvance s v = { v with envLevel := f64Add v.envLevel (envRate v) }) ∨
    ((v.envPhase = .decay ∨ v.envPhase = .release) ∧ (f64Add v.envLevel (envRate v)).units ≤ 0 ∧
      envAdvance s v = { v with envLevel := f64Zero, envPhase := .none, envStep := f64Zero }) ∨
    ((v.envPhase = .decay ∨ v.envPhase = .release) ∧ 0 < (f64Add v.envLevel (envRate v)).units ∧
      envAdvance s v = { v with envLevel := f64Add v.envLevel (envRate v) }) := by
  cases hp : v.envPhase <;>
    simp only [envAdvance, hp, attackBoundary, fallBoundary, f64Le, decide_eq_true_eq, f64Zero,
      reduceCtorEq, false_and, true_and, false_or, or_false, or_true]
  · split
    · next h => exact .inl ⟨h, rfl⟩
    · next h => exact .inr ⟨by omega, rfl⟩
  all_goals
    split
    · next h => exact .inl ⟨of_decide_eq_true h, rfl⟩
    · next h => exact .inr ⟨Int.not_le.1 fun c => h (decide_eq_true c), rfl⟩

/-- An envelope step writes the level, the phase and the step of a voice and nothing else. -/
theorem envAdvance_frame (s : State) (v : Voice) :
    envAdvance s v = { v with envLevel := (envAdvance s v).envLevel,
                              envPhase := (envAdvance s v).envPhase,
                              envStep := (envAdvance s v).envStep } := by
  rcases envAdvance_cases s v with ⟨_, h⟩ | ⟨_, _, h⟩ | ⟨_, _, h⟩ | ⟨_, _, h⟩ | ⟨_, _, h⟩ <;> rw [h]

/-- The envelope step looks at the tables and the parameters alone. -/
theorem envAdvance_congr {s t : State} (hc : t.cfg = s.cfg) (hd : t.dr = s.dr) (v : Voice) :
    envAdvance t v = envAdvance s v := by
  simp only [envAdvance, attackBoundary, decayStep, hc, hd]

/-! ## The mixer -/

/-- The mixer looks at the attenuation tables and the parameters alone. -/
theorem mix_congr {s t : State} (hc : t.cfg = s.cfg) (hv : t.volumeTable = s.volumeTable)
    (hp : t.panTable = s.panTable) (x : Int) (code : Byte) (level : F64) (cl cr : Byte) :
    mix t x code level cl cr = mix s x code level cl cr := by
  simp only [mix, panStage, panFactor, volumeStage, hc, hv, hp]

/-! ## One voice in a tick -/

theorem isDegenerate_iff (v : Voice) : isDegenerate v = true ↔ voiceStart v = voiceEnd v :=
  decide_eq_true_iff

theorem isSilent_iff (v : Voice) : isSilent v = true ↔ v.envPhase = .none := decide_eq_true_iff

/-- A skipped voice contributes nothing and is not changed (41 R123, R124). -/
theorem voiceTick_of_skipped {s : State} {n : VoiceIdx} {v : Voice} (h : isSkipped v = true) :
    voiceTick s n v = .ok (v, 0, 0) := by
  unfold voiceTick
  simp only [isSkipped, Bool.or_eq_true] at h
  rcases h with h | h <;> simp [h]

/-- A voice that is not skipped fetches, then sounds (41 R122). -/
theorem voiceTick_of_sounding {s : State} {n : VoiceIdx} {v : Voice} (h : isSkipped v = false) :
    voiceTick s n v =
      if (fetchAddr v).toNat + 2 ≤ s.cfg.storageBytes then
        .ok (sounding s v (wordAt s (fetchAddr v).toNat))
      else .error (.storageFault (fetchAddr v) (.fetch n)) := by
  simp only [isSkipped, Bool.or_eq_false_iff] at h
  simp only [voiceTick, h.1, h.2, Bool.false_eq_true, if_false, fetchWord]
  rcases storageRead_cases s (.fetch n) (fetchAddr v) with ⟨hi, e⟩ | ⟨hi, e⟩
  · simp [e, hi]
  · simp [e, Nat.not_le.2 hi]

theorem fetchFaults_iff (s : State) (v : Voice) :
    fetchFaults s v = true ↔
      isSkipped v = false ∧ s.cfg.storageBytes < (fetchAddr v).toNat + 2 := by
  simp [fetchFaults, outsideStorage]

/-- Everything a voice can do in a tick. -/
theorem voiceTick_cases (s : State) (n : VoiceIdx) (v : Voice) :
    (isSkipped v = true ∧ voiceTick s n v = .ok (v, 0, 0)) ∨
    (isSkipped v = false ∧ fetchFaults s v = false ∧
      (fetchAddr v).toNat + 2 ≤ s.cfg.storageBytes ∧
      voiceTick s n v = .ok (sounding s v (wordAt s (fetchAddr v).toNat))) ∨
    (isSkipped v = false ∧ fetchFaults s v = true ∧
      s.cfg.storageBytes < (fetchAddr v).toNat + 2 ∧
      voiceTick s n v = .error (.storageFault (fetchAddr v) (.fetch n))) := by
  cases h : isSkipped v
  · rw [voiceTick_of_sounding h]
    by_cases hi : (fetchAddr v).toNat + 2 ≤ s.cfg.storageBytes
    · have hf : fetchFaults s v = false := by
        rw [← Bool.not_eq_true, fetchFaults_iff]; omega
      simp [hi, hf]
    · have hf : fetchFaults s v = true := (fetchFaults_iff s v).2 ⟨h, by omega⟩
      simp [hi, hf]; omega
  · exact .inl ⟨rfl, voiceTick_of_skipped h⟩

/-- What a voice does in a tick depends on storage, the tables and the parameters alone (41 R128). -/
theorem voiceTick_congr {s t : State} (hc : t.cfg = s.cfg) (ht : SameTables s t)
    (hm : SameStorage s t) (n : VoiceIdx) (v : Voice) : voiceTick t n v = voiceTick s n v := by
  obtain ⟨hv, hp, ha, hd, hr⟩ := ht
  have hw : ∀ a, wordAt t a = wordAt s a := fun a => by simp only [wordAt, hc, hm a, hm (a + 1)]
  have hs : ∀ w, sounding t v w = sounding s v w := fun w => by
    simp only [sounding, envAdvance_congr hc hd, mix_congr hc hv hp]
  cases h : isSkipped v
  · simp only [voiceTick_of_sounding h, hc, hw, hs]
  · simp only [voiceTick_of_skipped h]

/-- A tick of a voice writes its level, phase, step and position and nothing else. -/
theorem sounding_frame (s : State) (v : Voice) (w : Half) :
    (sounding s v w).1 = { v with envLevel := (envAdvance s v).envLevel,
                                  envPhase := (envAdvance s v).envPhase,
                                  envStep := (envAdvance s v).envStep,
                                  pos := phaseAdvance v } := by
  have h := envAdvance_frame s v
  have hp : phaseAdvance (envAdvance s v) = phaseAdvance v := by rw [h]; rfl
  simp only [sounding, hp]
  rw [h]

/-! ## All voices in a tick -/

/-- The loop of a tick writes voice records and nothing else. -/
theorem tickLoop_frame (order : List VoiceIdx) : ∀ {s t : State} {l r l' r' : Int},
    tickLoop s l r order = .ok (t, l', r') → t = { s with voices := t.voices } := by
  induction order with
  | nil => intro s t l r l' r' h; simp only [tickLoop, Except.ok.injEq, Prod.mk.injEq] at h
           obtain ⟨rfl, -, -⟩ := h; rfl
  | cons n rest ih =>
    intro s t l r l' r' h
    simp only [tickLoop] at h
    split at h
    · cases h
    · have := ih h
      rw [this]; rfl

/-- Writing a voice record changes nothing another voice's tick looks at. -/
theorem voiceTick_setVoice (s : State) (m : VoiceIdx) (w : Voice) (n : VoiceIdx) (v : Voice) :
    voiceTick (setVoice s m w) n v = voiceTick s n v :=
  voiceTick_congr rfl ⟨rfl, rfl, rfl, rfl, rfl⟩ (fun _ => rfl) n v

theorem contribution_setVoice_of_ne {s : State} {m n : VoiceIdx} (h : n ≠ m) (w : Voice) :
    contribution (setVoice s m w) n = contribution s n := by
  simp only [contribution, voiceTick_setVoice, voiceAt_setVoice_of_ne h]

/-- A voice that ticks adds its contribution. -/
theorem contribution_of_ok {s : State} {n : VoiceIdx} {v : Voice} {l r : Int}
    (h : voiceTick s n (voiceAt s n) = .ok (v, l, r)) : contribution s n = (l, r) := by
  simp only [contribution, h]

/-- Everything the loop of a tick does where it completes: it runs each voice of the list on its own
record, leaves every other voice, and adds up the contributions (41 R120, 20_memory R56). -/
theorem tickLoop_ok_iff (order : List VoiceIdx) : ∀ (s t : State) (l r l' r' : Int), order.Nodup →
    (tickLoop s l r order = .ok (t, l', r') ↔
      t = { s with voices := t.voices } ∧
      (∀ n ∈ order, voiceTick s n (voiceAt s n) =
        .ok (voiceAt t n, (contribution s n).1, (contribution s n).2)) ∧
      (∀ n, n ∉ order → voiceAt t n = voiceAt s n) ∧
      l' = l + (order.map fun n => (contribution s n).1).sum ∧
      r' = r + (order.map fun n => (contribution s n).2).sum) := by
  induction order with
  | nil =>
    intro s t l r l' r' _
    simp only [tickLoop, Except.ok.injEq, Prod.mk.injEq, List.not_mem_nil, false_implies,
      implies_true, not_false_eq_true, true_implies, List.map_nil, List.sum_nil, add_zero, true_and]
    constructor
    · rintro ⟨rfl, rfl, rfl⟩; exact ⟨rfl, fun _ => rfl, rfl, rfl⟩
    · rintro ⟨h, hv, rfl, rfl⟩
      exact ⟨by rw [h, voices_ext hv], rfl, rfl⟩
  | cons n rest ih =>
    intro s t l r l' r' hnd
    obtain ⟨hn, hnd⟩ := List.nodup_cons.1 hnd
    simp only [tickLoop]
    cases hv : voiceTick s n (voiceAt s n) with
    | error f =>
      simp only [reduceCtorEq, false_iff]
      rintro ⟨-, h, -⟩
      have := h n (List.mem_cons_self ..)
      rw [hv] at this; cases this
    | ok p =>
      obtain ⟨v, dl, dr⟩ := p
      have hcn := contribution_of_ok hv
      have hne : ∀ m ∈ rest, m ≠ n := fun m hm e => hn (e ▸ hm)
      have hmap1 : (rest.map fun m => (contribution (setVoice s n v) m).1) =
          rest.map fun m => (contribution s m).1 :=
        List.map_congr_left fun m hm => by rw [contribution_setVoice_of_ne (hne m hm)]
      have hmap2 : (rest.map fun m => (contribution (setVoice s n v) m).2) =
          rest.map fun m => (contribution s m).2 :=
        List.map_congr_left fun m hm => by rw [contribution_setVoice_of_ne (hne m hm)]
      simp only [ih _ _ _ _ _ _ hnd, hmap1, hmap2, List.map_cons, List.sum_cons, hcn]
      constructor
      · rintro ⟨h1, h2, h3, rfl, rfl⟩
        refine ⟨by rw [h1]; rfl, ?_, ?_, by ring, by ring⟩
        · intro m hm
          rcases List.mem_cons.1 hm with rfl | hm
          · rw [hv, h3 m hn, hcn, voiceAt_setVoice_self]
          · have := h2 m hm
            rwa [voiceTick_setVoice, voiceAt_setVoice_of_ne (hne m hm),
              contribution_setVoice_of_ne (hne m hm)] at this
        · intro m hm
          rw [List.mem_cons, not_or] at hm
          rw [h3 m hm.2, voiceAt_setVoice_of_ne hm.1]
      · rintro ⟨h1, h2, h3, rfl, rfl⟩
        refine ⟨by rw [h1]; rfl, ?_, ?_, by ring, by ring⟩
        · intro m hm
          rw [voiceTick_setVoice, voiceAt_setVoice_of_ne (hne m hm),
            contribution_setVoice_of_ne (hne m hm)]
          exact h2 m (List.mem_cons_of_mem _ hm)
        · intro m hm
          by_cases e : m = n
          · subst e
            have := h2 m (List.mem_cons_self ..)
            rw [hv] at this
            simp only [Except.ok.injEq, Prod.mk.injEq] at this
            rw [voiceAt_setVoice_self, this.1]
          · rw [voiceAt_setVoice_of_ne e, h3 m (by simp [e, hm])]

/-- Everything the loop of a tick does where it faults: it is the fault of the first voice of the list
to meet one (60 R188, R189). -/
theorem tickLoop_error_iff (order : List VoiceIdx) : ∀ (s : State) (l r : Int) (f : Fault),
    order.Nodup →
    (tickLoop s l r order = .error f ↔
      ∃ before n after, order = before ++ n :: after ∧
        (∀ m ∈ before, fetchFaults s (voiceAt s m) = false) ∧
        fetchFaults s (voiceAt s n) = true ∧
        f = .storageFault (fetchAddr (voiceAt s n)) (.fetch n)) := by
  induction order with
  | nil => intro s l r f _; simp [tickLoop]
  | cons n rest ih =>
    intro s l r f hnd
    obtain ⟨hn, hnd⟩ := List.nodup_cons.1 hnd
    simp only [tickLoop]
    have hff : ∀ (v w : Voice), fetchFaults (setVoice s n v) w = fetchFaults s w := fun _ _ => rfl
    have hgood : fetchFaults s (voiceAt s n) = false → ∀ (v : Voice) (l r : Int),
        (tickLoop (setVoice s n v) l r rest = .error f ↔
          ∃ before k after, n :: rest = before ++ k :: after ∧
            (∀ m ∈ before, fetchFaults s (voiceAt s m) = false) ∧
            fetchFaults s (voiceAt s k) = true ∧
            f = .storageFault (fetchAddr (voiceAt s k)) (.fetch k)) := by
      intro hok v l r
      rw [ih _ _ _ _ hnd]
      constructor
      · rintro ⟨b, k, a, rfl, hb, hk, rfl⟩
        have hk' : k ≠ n := fun e => hn (by simp [e])
        refine ⟨n :: b, k, a, rfl, ?_, ?_, ?_⟩
        · intro m hm
          rcases List.mem_cons.1 hm with rfl | hm
          · exact hok
          · have hm' : m ≠ n := fun e => hn (by simp [← e, hm])
            simpa [hff, voiceAt_setVoice_of_ne hm'] using hb m hm
        · simpa [hff, voiceAt_setVoice_of_ne hk'] using hk
        · rw [voiceAt_setVoice_of_ne hk']
      · rintro ⟨b, k, a, he, hb, hk, rfl⟩
        cases b with
        | nil =>
          simp only [List.nil_append, List.cons.injEq] at he
          obtain ⟨rfl, rfl⟩ := he
          rw [hok] at hk; cases hk
        | cons x b =>
          simp only [List.cons_append, List.cons.injEq] at he
          obtain ⟨rfl, rfl⟩ := he
          have hk' : k ≠ n := fun e => hn (by simp [e])
          refine ⟨b, k, a, rfl, ?_, ?_, ?_⟩
          · intro m hm
            have hm' : m ≠ n := fun e => hn (by simp [← e, hm])
            rw [hff, voiceAt_setVoice_of_ne hm']
            exact hb m (List.mem_cons_of_mem _ hm)
          · rwa [hff, voiceAt_setVoice_of_ne hk']
          · rw [voiceAt_setVoice_of_ne hk']
    rcases voiceTick_cases s n (voiceAt s n) with ⟨hs, e⟩ | ⟨hs, hf, hi, e⟩ | ⟨hs, hf, hi, e⟩
    · rw [e]
      exact hgood (by simp [fetchFaults, hs]) _ _ _
    · rw [e]
      exact hgood hf _ _ _
    · rw [e]
      simp only [Except.error.injEq]
      constructor
      · rintro rfl; exact ⟨[], n, rest, rfl, by simp, hf, rfl⟩
      · rintro ⟨b, k, a, he, hb, hk, rfl⟩
        cases b with
        | nil =>
          simp only [List.nil_append, List.cons.injEq] at he
          obtain ⟨rfl, rfl⟩ := he; rfl
        | cons x b =>
          simp only [List.cons_append, List.cons.injEq] at he
          obtain ⟨rfl, rfl⟩ := he
          have := hb n (List.mem_cons_self ..)
          rw [hf] at this; cases this

/-! ## The tick and the step -/

/-- A tick writes voice records and the output and nothing else. -/
theorem portTick_frame {s t : State} (h : portTick s = .next t) :
    t = { s with voices := t.voices, outputs := t.outputs } := by
  unfold portTick at h
  split at h
  · cases h
  · next heq => cases h; rw [tickLoop_frame _ heq]; rfl

/-- Everything a step can be: idle, or the service of the next request. -/
theorem step_cases (s : State) :
    (s.pending = [] ∧ step s = .next s) ∨
      ∃ q rest, s.pending = q :: rest ∧ step s = serve q { s with pending := rest } := by
  cases h : s.pending with
  | nil => exact .inl ⟨rfl, by simp [step, h]⟩
  | cons q rest => exact .inr ⟨q, rest, rfl, by simp [step, h]⟩

end Sys2Proof.Machine
end

