-- ==== Sys2Proof/Tests/Slice0.lean ====
section
/-! SUPPORT. The model's own tests, their expected results taken from the examples of the rules and from the
vectors of file 95, and for every statement with hypotheses a state and operands that meet them. -/

namespace Sys2Proof.Machine.Tests

set_option Elab.async false

/-! ## Well-formedness: an ill-formed term for each check -/

theorem test_wf_extcmd_commit : Instr.wellFormed defaultChRegMap (.wrExtcmdNop 3 0) = false := by decide

theorem test_wf_global_offset :
    Instr.wellFormed defaultChRegMap (.wrGlobalNop 0x400 0) = false ∧
    Instr.wellFormed defaultChRegMap (.rdGlobalZero 0x400) = false ∧
    Instr.wellFormed defaultChRegMap (.wrGlobalNop 0x3FF 0) = true := by decide

theorem test_wf_listed_globals :
    (writtenGlobals.all fun o => !Instr.wellFormed defaultChRegMap (.wrGlobalNop o 0)) = true ∧
    (readGlobals.all fun o => !Instr.wellFormed defaultChRegMap (.rdGlobalZero o)) = true := by decide

theorem test_wf_page_zero :
    Instr.wellFormed defaultChRegMap (.wrChStarth 0 1 2) = false ∧
    Instr.wellFormed defaultChRegMap (.wrChStartl 0 1 2) = false ∧
    Instr.wellFormed defaultChRegMap (.wrChFreq 0 1 2) = false ∧
    Instr.wellFormed defaultChRegMap (.wrChEndl 0 1 2) = false ∧
    Instr.wellFormed defaultChRegMap (.wrChEndhLooph 0 1 2) = false ∧
    Instr.wellFormed defaultChRegMap (.wrChLoopl 0 1 2) = false ∧
    Instr.wellFormed defaultChRegMap (.wrChPan 0 1 2) = false ∧
    Instr.wellFormed defaultChRegMap (.wrChEffect 0 1 2) = false ∧
    Instr.wellFormed defaultChRegMap (.wrChVolume 0 1 2) = false ∧
    Instr.wellFormed defaultChRegMap (.wrChAttack 0 1 2) = false ∧
    Instr.wellFormed defaultChRegMap (.wrChDecay 0 1 2) = false ∧
    Instr.wellFormed defaultChRegMap (.wrChRelease 0 1 2) = false ∧
    Instr.wellFormed defaultChRegMap (.wrChCutoff 0 1 2) = false ∧
    Instr.wellFormed defaultChRegMap (.wrChNop 0 1 0x1F 2) = false ∧
    Instr.wellFormed defaultChRegMap (.rdCh 0 1 2) = false := by decide

theorem test_wf_listed_register :
    ((chRegMapNumbers defaultChRegMap).all fun r =>
      !Instr.wellFormed defaultChRegMap (.wrChNop 1 0 r 0)) = true := by decide

theorem test_wf_register_map_with_a_clash :
    ¬ ChRegMap.wf { defaultChRegMap with cutoff := 0x00 } := by decide

/-! ## Decoding of words written out from 30_encoding R60 to R74: W, offset (for a per-channel access as its
bits 15:10, voice and register), data (for a command as its fields) -/

/-- A global access word. -/
def globalWord (w : BitVec 1) (offset : Half) (data : Half) : AccessWord := w ++ offset ++ data

/-- A per-channel access word. -/
def channelWord (w : BitVec 1) (page : BitVec 6) (ch reg : BitVec 5) (data : Half) : AccessWord :=
  w ++ page ++ ch ++ reg ++ data

theorem test_decode_status :
    decode defaultChRegMap (globalWord 1 0x0000 0b1011111011101111) = .wrStatus 0xBEEF ∧
    decode defaultChRegMap (globalWord 0 0x0000 0) = .rdStatus := by decide

theorem test_decode_channel_control :
    decode defaultChRegMap (globalWord 1 0x0001 0b0000000001100011) = .wrKeyon 3 0 ∧
    decode defaultChRegMap (globalWord 1 0x0001 0b1111111101000011) = .wrKeyoff 3 0x1FE ∧
    decode defaultChRegMap (globalWord 1 0x0001 0b0000000000000011) = .wrMute 3 0 0 ∧
    decode defaultChRegMap (globalWord 1 0x0001 0b0000000000111111) = .wrMute 31 1 0 := by decide

theorem test_decode_poll :
    decode defaultChRegMap (globalWord 1 0x0008 0b0000000000100101) = .wrReqch 5 1 ∧
    decode defaultChRegMap (globalWord 0 0x0009 0) = .rdPos := by decide

theorem test_decode_external_memory :
    decode defaultChRegMap (globalWord 1 0x0011 0x1234) = .wrExtaddrLo 0x1234 ∧
    decode defaultChRegMap (globalWord 1 0x0012 0x0002) = .wrExtaddrHi 0x0002 ∧
    decode defaultChRegMap (globalWord 1 0x0013 0x8123) = .wrExtdata 0x8123 ∧
    decode defaultChRegMap (globalWord 1 0x0014 0b0000000000000011) = .wrExtwrite 0 ∧
    decode defaultChRegMap (globalWord 1 0x0014 0b1111111111111101) = .wrExtcmdNop 1 0x3FFF ∧
    decode defaultChRegMap (globalWord 0 0x0013 0) = .rdExtdata := by decide

theorem test_decode_other_globals :
    decode defaultChRegMap (globalWord 1 0x0009 0x1234) = .wrGlobalNop 0x0009 0x1234 ∧
    decode defaultChRegMap (globalWord 1 0x03FF 0xFFFF) = .wrGlobalNop 0x03FF 0xFFFF ∧
    decode defaultChRegMap (globalWord 0 0x0011 0) = .rdGlobalZero 0x0011 ∧
    decode defaultChRegMap (globalWord 0 0x03FF 0) = .rdGlobalZero 0x03FF := by decide

theorem test_decode_channel_addresses :
    decode defaultChRegMap (channelWord 1 0b000001 0b00010 0b00000 0x1200) = .wrChStarth 1 2 0x1200 ∧
    decode defaultChRegMap (channelWord 1 0b000011 0b00010 0b00001 0x3456) = .wrChStartl 3 2 0x3456 ∧
    decode defaultChRegMap (channelWord 1 0b000001 0b00000 0b00010 0x5000) = .wrChFreq 1 0 0x5000 ∧
    decode defaultChRegMap (channelWord 1 0b000001 0b00000 0b00011 0x2000) = .wrChEndl 1 0 0x2000 ∧
    decode defaultChRegMap (channelWord 1 0b000001 0b00000 0b00100 0x0100) =
      .wrChEndhLooph 1 0 0x0100 ∧
    decode defaultChRegMap (channelWord 1 0b000001 0b11111 0b00101 0x0500) = .wrChLoopl 1 31 0x0500 := by
  decide

theorem test_decode_channel_sound :
    decode defaultChRegMap (channelWord 1 0b000001 0b00000 0b00110 0x4800) = .wrChPan 1 0 0x4800 ∧
    decode defaultChRegMap (channelWord 1 0b000001 0b00000 0b00111 0x4020) = .wrChEffect 1 0 0x4020 ∧
    decode defaultChRegMap (channelWord 1 0b000001 0b00000 0b01000 0xC000) = .wrChVolume 1 0 0xC000 ∧
    decode defaultChRegMap (channelWord 1 0b000001 0b00000 0b01001 0x0200) = .wrChAttack 1 0 0x0200 ∧
    decode defaultChRegMap (channelWord 1 0b000001 0b00000 0b01100 0x0080) = .wrChDecay 1 0 0x0080 ∧
    decode defaultChRegMap (channelWord 1 0b000001 0b00000 0b01110 0x5300) = .wrChRelease 1 0 0x5300 ∧
    decode defaultChRegMap (channelWord 1 0b000001 0b00000 0b10000 0xF123) = .wrChCutoff 1 0 0xF123 := by
  decide

theorem test_decode_channel_rest :
    decode defaultChRegMap (channelWord 1 0b000001 0b11111 0b11111 0xFFFF) = .wrChNop 1 31 0x1F 0xFFFF ∧
    decode defaultChRegMap (channelWord 1 0b111111 0b00000 0b01010 0x1234) = .wrChNop 63 0 0x0A 0x1234 ∧
    decode defaultChRegMap (channelWord 0 0b000001 0b00010 0b00001 0) = .rdCh 1 2 1 := by decide

theorem test_decode_table_word :
    decodeTableWord 40 0x10001FF63 = some (.wrKeyon 3 0x1FE) ∧
    decodeTableWord 33 0x10C413456 = some (.wrChStartl 3 2 0x3456) ∧
    decodeTableWord 40 0x200000000 = none := by decide

/-! ## One access each, on the state after reset or on a small change of it -/

/-- The state after an access, if it completes. -/
def ran (i : Instr) (s : State) : Option State :=
  match exec i s with
  | .next t => some t
  | _ => none

/-- The state after reset with voice `n` written. -/
def withVoice (n : VoiceIdx) (v : Voice) : State := setVoice State.reset n v

/-- The state after reset with the address and data latches set. -/
def withLatches (a : BitVec 32) (d : Half) : State := { State.reset with extAddr := a, extData := d }

/-- The same with a storage range of 0x4000 bytes (L2.10). -/
def withSmallStorage (s : State) : State := { s with cfg := { s.cfg with storageBytes := 0x4000 } }

/-- Voice 3 of L2.2. -/
def voice3 (p : EnvPhase) (level : F64) : Voice :=
  { resetVoice with startH := 0x0100, startL := 0x2345, envPhase := p, envLevel := level }

/-- 0.25 and 0.5. -/
def quarter : F64 := f64OfBits 0x3FD0000000000000
def half : F64 := f64OfBits 0x3FE0000000000000

theorem test_wr_status : (ran (.wrStatus 0xBEEF) State.reset).map (·.status) = some 0xBEEF := by
  decide +kernel

theorem test_rd_status :
    (ran .rdStatus { State.reset with status := 0xBEEF }).map (·.lastRead) = some (some 0xBEEF) := by
  decide +kernel

/-- The example of 40 R84. -/
theorem test_wr_keyon :
    (ran (.wrKeyon 3 0) (withVoice 3 (voice3 .none f64Zero))).map (fun t =>
      ((voiceAt t 3).pos, (voiceAt t 3).envPhase, f64ToBits (voiceAt t 3).envStep)) =
    some (0x0123450000, .attack, 0x3FF0000000000000) := by decide +kernel

/-- The third row of L2.2: `rr[0]` is -0.0001619695497246518. -/
theorem test_wr_keyoff :
    (ran (.wrKeyoff 3 0) (withVoice 3 (voice3 .attack quarter))).map (fun t =>
      ((voiceAt t 3).envPhase, decide ((voiceAt t 3).envLevel = quarter),
        f64ToBits (voiceAt t 3).envStep)) =
    some (.release, true, 0xBF253ACBD68929E2) := by decide +kernel

theorem test_wr_keyoff_silent :
    (ran (.wrKeyoff 3 0) (withVoice 3 (voice3 .none f64Zero))).map (fun t => (voiceAt t 3).envPhase) =
    some .none := by decide +kernel

theorem test_wr_mute :
    (ran (.wrMute 3 1 0) (withVoice 3 { voice3 .decay half with pos := 0x0123500000 })).map (fun t =>
      ((voiceAt t 3).pos, (voiceAt t 3).envPhase, (voiceAt t 3).envLevel)) =
    some (0x0123500000, .none, f64Zero) := by decide +kernel

theorem test_wr_reqch : (ran (.wrReqch 5 1) State.reset).map (·.reqch) = some 5 := by decide +kernel

/-- The example of 40 R88. -/
theorem test_rd_pos :
    (ran .rdPos { withVoice 5 { resetVoice with startL := 0x1000, envPhase := .decay,
                                                pos := 0x0010C80000 } with reqch := 5 }).map
      (·.lastRead) = some (some 0x0003) := by decide +kernel

/-- The sixth row of L2.3: a position below the start. -/
theorem test_rd_pos_wraps :
    (ran .rdPos { withVoice 5 { resetVoice with startL := 0x1000, envPhase := .decay,
                                                pos := 0x000FFF0000 } with reqch := 5 }).map
      (·.lastRead) = some (some 0xFFFF) := by decide +kernel

theorem test_wr_extaddr_lo :
    (ran (.wrExtaddrLo 0x1234) (withLatches 0x00020000 0)).map (·.extAddr) = some 0x00021234 := by
  decide +kernel

theorem test_wr_extaddr_hi :
    (ran (.wrExtaddrHi 0x0002) (withLatches 0x00001234 0)).map (·.extAddr) = some 0x00021234 := by
  decide +kernel

theorem test_wr_extdata :
    (ran (.wrExtdata 0x8123) State.reset).map (fun t => (t.extData, t.storage)) =
    some (0x8123, []) := by decide +kernel

/-- The example of 40 R92, little end first: 0x0100 at byte address 0x2000. -/
theorem test_wr_extwrite :
    (ran (.wrExtwrite 0) (withLatches 0x00001000 0x0100)).map (·.storage) =
    some [(0x2001, 0x01)] := by decide +kernel

/-- L2.10: the first word past the range. -/
theorem test_wr_extwrite_faults :
    (match exec (.wrExtwrite 0) (withSmallStorage (withLatches 0x2000 0x1234)) with
      | .fault f => some f
      | _ => none) = some (.storageFault 0x4000 .extWrite) := by decide +kernel

theorem test_wr_extcmd_nop :
    (ran (.wrExtcmdNop 1 0) (withLatches 0x1000 0x0100)).map (·.storage) = some [] := by decide +kernel

theorem test_rd_extdata :
    (ran .rdExtdata (setWord (withLatches 0x00001000 0xFFFF) 0x2000 0x0100)).map (·.lastRead) =
    some (some 0x0100) := by decide +kernel

/-- L2.10: bit 31 of the latch is dropped, bit 30 is not. -/
theorem test_rd_extdata_bit_31 :
    (ran .rdExtdata (withSmallStorage (withLatches 0x80000000 0))).isSome = true ∧
    (ran .rdExtdata (withSmallStorage (withLatches 0x40000000 0))).isSome = false := by decide +kernel

theorem test_wr_global_nop :
    (ran (.wrGlobalNop 0x0002 0xFFFF) State.reset).map (·.status) = some 0 := by decide +kernel

theorem test_rd_global_zero :
    (ran (.rdGlobalZero 0x0011) (withLatches 0x1234 0)).map (·.lastRead) = some (some 0) := by
  decide +kernel

theorem test_wr_ch_starth :
    (ran (.wrChStarth 1 2 0x12FF) (withVoice 2 { resetVoice with startL := 0x3456 })).map (fun t =>
      voiceStart (voiceAt t 2)) = some 0x123456 := by decide +kernel

theorem test_wr_ch_startl :
    (ran (.wrChStartl 1 2 0x3456) (withVoice 2 { resetVoice with startH := 0x1200 })).map (fun t =>
      voiceStart (voiceAt t 2)) = some 0x123456 := by decide +kernel

theorem test_wr_ch_freq :
    (ran (.wrChFreq 1 0 0x5000) State.reset).map (fun t =>
      ((voiceAt t 0).freq, (voiceAt t 0).step)) = some (0x5000, 0x10000) := by decide +kernel

theorem test_wr_ch_endl :
    (ran (.wrChEndl 1 0 0x1234) (withVoice 0 { resetVoice with endHloopH := 0x0AFF })).map (fun t =>
      voiceEnd (voiceAt t 0)) = some 0xFF1234 := by decide +kernel

theorem test_wr_ch_endh_looph :
    (ran (.wrChEndhLooph 1 0 0x0AFF) (withVoice 0 { resetVoice with endL := 0x1234,
                                                                     loopL := 0x5678 })).map (fun t =>
      (voiceEnd (voiceAt t 0), voiceLoop (voiceAt t 0))) = some (0xFF1234, 0x0A5678) := by decide +kernel

theorem test_wr_ch_loopl :
    (ran (.wrChLoopl 1 0 0x5678) (withVoice 0 { resetVoice with endHloopH := 0x0AFF })).map (fun t =>
      voiceLoop (voiceAt t 0)) = some 0x0A5678 := by decide +kernel

theorem test_wr_ch_pan :
    (ran (.wrChPan 1 0 0x4800) State.reset).map (fun t =>
      (voicePanL (voiceAt t 0), voicePanR (voiceAt t 0))) = some (0x00, 0x48) := by decide +kernel

theorem test_wr_ch_effect :
    (ran (.wrChEffect 1 0 0x4020) State.reset).map (fun t => (voiceAt t 0).effect) = some 0x4020 := by
  decide +kernel

theorem test_wr_ch_volume :
    (ran (.wrChVolume 1 0 0x7F05) State.reset).map (fun t =>
      (voiceVolume (voiceAt t 0), voiceType (voiceAt t 0))) = some (0x05, 0b01) := by decide +kernel

theorem test_wr_ch_attack :
    (ran (.wrChAttack 1 0 0x0200) State.reset).map (fun t =>
      (rateIndex t.cfg.rateIndex (voiceAt t 0).attack).val) = some 2 := by decide +kernel

theorem test_wr_ch_decay :
    (ran (.wrChDecay 1 0 0x0080) State.reset).map (fun t => decayStep t (voiceAt t 0)) =
    some f64Zero := by decide +kernel

theorem test_wr_ch_release :
    (ran (.wrChRelease 1 0 0x0080) State.reset).map (fun t => releaseStep t (voiceAt t 0)) =
    some f64Zero := by decide +kernel

theorem test_wr_ch_cutoff :
    (ran (.wrChCutoff 1 0 0xF123) State.reset).map (fun t => (voiceAt t 0).cutoff) = some 0xF123 := by
  decide +kernel

theorem test_wr_ch_nop :
    (ran (.wrChNop 1 0 0x0A 0xFFFF) State.reset).map (fun t => decide (voiceAt t 0 = resetVoice)) =
    some true := by decide +kernel

theorem test_rd_ch :
    (ran (.rdCh 1 2 1) (withVoice 2 { resetVoice with startL := 0x3456 })).map (·.lastRead) =
    some (some 0) := by decide +kernel

/-! ## The stages of a tick -/

/-- L2.5: the word 0x12AB in the four types, and the folds of L1.4. -/
theorem test_sample_types :
    signFold (typeDecode 0x12AB 0b11) = 4779 ∧ signFold (typeDecode 0x12AB 0b01) = -11009 ∧
    signFold (typeDecode 0x12AB 0b10) = 4608 ∧ signFold (typeDecode 0x12AB 0b00) = 0 := by decide

theorem test_sign_fold :
    signFold 0x8123 = -292 ∧ signFold 0x8000 = -1 ∧ signFold 0xFFFF = -32768 ∧
    signFold 0x7FFF = 32767 := by decide

/-- L2.6. -/
theorem test_rate_index :
    (rateIndex .decode80 0x03FF).val = 0x03 ∧ (rateIndex .decode80 0x7F00).val = 0x7F ∧
    (rateIndex .decode80 0x8000).val = 0x1F ∧ (rateIndex .decode80 0xFF00).val = 0x9E := by decide

/-- L2.7: rows 3, 5, 11 and 16; 0.3 and 0.999 as binary64 patterns. -/
theorem test_mix :
    mix State.reset (-292) 0 half 0x10 0x47 = (-64, 0) ∧
    mix State.reset (-32768) 0 f64Unit 0 0 = (-16320, -16320) ∧
    mix State.reset 1000 64 (f64OfBits 0x3FD3333333333333) 0x20 0x08 = (13, 16) ∧
    mix State.reset (-10000) 0 (f64OfBits 0x3FEFF7CED916872B) 0x01 0x46 = (-4940, -590) := by
  decide +kernel

/-- The envelope state of a voice. -/
def envelopeFields (v : Voice) : EnvPhase × F64 × F64 := (v.envPhase, v.envLevel, v.envStep)

/-- L2.6: two steps at a boundary. -/
theorem test_envelope_boundaries :
    envelopeFields (envAdvance State.reset { resetVoice with envPhase := .attack, envLevel := half,
                                                              envStep := half, decay := 0x0100 }) =
      (.decay, f64Unit, f64Zero) ∧
    envelopeFields (envAdvance State.reset { resetVoice with envPhase := .release, envLevel := half,
                                                              envStep := ⟨-half.units⟩ }) =
      (.none, f64Zero, f64Zero) := by decide +kernel

/-- A voice at a position, for the rows of L2.8. -/
def phaseVoice (pos : Pos) (step : StepWord) (start stop loop : Half) : Voice :=
  { resetVoice with pos := pos, step := step, startL := start, endL := stop, loopL := loop }

/-- L2.8. -/
theorem test_phase_advance :
    phaseAdvance (phaseVoice 0x0010028000 0x8000 0x1000 0x1003 2) = 0x0010030000 ∧
    phaseAdvance (phaseVoice 0x0010038000 0x8000 0x1000 0x1003 2) = 0x0010020000 ∧
    phaseAdvance (phaseVoice 0x0010038000 0x10000 0x1000 0x1003 0x10) = 0x0010000000 ∧
    phaseAdvance (phaseVoice 0x0010040000 0x10000 0x1000 0x1003 0x2000) = 0xFFF0050000 := by decide

/-- Voice 0 of L2.9, keyed on, with its word in storage. -/
def pipelineState : State :=
  setWord (withVoice 0
    { resetVoice with startL := 0x1000, endL := 0x1003, loopL := 2, freq := 0x5000, step := 0x10000,
                      volume := 0xC000, decay := 0x0080, pos := 0x0010000000, envPhase := .attack,
                      envStep := f64Unit }) 0x2000 0x0100

/-- What a tick of a state gives, if it completes. -/
def ticked (s : State) : Option State :=
  match portTick s with
  | .next t => some t
  | _ => none

/-- L2.9: the envelope steps before the mixer, and the fetch uses the old position. -/
theorem test_tick :
    (ticked pipelineState).map (fun t =>
      (t.outputs, (voiceAt t 0).pos, (voiceAt t 0).envPhase, (voiceAt t 0).envLevel,
        (voiceAt t 0).envStep)) =
    some ([(127, 127)], 0x0010010000, .decay, f64Unit, f64Zero) := by decide +kernel

/-- A voice that is sounding past a small storage range. -/
def faultingVoice : Voice := { voice3 .decay half with endL := 1, pos := 0x0020000000 }

/-- L2.10: voices 3 and 7 both fetch past the end. -/
def faultingState : State :=
  withSmallStorage (setVoice (withVoice 7 faultingVoice) 3 faultingVoice)

theorem test_tick_faults :
    (match portTick faultingState with
      | .fault f => some f
      | _ => none) = some (.storageFault 0x4000 (.fetch 3)) := by decide +kernel

/-- L2.6 and L2.11: rate table entries at 44100 Hz and 88200 Hz, as binary64 patterns. -/
theorem test_rate_tables :
    f64ToBits State.reset.ar[2] = 0x3F2DB8B6F9266DD5 ∧ State.reset.ar[0x80] = f64Zero ∧
    (match portSetClock 33868800 State.reset with
      | .next t => some (f64ToBits t.ar[2])
      | _ => none) = some 0x3F1DB8B6F9266DD5 := by decide +kernel

/-- 41 R127: a clock below 384. -/
theorem test_set_clock_refused :
    (match portSetClock 383 State.reset with
      | .refused r => some r
      | _ => none) = some .clockBelow384 := by decide +kernel

theorem test_binary64_patterns :
    f64ToBits (f64OfBits 0x3FB999999999999A) = 0x3FB999999999999A ∧
    f64ToBits (f64Add (f64OfBits 0x3FB999999999999A) (f64OfBits 0x3FC999999999999A)) =
      0x3FD3333333333334 ∧
    f64ToBits (f64Div f64Unit (f64OfInt 3)) = 0x3FD5555555555555 ∧
    f64ToBits (f64Sqrt (f64OfInt 2)) = 0x3FF6A09E667F3BCD := by decide +kernel

/-! ## Witnesses: for each statement with hypotheses, what meets them, clause by clause -/

/-- The state after reset with requests to serve. -/
def asking (q : List HostRequest) : State := { State.reset with pending := q }

/-- Whether an outcome is a next state. -/
def goesOn (o : Result) : Bool :=
  match o with
  | .next _ => true
  | _ => false

theorem exists_of_goesOn {o : Result} (h : goesOn o = true) : ∃ t, o = .next t := by
  cases o with
  | next t => exact ⟨t, rfl⟩
  | fault f => cases h
  | refused r => cases h

theorem witness_DecodeOfEncodeIsIdentity :
    defaultChRegMap.wf ∧ Instr.wellFormed defaultChRegMap (.wrExtcmdNop 2 0x3FFF) = true ∧
    Instr.wellFormed defaultChRegMap (.wrGlobalNop 0x3FF 0xFFFF) = true ∧
    Instr.wellFormed defaultChRegMap (.wrChCutoff 63 31 0xFFFF) = true ∧
    Instr.wellFormed defaultChRegMap (.wrChNop 1 0 0x1F 0) = true := by decide

theorem witness_EncodeOfDecodeKeepsAWriteAndClearsReadData : defaultChRegMap.wf := by decide

theorem witness_OpcodeTableSelectsTheDecodedRow :
    ∃ q ∈ opcodeTable, rowMatches q 0x10000BEEF = true ∧ maskBits q = maskBits q :=
  ⟨⟨"WR_STATUS", 0x100000000, 0x1FFFF0000, .any⟩, by decide, by decide, rfl⟩

theorem witness_ChannelOffsetsAlias :
    0x400 ≤ (0x400 : Half).toNat ∧ 0x400 ≤ (0xFC00 : Half).toNat ∧
    (0x400 : Half).toNat % 1024 = (0xFC00 : Half).toNat % 1024 ∧
    0x400 ≤ (0x7FF : Half).toNat ∧ 0x400 ≤ (0xFFFF : Half).toNat ∧
    (0x7FF : Half).toNat % 1024 = (0xFFFF : Half).toNat % 1024 := by decide

theorem witness_UnnamedDataBitsAreIgnored :
    (0x7F : Half).toNat % 128 = (0xFFFF : Half).toNat % 128 ∧
    (0x1F : Half).toNat % 32 = (0xFFFF : Half).toNat % 32 ∧
    (0x3 : Half).toNat % 4 = (0xFFFF : Half).toNat % 4 := by decide

theorem witness_ChannelRegistersDecodeByNumber :
    (0x400 ≤ (0x400 : Half).toNat ∧ (1 : BitVec 6).toNat = (0x400 : Half).toNat / 2 ^ 10 ∧
      (0 : VoiceIdx).toNat = (0x400 : Half).toNat / 2 ^ 5 % 32 ∧
      (0 : RegNum).toNat = (0x400 : Half).toNat % 32) ∧
    (0x400 ≤ (0xFFFF : Half).toNat ∧ (63 : BitVec 6).toNat = (0xFFFF : Half).toNat / 2 ^ 10 ∧
      (31 : VoiceIdx).toNat = (0xFFFF : Half).toNat / 2 ^ 5 % 32 ∧
      (31 : RegNum).toNat = (0xFFFF : Half).toNat % 32) := by decide

theorem witness_StepRunsTheDecodedAccess :
    (State.reset.withFetchWord 33 0x10000BEEF).pending = .access 0x10000BEEF fullLanes :: [] ∧
    (asking [.tick]).pending = .tick :: [] ∧ (asking [.setClock 384]).pending = .setClock 384 :: [] ∧
    (asking [.reset]).pending = .reset :: [] ∧
    (asking [.refill 0x1FFFFFF 0xFF]).pending = .refill 0x1FFFFFF 0xFF :: [] ∧
    (asking [.block 0]).pending = .block 0 :: [] ∧
    (asking [.block 1]).pending = .block (0 + 1) :: [] ∧ State.reset.pending = [] := by
  decide +kernel

theorem witness_RefusedRequests :
    ((asking [.access 0x10000BEEF 0x00FF]).pending = .access 0x10000BEEF 0x00FF :: [] ∧
      (0x00FF : Half) ≠ 0xFFFF) ∧
    ((asking [.setClock 383]).pending = .setClock 383 :: [] ∧ 383 < 384) := by decide +kernel

theorem witness_StatusRegisterPassesThrough :
    (asking [asmWr 0 0xBEEF, asmRd 0]).pending = asmWr 0x0000 0xBEEF :: asmRd 0x0000 :: [] ∧
    (∃ t, step (asking [asmWr 0 0xBEEF]) = .next t) ∧ (∃ t, step (asking [.tick]) = .next t) :=
  ⟨rfl, exists_of_goesOn (by decide +kernel), exists_of_goesOn (by decide +kernel)⟩

theorem witness_RequestedChannelLatch :
    (asking (asmPoll 31)).pending = asmPoll 31 ++ [] := by decide +kernel

/-- Both clauses of the poll: voice 0 is silent, voice 5 is not. -/
theorem witness_PositionPollValue :
    (voiceAt State.reset State.reset.reqch).envPhase = .none ∧
    (voiceAt { withVoice 5 (voice3 .decay half) with reqch := 5 } 5).envPhase ≠ .none := by
  decide +kernel

/-- The last word of the range, and the first past it. -/
theorem witness_ExternalWriteCommits :
    Memory.wf (withLatches 0xFFFFFF 0x0100).storage = true ∧
    (extByteAddr (withLatches 0xFFFFFF 0x0100)).toNat + 2 ≤
      (withLatches 0xFFFFFF 0x0100).cfg.storageBytes ∧
    Memory.wf (withLatches 0x1000000 0x0100).storage = true ∧
    (withLatches 0x1000000 0x0100).cfg.storageBytes <
      (extByteAddr (withLatches 0x1000000 0x0100)).toNat + 2 ∧
    (0x0003 : Half).toNat % 4 = 3 ∧ (0xFFFF : Half).toNat % 4 = 3 := by decide +kernel

theorem witness_ExternalReadAnswersTheStorageWord :
    (extByteAddr (withLatches 0xFFFFFF 0)).toNat + 2 ≤ (withLatches 0xFFFFFF 0).cfg.storageBytes ∧
    (withLatches 0x1000000 0).cfg.storageBytes < (extByteAddr (withLatches 0x1000000 0)).toNat + 2 := by
  decide +kernel

theorem witness_ExternalWriteIsReadBack :
    Memory.wf (asking (asmExtWr 0x80FFFFFF 0xBEEF ++ asmExtRd 0x80FFFFFF)).storage = true ∧
    (0x80FFFFFF : BitVec 32).toNat * 2 % 2 ^ 32 + 2 ≤ defaultParams.storageBytes ∧
    (asking (asmExtWr 0x80FFFFFF 0xBEEF ++ asmExtRd 0x80FFFFFF)).pending =
      asmExtWr 0x80FFFFFF 0xBEEF ++ asmExtRd 0x80FFFFFF ++ [] := by decide +kernel

theorem witness_WritesWithoutEffect :
    (0xFFFE : Half).toNat % 4 ≠ 3 ∧ (0x0000 : Half).toNat % 4 ≠ 3 ∧
    ((0x3FF : Half).toNat < 0x400 ∧ (0x3FF : Half) ∉ writtenGlobals) ∧
    ((0x009 : Half).toNat < 0x400 ∧ (0x009 : Half) ∉ writtenGlobals) ∧
    (0x400 ≤ (0x40A : Half).toNat ∧
      BitVec.ofNat 5 (0x40A : Half).toNat ∉ chRegMapNumbers defaultChRegMap) ∧
    (0x400 ≤ (0xFFFF : Half).toNat ∧
      BitVec.ofNat 5 (0xFFFF : Half).toNat ∉ chRegMapNumbers defaultChRegMap) := by decide

theorem witness_UnlistedReadsAnswerZero :
    ((0x3FF : Half).toNat < 0x400 → (0x3FF : Half) ∉ readGlobals) ∧
    ((0x001 : Half).toNat < 0x400 → (0x001 : Half) ∉ readGlobals) ∧
    ((0x400 : Half).toNat < 0x400 → (0x400 : Half) ∉ readGlobals) := by decide

theorem witness_KeyOnRestartsTheVoice :
    (0x0060 : Half).toNat / 2 ^ 5 % 4 = 3 ∧ (0xFFFF : Half).toNat / 2 ^ 5 % 4 = 3 := by decide

theorem witness_KeyOffReleasesTheVoice :
    (0x0040 : Half).toNat / 2 ^ 5 % 4 = 2 ∧ (0xFFDF : Half).toNat / 2 ^ 5 % 4 = 2 ∧
    (voiceAt State.reset 3).envPhase = .none ∧
    (voiceAt (withVoice 3 (voice3 .attack quarter)) 3).envPhase ≠ .none := by decide +kernel

theorem witness_MuteSilencesTheVoice :
    (0x0000 : Half).toNat / 2 ^ 6 % 2 = 0 ∧ (0xFFBF : Half).toNat / 2 ^ 6 % 2 = 0 := by decide

theorem witness_AddressSequencesSetTheViews :
    State.reset.cfg.chRegMap.wf ∧
    (asking (asmSetStart defaultChRegMap 31 0xFFFFFF ++
        asmSetEndLoop defaultChRegMap 31 0xABCDEF 0x123456)).pending =
      asmSetStart State.reset.cfg.chRegMap 31 0xFFFFFF ++
        asmSetEndLoop State.reset.cfg.chRegMap 31 0xABCDEF 0x123456 ++ [] := by decide +kernel

theorem witness_RegisterFieldsChangeOnlyByTheirWrites :
    (∃ t, step (asking [asmChWr 2 0x00 0x1200]) = .next t) ∧
    (∃ t, step (asking [asmChWr 31 0x02 0x5000]) = .next t) ∧ (∃ t, step (asking [.reset]) = .next t) :=
  ⟨exists_of_goesOn (by decide +kernel), exists_of_goesOn (by decide +kernel),
    exists_of_goesOn (by decide +kernel)⟩

theorem witness_TickActsOnEachVoiceAlone : ∃ t, portTick pipelineState = .next t :=
  exists_of_goesOn (by decide +kernel)

/-- Both sides: no voice faults, and voice 3 is the lowest that does. -/
theorem witness_TickReportsTheLowestFaultingVoice :
    (allVoices.all fun n => !fetchFaults pipelineState (voiceAt pipelineState n)) = true ∧
    fetchFaults faultingState (voiceAt faultingState 3) = true ∧
    (allVoices.all fun m => decide (3 ≤ m.toNat) ||
      !fetchFaults faultingState (voiceAt faultingState m)) = true := by decide +kernel

theorem witness_TickDoesNotDependOnVoiceOrder :
    allVoices.reverse.Perm allVoices ∧
    ∃ t l r, tickLoop pipelineState 0 0 allVoices = .ok (t, l, r) := by
  refine ⟨List.reverse_perm _, ?_⟩
  obtain ⟨t, h⟩ := witness_TickActsOnEachVoiceAlone
  unfold portTick at h
  split at h
  · cases h
  · next heq => exact ⟨_, _, _, heq⟩

/-- A voice that is not skipped and fetches. -/
theorem witness_VoiceTickRunsThePipeline :
    voiceStart (voiceAt pipelineState 0) ≠ voiceEnd (voiceAt pipelineState 0) ∧
    (voiceAt pipelineState 0).envPhase ≠ .none ∧
    (fetchWord pipelineState 0 (voiceAt pipelineState 0)).toOption = some 0x0100 ∧
    voiceStart (voiceAt faultingState 3) ≠ voiceEnd (voiceAt faultingState 3) ∧
    (voiceAt faultingState 3).envPhase ≠ .none ∧
    (fetchWord faultingState 3 (voiceAt faultingState 3)).toOption = none := by decide +kernel

/-- A voice whose release ends in the next tick. -/
def endingVoice : Voice :=
  { voice3 .release half with endL := 1, envStep := ⟨-half.units⟩ }

/-- The phase after a voice's tick, if it completes. -/
def phaseAfter (s : State) (n : VoiceIdx) (v : Voice) : Option EnvPhase :=
  ((voiceTick s n v).toOption).map fun p => p.1.envPhase

theorem witness_SkippedAndEndingVoicesAreSilent :
    voiceStart { resetVoice with envPhase := .attack } =
      voiceEnd { resetVoice with envPhase := .attack } ∧
    (voice3 .none f64Zero).envPhase = .none ∧
    phaseAfter State.reset 3 endingVoice = some .none ∧ endingVoice.envPhase ≠ .none := by
  decide +kernel

theorem witness_TickOfSkippedVoicesEmitsZero :
    (allVoices.all fun n => isSkipped (voiceAt State.reset n)) = true := by decide +kernel

/-- Two states that differ in voice 7 and agree on voice 0. -/
theorem witness_VoicesAreIndependent :
    (setVoice pipelineState 7 endingVoice).cfg = pipelineState.cfg ∧
    SameTables pipelineState (setVoice pipelineState 7 endingVoice) ∧
    (∀ a, memRead (setVoice pipelineState 7 endingVoice).storage a = memRead pipelineState.storage a) ∧
    voiceAt (setVoice pipelineState 7 endingVoice) 0 = voiceAt pipelineState 0 ∧
    (∃ t, portTick pipelineState = .next t) ∧
    (∃ t, portTick (setVoice pipelineState 7 endingVoice) = .next t) :=
  ⟨rfl, ⟨rfl, rfl, rfl, rfl, rfl⟩, fun _ => rfl, voiceAt_setVoice_of_ne (by decide) _,
    exists_of_goesOn (by decide +kernel), exists_of_goesOn (by decide +kernel)⟩

theorem witness_BlockRenderingEqualsTicking : ∃ t, runTicks 2 pipelineState = .next t :=
  exists_of_goesOn (by decide +kernel)

theorem witness_BlockRequestIsConsecutiveTicks :
    (asking [.block 2]).pending = .block 2 :: [] := by decide +kernel

/-- The last word of a storage range of 0x4000 bytes, and the first past it (L2.10). -/
theorem witness_FetchReadsTheWordUnderThePosition :
    (fetchAddr { resetVoice with pos := 0x001FFFFFFF }).toNat + 2 ≤
      (withSmallStorage State.reset).cfg.storageBytes ∧
    (withSmallStorage State.reset).cfg.storageBytes <
      (fetchAddr { resetVoice with pos := 0x0020000000 }).toNat + 2 := by decide +kernel

theorem witness_SampleTypesDecode :
    (((0b01 : BitVec 2) = 0b01 ∧ 0xAB = (0x12AB : Half).toNat % 256) ∨
      ((0b01 : BitVec 2) = 0b10 ∧ 0xAB = (0x12AB : Half).toNat / 256)) ∧
    (((0b10 : BitVec 2) = 0b01 ∧ 0x80 = (0x80FF : Half).toNat % 256) ∨
      ((0b10 : BitVec 2) = 0b10 ∧ 0x80 = (0x80FF : Half).toNat / 256)) := by decide

theorem witness_SignFoldIsOneToOne :
    (-32768 : Int) ≤ -32768 ∧ (-32768 : Int) ≤ 32767 ∧ (-32768 : Int) ≤ 32767 ∧
    (32767 : Int) ≤ 32767 := by decide

/-- The level a voice's envelope step reaches. -/
def nextLevel (v : Voice) : F64 := f64Add v.envLevel (f64Mul v.envStep v.envScale)

/-- The four clauses, each at a level on its boundary: exactly 1.0, the number below it, exactly 0.0, and
the smallest number above it. -/
theorem witness_EnvelopeBoundaries :
    f64One ≤ (nextLevel { voice3 .attack half with envStep := half }).units ∧
    (nextLevel { voice3 .attack half with envStep := f64OfBits 0x3FDFFFFFFFFFFFFE }).units < f64One ∧
    (nextLevel { voice3 .release half with envStep := ⟨-half.units⟩ }).units ≤ 0 ∧
    0 < (nextLevel { voice3 .decay ⟨1⟩ with envStep := f64Zero }).units := by decide +kernel

theorem witness_PhaseMovesOnlyAlongTheGraph :
    (∃ t, step (asking [asmKeyOn 31]) = .next t) ∧ (∃ t, step (asking [asmKeyOff 31]) = .next t) ∧
    (∃ t, step (asking [asmMute 31]) = .next t) ∧
    (∃ t, step { pipelineState with pending := [.tick] } = .next t) :=
  ⟨exists_of_goesOn (by decide +kernel), exists_of_goesOn (by decide +kernel),
    exists_of_goesOn (by decide +kernel), exists_of_goesOn (by decide +kernel)⟩

theorem resetVoice_ok : VoiceOk resetVoice where
  level_nonneg := le_refl _
  level_le_one := by decide +kernel
  silent_level := fun _ => rfl
  step_sign := rfl
  step_of_freq := by decide
  scale_one := rfl
  level_rounded := by decide +kernel
  step_rounded := by decide +kernel

theorem pipelineVoice_ok : VoiceOk (voiceAt pipelineState 0) where
  level_nonneg := by decide +kernel
  level_le_one := by decide +kernel
  silent_level := by decide +kernel
  step_sign := by show (0 : Int) ≤ f64Unit.units; simp
  step_of_freq := by decide +kernel
  scale_one := rfl
  level_rounded := by decide +kernel
  step_rounded := by decide +kernel

theorem defaultParams_ok : ParamsOk defaultParams where
  regMap := by decide
  attackRate := ⟨by decide, by decide, by decide +kernel, by decide +kernel⟩
  decayRate := ⟨by decide, by decide, by decide +kernel, by decide +kernel⟩
  releaseRate := ⟨by decide, by decide, by decide +kernel, by decide +kernel⟩
  panOor := by decide +kernel

/-- A state with a voice that sounds and a word in storage meets the invariant. -/
theorem pipelineState_inv : Inv pipelineState where
  params := defaultParams_ok
  clock := by show 384 ≤ 16934400; omega
  tables := ⟨rfl, rfl, rfl, rfl, rfl⟩
  storage := ⟨by show Memory.wf pipelineState.storage = true; decide +kernel,
    by show ∀ c ∈ pipelineState.storage, c.1 < 0x2000000; decide +kernel⟩
  voices := fun n => by
    by_cases h : n = 0
    · subst h; exact pipelineVoice_ok
    · have e : voiceAt pipelineState n = voiceAt State.reset n := voiceAt_setVoice_of_ne h _
      have r : voiceAt State.reset n = resetVoice := by
        simp [voiceAt, State.reset, initialState]
      rw [e, r]; exact resetVoice_ok

/-- A voice that falls from 0.5 by 0.25 a tick. -/
def fallingVoice (p : EnvPhase) : Voice :=
  { voice3 p half with endL := 1, envStep := ⟨-quarter.units⟩ }

theorem fallingVoice_ok (p : EnvPhase) (h : p = .decay ∨ p = .release) : VoiceOk (fallingVoice p) where
  level_nonneg := by show 0 ≤ half.units; decide +kernel
  level_le_one := by show half.units ≤ f64One; decide +kernel
  silent_level := fun e => by
    have e' : p = .none := e
    rcases h with h | h <;> rw [h] at e' <;> cases e'
  step_sign := by
    have hs : -quarter.units ≤ 0 := by decide +kernel
    rcases h with h | h <;> subst h <;> exact hs
  step_of_freq := resetVoice_ok.step_of_freq
  scale_one := rfl
  level_rounded := by show f64Rounded half; decide +kernel
  step_rounded := by show f64Rounded ⟨-quarter.units⟩; decide +kernel

/-- A voice in each of the phases that sound: 0 in ATTACK, 1 in DECAY, 2 in RELEASE. -/
def soundingState : State :=
  setVoice (setVoice pipelineState 1 (fallingVoice .decay)) 2 (fallingVoice .release)

theorem soundingState_inv : Inv soundingState :=
  (pipelineState_inv.setVoice 1 (fallingVoice_ok .decay (.inl rfl))).setVoice 2
    (fallingVoice_ok .release (.inr rfl))

/-- One voice for each clause, and the levels in fact move: 0.0 to 1.0, and 0.5 to 0.25 twice. -/
theorem witness_EnvelopeIsMonotone :
    Inv soundingState ∧ (∃ t, portTick soundingState = .next t) ∧
    (voiceAt soundingState 0).envPhase = .attack ∧ (voiceAt soundingState 1).envPhase = .decay ∧
    (voiceAt soundingState 2).envPhase = .release ∧
    (ticked soundingState).map (fun t => ((voiceAt t 0).envLevel, (voiceAt t 1).envLevel,
      (voiceAt t 2).envLevel)) = some (f64Unit, quarter, quarter) :=
  ⟨soundingState_inv, exists_of_goesOn (by decide +kernel), by decide +kernel, by decide +kernel,
    by decide +kernel, by decide +kernel⟩

/-- The default instance at the least clock. -/
theorem witness_InvariantHoldsAtReset : ParamsOk defaultParams ∧ 384 ≤ 384 :=
  ⟨defaultParams_ok, le_refl _⟩

/-- An attack register with index 0x80, the default `AR_MAX`; an attack at level 0.0 and a decay above it,
each with a step of 0.0. -/
theorem witness_ZeroStepHoldsTheEnvelope :
    (TablesOk State.reset ∧ State.reset.cfg.attackRate.min ≤ State.reset.cfg.attackRate.max ∧
      State.reset.cfg.attackRate.max ≤ (rateIndex State.reset.cfg.rateIndex 0xE100).val) ∧
    ((voice3 .attack f64Zero).envStep = f64Zero ∧
      phaseAfter State.reset 3 { voice3 .attack f64Zero with endL := 1 } = some .attack) ∧
    ((voice3 .decay ⟨1⟩).envStep = f64Zero ∧ f64Rounded ⟨1⟩ ∧ (0 : Int) < (⟨1⟩ : F64).units ∧
      phaseAfter State.reset 3 { voice3 .decay ⟨1⟩ with endL := 1 } = some .decay) :=
  ⟨⟨⟨rfl, rfl, rfl, rfl, rfl⟩, by decide, by decide +kernel⟩, ⟨rfl, by decide +kernel⟩,
    ⟨rfl, by decide +kernel, by decide +kernel, by decide +kernel⟩⟩

theorem witness_EveryStepKeepsTheInvariant :
    Inv { pipelineState with pending := [.tick] } ∧
    ∃ t, step { pipelineState with pending := [.tick] } = .next t :=
  ⟨pipelineState_inv.withPending _, exists_of_goesOn (by decide +kernel)⟩

theorem witness_SetClockRebuildsTheRateTables : 384 ≤ 384 := by decide

theorem witness_AttenuationTableLaws :
    (0 : Fin 256) ≤ 255 ∧ 172 ≤ (172 : Fin 256).val ∧ (0x46 : Fin 0x64) < 0x47 ∧
    (0x47 : Fin 0x64).val ≤ 0x47 ∧ 0x47 ≤ (0x63 : Fin 0x64).val := by decide

theorem witness_VolumeAndEnvelopeStages :
    State.reset.volumeTable = Machine.volumeTable ∧ (-32768 : Int) ≤ -32768 ∧ (-32768 : Int) ≤ 32767 ∧
    0 ≤ f64Unit.units ∧ f64Unit.units ≤ f64One ∧ volumeStage State.reset (-32768) 0 ≤ 0 ∧
    0 ≤ volumeStage State.reset 32767 0 :=
  ⟨rfl, by decide, by decide, by simp, le_refl _, by decide +kernel, by decide +kernel⟩

theorem witness_PanStage :
    State.reset.panTable = Machine.panTable ∧ (-16320 : Int) ≤ -16320 ∧ (-16320 : Int) ≤ 16319 ∧
    (0x63 : Byte).toNat < 0x64 ∧ 0x47 ≤ (0x47 : Byte).toNat ∧ (0x63 : Byte).toNat ≤ 0x63 ∧
    0x64 ≤ (0x64 : Byte).toNat :=
  ⟨rfl, by decide, by decide, by decide, by decide, by decide, by decide⟩

/-- The clauses of 44 R170: a product of magnitude below 1.0 is that of row 15 of L2.7. -/
theorem witness_ZeroContributions :
    State.reset.volumeTable = Machine.volumeTable ∧ State.reset.panTable = Machine.panTable ∧
    State.reset.cfg.panOor = f64Zero ∧ 172 ≤ (172 : Byte).toNat ∧
    (f64Mul (f64OfInt (volumeStage State.reset 10000 0))
      (f64OfBits 0x3EE4F8B588E368F1)).units.natAbs < f64One ∧ 0x47 ≤ (0x47 : Byte).toNat :=
  ⟨rfl, rfl, rfl, by decide, by decide +kernel, by decide⟩

theorem witness_OutputSumsAreBounded :
    Inv pipelineState ∧ 0 ≤ pipelineState.cfg.panOor.units ∧
    pipelineState.cfg.panOor.units ≤ f64One ∧ ∃ t, portTick pipelineState = .next t :=
  ⟨pipelineState_inv, le_refl _, by decide +kernel,
    witness_TickActsOnEachVoiceAlone⟩

/-- A tie: 2^53 + 1 lies halfway between 2^53 and 2^53 + 2, and the significand of the former is even. -/
theorem witness_RoundingIsToNearestEven :
    0 < 1 ∧ f64Rounded ⟨2 ^ 53 + 2⟩ ∧ f64Round (2 ^ 53 + 1) 1 = ⟨2 ^ 53⟩ ∧
    ((2 ^ 53 + 1 : Int) - 1 * (f64Round (2 ^ 53 + 1) 1).units).natAbs =
      ((2 ^ 53 + 1 : Int) - 1 * (2 ^ 53 + 2)).natAbs := by decide +kernel

/-- The last position that does not wrap, and one past it. -/
theorem witness_PhaseAdvanceValue :
    (∃ v : Voice, ∃ p w : Nat, p = v.pos.toNat + v.step.toNat ∧
      (w : Int) = ((p : Int) - (voiceLoop v).toNat * 2 ^ 16) % 2 ^ 40 / 2 ^ 16 * 2 ^ 16 ∧
      p / 2 ^ 16 ≤ (voiceEnd v).toNat) ∧
    (∃ v : Voice, ∃ p w : Nat, p = v.pos.toNat + v.step.toNat ∧
      (w : Int) = ((p : Int) - (voiceLoop v).toNat * 2 ^ 16) % 2 ^ 40 / 2 ^ 16 * 2 ^ 16 ∧
      (voiceEnd v).toNat < p / 2 ^ 16) :=
  ⟨⟨phaseVoice 0x0010028000 0x17FFF 0x1000 0x1003 2, 0x001003FFFF, 0x0010010000, by decide⟩,
    ⟨phaseVoice 0x0010028000 0x18000 0x1000 0x1003 2, 0x0010040000, 0x0010020000, by decide⟩⟩

theorem witness_WrapLaw :
    (voiceEnd (phaseVoice 0x0010038000 0x10000 0x1000 0x1003 0x10)).toNat <
      ((phaseVoice 0x0010038000 0x10000 0x1000 0x1003 0x10).pos.toNat +
        (phaseVoice 0x0010038000 0x10000 0x1000 0x1003 0x10).step.toNat) / 2 ^ 16 := by decide

/-- The four corner cases, with rows of L2.8: a half step with loop 0, a loop longer than the index, a start
above the end, and step 0 at the end. -/
theorem witness_PhaseCornerCases :
    (let v := phaseVoice 0x0010040000 0xFFFF 0x1004 0x1003 0;
      voiceLoop v = 0 ∧ v.step.toNat < 0x10000 ∧ v.pos.toNat = ((voiceEnd v).toNat + 1) * 2 ^ 16 ∧
        (voiceStart v).toNat ≤ (voiceEnd v).toNat + 1) ∧
    (let v := phaseVoice 0x0010040000 0x10000 0x1000 0x1003 0x1006;
      0x1005 = (v.pos.toNat + v.step.toNat) / 2 ^ 16 ∧ (voiceEnd v).toNat < 0x1005 ∧
        0x1005 < (voiceLoop v).toNat ∧
        (voiceStart v).toNat ≤ 0x1005 + 2 ^ 24 - (voiceLoop v).toNat) ∧
    (let v := phaseVoice 0x0020000000 0x10000 0x2000 0x1FFF 1;
      (voiceEnd v).toNat < (voiceStart v).toNat ∧ v.pos = posOfIndex (voiceStart v) ∧
        1 ≤ (voiceLoop v).toNat ∧ (voiceLoop v).toNat ≤ (voiceStart v).toNat ∧
        v.step.toNat ≤ 0x10000) ∧
    (let v := phaseVoice 0x001003FFFF 0 0x1000 0x1003 2;
      v.step = 0 ∧ v.pos.toNat / 2 ^ 16 ≤ (voiceEnd v).toNat) := by decide

/-- The fault an outcome is, if it is one. -/
def faultOf (o : Result) : Option Fault :=
  match o with
  | .fault f => some f
  | _ => none

/-- Each of the three causes, and the ranges under which no tick and nothing faults. -/
theorem witness_StorageFaultHasThreeCauses :
    faultOf (step { faultingState with pending := [.tick] }) =
      some (.storageFault 0x4000 (.fetch 3)) ∧
    faultOf (step { withSmallStorage (withLatches 0x2000 0) with pending := [asmWr 0x0014 3] }) =
      some (.storageFault 0x4000 .extWrite) ∧
    faultOf (step { withSmallStorage (withLatches 0x2000 0) with pending := [asmRd 0x0013] }) =
      some (.storageFault 0x4000 .extRead) ∧
    2 ^ 25 ≤ State.reset.cfg.storageBytes ∧
    2 ^ 32 ≤ ({ State.reset with cfg := { State.reset.cfg with storageBytes := 2 ^ 32 } } :
      State).cfg.storageBytes := by decide +kernel

theorem witness_RefillRewritesOneByte :
    Memory.wf pipelineState.storage = true ∧ 0x1FFFFFF < pipelineState.cfg.storageBytes := by
  decide +kernel

end Sys2Proof.Machine.Tests
end

section
/-! PROOF. Rounding to the nearest binary64 number, ties to even (00_scope R11). -/

namespace Sys2Proof.Machine

/-! ## What rounding a magnitude decides -/

/-- The exact value is `m + r / d` quanta of `2 ^ k` units with `d = den * 2 ^ k`; rounding takes `m` or
`m + 1` quanta by comparing `r` with `d / 2`, and at the half it takes the even one. -/
theorem f64RoundMag_spec {num den k : Nat} (hden : 0 < den) (hk : f64Quantum (num / den) = k) :
    ∃ m r : Nat, num = den * 2 ^ k * m + r ∧ r < den * 2 ^ k ∧ (0 < k → 2 ^ 52 ≤ m) ∧
      ((f64RoundMag num den = m * 2 ^ k ∧
          (2 * r < den * 2 ^ k ∨ 2 * r = den * 2 ^ k ∧ m % 2 = 0)) ∨
        (f64RoundMag num den = (m + 1) * 2 ^ k ∧
          (den * 2 ^ k < 2 * r ∨ 2 * r = den * 2 ^ k ∧ m % 2 = 1))) := by
  subst hk
  refine ⟨num / (den * 2 ^ f64Quantum (num / den)), num % (den * 2 ^ f64Quantum (num / den)),
    (Nat.div_add_mod _ _).symm, Nat.mod_lt _ (by positivity), le_significand, ?_⟩
  simp only [f64RoundMag]
  split
  next hup => exact .inr ⟨rfl, hup⟩
  next hdown => exact .inl ⟨rfl, by omega⟩

/-! ## No binary64 number lies between two neighbours -/

/-- A magnitude above one whose significand has 53 bits has no smaller quantum. -/
theorem le_f64Quantum_of_lt {m k n : Nat} (hm : 0 < k → 2 ^ 52 ≤ m) (h : m * 2 ^ k < n) :
    k ≤ f64Quantum n := by
  rcases Nat.eq_zero_or_pos k with rfl | hk
  · exact Nat.zero_le _
  · have hpow : 2 ^ (52 + k) ≤ n := by
      rw [pow_add]; exact (Nat.mul_le_mul_right _ (hm hk)).trans h.le
    have := (Nat.le_log2 (by omega)).2 hpow
    unfold f64Quantum; omega

theorem rounded_le_or_succ_le {m k : Nat} (hm : 0 < k → 2 ^ 52 ≤ m) {y : F64} (hy : f64Rounded y) :
    y.units ≤ (m * 2 ^ k : Nat) ∨ ((m + 1) * 2 ^ k : Nat) ≤ y.units := by
  rcases le_or_gt y.units (m * 2 ^ k : Nat) with hle | hlt
  · exact .inl hle
  · right
    have hn : m * 2 ^ k < y.units.natAbs := by omega
    obtain ⟨c, hc⟩ : 2 ^ k ∣ y.units.natAbs :=
      (pow_dvd_pow 2 (le_f64Quantum_of_lt hm hn)).trans ((f64RoundMag_eq_self_iff _).1 hy)
    have hmc : m < c := by
      rw [hc, mul_comm] at hn; exact Nat.lt_of_mul_lt_mul_left hn
    have : (m + 1) * 2 ^ k ≤ y.units.natAbs := by
      rw [hc, mul_comm (2 ^ k)]; exact Nat.mul_le_mul_right _ hmc
    omega

/-! ## The nearest number -/

/-- `y` is not nearer to `num / den` than `x`, and where it is another number as near, the significand of
`x` is even. -/
def NearestEven (num : Int) (den : Nat) (x y : F64) : Prop :=
  (num - den * x.units).natAbs ≤ (num - den * y.units).natAbs ∧
    ((num - den * x.units).natAbs = (num - den * y.units).natAbs → y ≠ x →
      x.units.natAbs / 2 ^ f64Quantum (num.natAbs / den) % 2 = 0)

theorem nearestEven_neg {num : Int} {den : Nat} {x y : F64}
    (h : NearestEven num den x ⟨-y.units⟩) : NearestEven (-num) den ⟨-x.units⟩ y := by
  have hflip : ∀ u : Int, (-num - den * u).natAbs = (num - den * -u).natAbs := fun u => by
    rw [← Int.natAbs_neg]; congr 1; ring
  obtain ⟨hle, heven⟩ := h
  refine ⟨by simpa only [hflip, neg_neg] using hle, fun heq hne => ?_⟩
  simp only [hflip, neg_neg] at heq
  simp only [Int.natAbs_neg]
  refine heven heq fun hxy => hne ?_
  rw [← hxy]; cases y; simp

theorem f64Round_neg_den (num : Int) (den : Nat) :
    f64Round (-num) den = ⟨-(f64Round num den).units⟩ := by
  simp [f64Round]

/-- The case of a value that is not negative: `y` is at most the lower neighbour or at least the upper
one, and the remainder says which neighbour is nearer. -/
theorem nearestEven_f64Round_natCast (num : Nat) {den : Nat} (hden : 0 < den) {y : F64}
    (hy : f64Rounded y) : NearestEven num den (f64Round num den) y := by
  obtain ⟨m, r, hnum, hr, hm, hround⟩ := f64RoundMag_spec (num := num) hden rfl
  have hgap := rounded_le_or_succ_le hm hy
  have hx : (f64Round num den).units = f64RoundMag num den :=
    f64Round_of_nonneg (Int.natCast_nonneg _) _
  have hne : y ≠ f64Round num den → (den : Int) * y.units ≠ den * f64RoundMag num den := by
    intro hyx heq
    refine hyx (congrArg F64.mk (?_ : y.units = (f64Round num den).units))
    rw [hx]; exact Int.eq_of_mul_eq_mul_left (by omega) heq
  have hQ : 0 < 2 ^ f64Quantum (num / den) := by positivity
  rw [NearestEven, hx, Int.natAbs_natCast, Int.natAbs_natCast]
  generalize 2 ^ f64Quantum (num / den) = Q at *
  have hlow : (den : Int) * (m * Q : Nat) = (den * Q * m : Nat) := by push_cast; ring
  have hhigh : (den : Int) * ((m + 1) * Q : Nat) = (den * Q * m : Nat) + (den * Q : Nat) := by
    push_cast; ring
  have hside : (den : Int) * y.units ≤ (den * Q * m : Nat) ∨
      ((den * Q * m : Nat) + (den * Q : Nat) : Int) ≤ den * y.units := by
    rw [← hhigh, ← hlow]
    exact hgap.imp (Int.mul_le_mul_of_nonneg_left · (by omega))
      (Int.mul_le_mul_of_nonneg_left · (by omega))
  rcases hround with ⟨hmag, hcmp⟩ | ⟨hmag, hcmp⟩ <;>
    rw [hmag] at hne ⊢ <;> rw [Nat.mul_div_cancel _ hQ]
  · rw [hlow] at hne ⊢
    exact ⟨by omega, fun heq hyx => by have := hne hyx; omega⟩
  · rw [hhigh] at hne ⊢
    exact ⟨by omega, fun heq hyx => by have := hne hyx; omega⟩

theorem nearestEven_f64Round (num : Int) {den : Nat} (hden : 0 < den) {y : F64}
    (hy : f64Rounded y) : NearestEven num den (f64Round num den) y := by
  obtain ⟨n, rfl | rfl⟩ := num.eq_nat_or_neg
  · exact nearestEven_f64Round_natCast n hden hy
  · rw [f64Round_neg_den]
    refine nearestEven_neg (nearestEven_f64Round_natCast n hden ?_)
    simpa [f64Rounded] using hy

/-- Settles O55: the two neighbours of the exact value in its quantum have no binary64 number between
them, and rounding takes the nearer, at a tie the even one. -/
theorem roundingIsToNearestEven : Obligations.RoundingIsToNearestEven := by
  intro num den hden
  exact ⟨f64Round_rounded num den, fun _ hy => nearestEven_f64Round num hden hy⟩

end Sys2Proof.Machine
end

section
/-! PROOF. What one access makes of the state, what one step can make of a voice record, and the register
fields of a voice (10_state R21). -/

namespace Sys2Proof.Machine

/-! ## One access -/

/-- The records that access `i` may make of voice `n` where its record is `v`: the per-channel writes of
40 R97 to R109 and the channel control of 40 R84 to R86. -/
inductive VoiceWrite (s : State) (v : Voice) : Instr → VoiceIdx → Voice → Prop
  | startH (page ch d) : VoiceWrite s v (.wrChStarth page ch d) ch { v with startH := d }
  | startL (page ch d) : VoiceWrite s v (.wrChStartl page ch d) ch { v with startL := d }
  | freq (page ch d) : VoiceWrite s v (.wrChFreq page ch d) ch { v with freq := d, step := stepOf d }
  | endL (page ch d) : VoiceWrite s v (.wrChEndl page ch d) ch { v with endL := d }
  | endHloopH (page ch d) : VoiceWrite s v (.wrChEndhLooph page ch d) ch { v with endHloopH := d }
  | loopL (page ch d) : VoiceWrite s v (.wrChLoopl page ch d) ch { v with loopL := d }
  | pan (page ch d) : VoiceWrite s v (.wrChPan page ch d) ch { v with pan := d }
  | effect (page ch d) : VoiceWrite s v (.wrChEffect page ch d) ch { v with effect := d }
  | volume (page ch d) : VoiceWrite s v (.wrChVolume page ch d) ch { v with volume := d }
  | attack (page ch d) : VoiceWrite s v (.wrChAttack page ch d) ch { v with attack := d }
  | decay (page ch d) : VoiceWrite s v (.wrChDecay page ch d) ch { v with decay := d }
  | release (page ch d) : VoiceWrite s v (.wrChRelease page ch d) ch { v with release := d }
  | cutoff (page ch d) : VoiceWrite s v (.wrChCutoff page ch d) ch { v with cutoff := d }
  | keyOn (ch ig) : VoiceWrite s v (.wrKeyon ch ig) ch
      { v with pos := posOfIndex (voiceStart v), envPhase := .attack, envLevel := f64Zero,
               envStep := attackStep s v }
  | keyOff (ch ig) : v.envPhase ≠ .none → VoiceWrite s v (.wrKeyoff ch ig) ch
      { v with envPhase := .release, envStep := releaseStep s v }
  | mute (ch low ig) : VoiceWrite s v (.wrMute ch low ig) ch
      { v with envPhase := .none, envLevel := f64Zero, envStep := f64Zero }

/-- The states access `i` may lead to: one voice record written, one word of storage written inside its
range, or nothing but global registers and the host's answer. -/
inductive AccessEffect (s : State) (i : Instr) : State → Prop
  | voice {n : VoiceIdx} {v : Voice} :
      VoiceWrite s (voiceAt s n) i n v → AccessEffect s i (setVoice s n v)
  | stored {a : Nat} (v : Half) : a + 2 ≤ s.cfg.storageBytes → AccessEffect s i (setWord s a v)
  | latched (status : Half) (reqch : VoiceIdx) (extAddr : BitVec 32) (extData : Half)
      (lastRead : Option Half) :
      AccessEffect s i { s with status := status, reqch := reqch, extAddr := extAddr,
                                extData := extData, lastRead := lastRead }

theorem AccessEffect.refl (s : State) (i : Instr) : AccessEffect s i s := .latched _ _ _ _ _

theorem AccessEffect.answer (s : State) (i : Instr) (v : Half) : AccessEffect s i (returnRead s v) :=
  .latched _ _ _ _ _

/-- Everything an access that completes can do. -/
theorem exec_effect {i : Instr} {s t : State} (h : exec i s = .next t) : AccessEffect s i t := by
  cases i with
  | wrStatus | wrReqch | wrExtaddrLo | wrExtaddrHi | wrExtdata => cases h; exact .latched _ _ _ _ _
  | rdStatus | rdPos | rdGlobalZero | rdCh => cases h; exact .answer _ _ _
  | wrExtcmdNop | wrGlobalNop | wrChNop => cases h; exact .refl _ _
  | wrKeyon => cases h; exact .voice (.keyOn _ _)
  | wrKeyoff ch ig =>
    change execWrKeyoff ch s = _ at h
    simp only [execWrKeyoff] at h
    split at h
    · cases h; exact .refl _ _
    next hsounds =>
      cases h; exact .voice (.keyOff _ _ fun hnone => hsounds ((isSilent_iff _).2 hnone))
  | wrMute => cases h; exact .voice (.mute _ _ _)
  | wrExtwrite ig =>
    change execWrExtwrite s = _ at h
    rw [execWrExtwrite_eq] at h
    split at h
    next hin => cases h; exact .stored _ hin
    · cases h
  | rdExtdata =>
    change execRdExtdata s = _ at h
    rw [execRdExtdata_eq] at h
    split at h
    · cases h; exact .answer _ _ _
    · cases h
  | wrChStarth => cases h; exact .voice (.startH _ _ _)
  | wrChStartl => cases h; exact .voice (.startL _ _ _)
  | wrChFreq => cases h; exact .voice (.freq _ _ _)
  | wrChEndl => cases h; exact .voice (.endL _ _ _)
  | wrChEndhLooph => cases h; exact .voice (.endHloopH _ _ _)
  | wrChLoopl => cases h; exact .voice (.loopL _ _ _)
  | wrChPan => cases h; exact .voice (.pan _ _ _)
  | wrChEffect => cases h; exact .voice (.effect _ _ _)
  | wrChVolume => cases h; exact .voice (.volume _ _ _)
  | wrChAttack => cases h; exact .voice (.attack _ _ _)
  | wrChDecay => cases h; exact .voice (.decay _ _ _)
  | wrChRelease => cases h; exact .voice (.release _ _ _)
  | wrChCutoff => cases h; exact .voice (.cutoff _ _ _)

theorem serveAccess_effect {w : AccessWord} {lanes : Half} {s t : State}
    (h : serveAccess w lanes s = .next t) : AccessEffect s (decode s.cfg.chRegMap w) t := by
  unfold serveAccess at h
  split at h
  · exact exec_effect h
  · cases h

/-! ## One tick -/

/-- A tick that completes has run every voice on its own record (41 R120, R128). -/
theorem portTick_voice {s t : State} (h : portTick s = .next t) (n : VoiceIdx) :
    ∃ l r, voiceTick s n (voiceAt s n) = .ok (voiceAt t n, l, r) := by
  unfold portTick at h
  split at h
  · cases h
  next t' l r hloop =>
    cases h
    obtain ⟨-, hvoice, -⟩ := (tickLoop_ok_iff allVoices s t' 0 0 l r allVoices_nodup).1 hloop
    exact ⟨_, _, hvoice n (mem_allVoices n)⟩

/-- A tick of a voice writes `pos` and the envelope, the fields the reference engine commits (10_state R29),
and nothing else. -/
theorem voiceTick_frame {s : State} {n : VoiceIdx} {v v' : Voice} {l r : Int}
    (h : voiceTick s n v = .ok (v', l, r)) : v' = commitLocals v (loadLocals v') := by
  rcases voiceTick_cases s n v with ⟨-, e⟩ | ⟨-, -, -, e⟩ | ⟨-, -, -, e⟩ <;> rw [e] at h
  · cases h; rfl
  · injection h with h
    obtain rfl : (sounding s v _).1 = v' := congrArg Prod.fst h
    rw [sounding_frame]; rfl
  · cases h

/-! ## One step -/

/-- The requests still to serve play no part in what an access makes of a voice. -/
theorem VoiceWrite.ofPending {s : State} {q : List HostRequest} {v v' : Voice} {i : Instr}
    {n : VoiceIdx} (h : VoiceWrite { s with pending := q } v i n v') : VoiceWrite s v i n v' := by
  cases h <;> constructor
  assumption

/-- What a step in `s` may make of the record `v` of voice `n`. -/
inductive VoiceChange (s : State) (n : VoiceIdx) (v : Voice) : Voice → Prop
  | kept : VoiceChange s n v v
  | written {i : Instr} {v' : Voice} :
      nextAccess s = some i → VoiceWrite s v i n v' → VoiceChange s n v v'
  | ticked {v' : Voice} {l r : Int} :
      nextIsTick s = true → voiceTick s n v = .ok (v', l, r) → VoiceChange s n v v'
  | reset : nextIsReset s = true → VoiceChange s n v resetVoice

theorem voiceAt_of_replicate {s : State} (h : s.voices = Vector.replicate 32 resetVoice)
    (n : VoiceIdx) : voiceAt s n = resetVoice := by
  simp [voiceAt, h]

theorem AccessEffect.voiceChange {s t : State} {i : Instr} {q : List HostRequest}
    (h : AccessEffect { s with pending := q } i t) (hi : nextAccess s = some i) (n : VoiceIdx) :
    VoiceChange s n (voiceAt s n) (voiceAt t n) := by
  cases h with
  | @voice m v hw =>
    rw [voiceAt_setVoice]
    split
    next hnm => subst hnm; exact .written hi hw.ofPending
    · exact .kept
  | stored => exact .kept
  | latched => exact .kept

theorem voiceChange_of_portTick {s t : State} {q : List HostRequest}
    (h : portTick { s with pending := q } = .next t) (ht : nextIsTick s = true) (n : VoiceIdx) :
    VoiceChange s n (voiceAt s n) (voiceAt t n) := by
  obtain ⟨l, r, hv⟩ := portTick_voice h n
  have hsame := voiceTick_congr (s := s) (t := { s with pending := q }) rfl
    ⟨rfl, rfl, rfl, rfl, rfl⟩ (fun _ => rfl) n (voiceAt s n)
  exact .ticked ht (hsame.symm.trans hv)

/-- Everything a step can do to a voice. -/
theorem step_voiceChange {s t : State} (h : step s = .next t) (n : VoiceIdx) :
    VoiceChange s n (voiceAt s n) (voiceAt t n) := by
  rcases step_cases s with ⟨-, hs⟩ | ⟨q, rest, hp, hs⟩ <;> rw [hs] at h
  · cases h; exact .kept
  · cases q with
    | access w lanes => exact (serveAccess_effect h).voiceChange (by simp [nextAccess, hp]) n
    | tick => exact voiceChange_of_portTick (s := s) h (by simp [nextIsTick, hp]) n
    | block samples =>
      cases samples with
      | zero => cases h; exact .kept
      | succ k => exact voiceChange_of_portTick (s := s) h (by simp [nextIsTick, hp]) n
    | setClock hz =>
      simp only [serve, portSetClock] at h
      split at h
      · cases h
      · cases h; exact .kept
    | reset =>
      have hvoices : t.voices = Vector.replicate 32 resetVoice := by cases h; rfl
      rw [voiceAt_of_replicate hvoices]
      exact .reset (by simp [nextIsReset, hp])
    | refill a b =>
      simp only [serve, portRefill] at h
      split at h
      · cases h; exact .kept
      · cases h

/-! ## The register fields -/

/-- A field that a tick does not write, that a reset clears and that one write alone stores changes only
by these. -/
theorem changedOnlyBy_of_step {w : Nat} {s t : State} {n : VoiceIdx} {field : Voice → BitVec w}
    {write : BitVec 6 → VoiceIdx → Half → Instr} {stored : Half → BitVec w}
    (h : step s = .next t) (htick : ∀ v c, field (commitLocals v c) = field v)
    (hreset : field resetVoice = 0)
    (hwrite : ∀ {v v' i}, VoiceWrite s v i n v' →
      field v' = field v ∨ ∃ page d, i = write page n d ∧ field v' = stored d) :
    ChangedOnlyBy s t n field write stored := by
  have hchange := step_voiceChange h n
  unfold ChangedOnlyBy
  generalize voiceAt t n = v' at hchange ⊢
  cases hchange with
  | kept => exact .inl rfl
  | written hi hw =>
    rcases hwrite hw with hkept | ⟨page, d, rfl, hd⟩
    · exact .inl hkept
    · exact .inr (.inl ⟨page, d, hi, hd⟩)
  | ticked _ hv => rw [voiceTick_frame hv]; exact .inl (htick _ _)
  | reset hr => exact .inr (.inr ⟨hr, hreset⟩)

/-- Settles O26: a voice changes by one write, a tick or a reset, and of the writes only a field's own
reaches it. -/
theorem registerFieldsChangeOnlyByTheirWrites :
    Obligations.RegisterFieldsChangeOnlyByTheirWrites := by
  intro s t n h
  refine ⟨?_, ?_, ?_, ?_, ?_, ?_, ?_, ?_, ?_, ?_, ?_, ?_, ?_, ?_⟩
  all_goals
    refine changedOnlyBy_of_step h (fun _ _ => rfl) rfl fun hw => ?_
    cases hw <;> simp

end Sys2Proof.Machine
end

section
/-! PROOF. The state after reset, and the invariant of the machine (10_state R30, R31). -/

namespace Sys2Proof.Machine

/-! ## Binary64 patterns -/

/-- The magnitude a bit pattern writes: a significand of at most 53 bits in its quantum, not 0 where the
exponent is not. -/
theorem f64OfBits_units (b : BitVec 64) :
    ∃ m k : Nat, m < 2 ^ 53 ∧ (0 < (b.extractLsb' 52 11).toNat → 0 < m) ∧
      (f64OfBits b).units = if b.getLsbD 63 then -((m * 2 ^ k : Nat) : Int) else (m * 2 ^ k : Nat) := by
  have hf := (b.extractLsb' 0 52).isLt
  by_cases he : (b.extractLsb' 52 11).toNat = 0
  · exact ⟨(b.extractLsb' 0 52).toNat, 0, by omega, by omega, by
      simp only [f64OfBits, he, if_true, pow_zero, mul_one]⟩
  · exact ⟨2 ^ 52 + (b.extractLsb' 0 52).toNat, (b.extractLsb' 52 11).toNat - 1, by omega, by omega,
      by simp only [f64OfBits, he, if_false]⟩

theorem f64OfBits_rounded (b : BitVec 64) : f64Rounded (f64OfBits b) := by
  obtain ⟨m, k, hm, -, hu⟩ := f64OfBits_units b
  have habs : (f64OfBits b).units.natAbs = m * 2 ^ k := by rw [hu]; split <;> omega
  rw [f64Rounded, habs]
  exact f64RoundMag_of_significand hm.le

theorem f64OfBits_pos {b : BitVec 64} (hsign : b.getLsbD 63 = false)
    (hexp : 0 < (b.extractLsb' 52 11).toNat) : 0 < (f64OfBits b).units := by
  obtain ⟨m, k, -, hm, hu⟩ := f64OfBits_units b
  have hpos : 0 < m * 2 ^ k := Nat.mul_pos (hm hexp) (by positivity)
  rw [hu, hsign]
  exact Int.natCast_pos.2 hpos

/-! ## What a voice's envelope needs -/

/-- A step that phase `p` may have. -/
structure StepOk (p : EnvPhase) (x : F64) : Prop where
  sign : stepSignOk p x.units
  rounded : f64Rounded x

/-- The part of `VoiceOk` that is about the phase `p`, the level `l` and the step `x`. -/
structure EnvelopeOk (p : EnvPhase) (l x : F64) : Prop where
  level_nonneg : 0 ≤ l.units
  level_le_one : l.units ≤ f64One
  silent_level : p = .none → l = f64Zero
  level_rounded : f64Rounded l
  step : StepOk p x

theorem voiceOk_iff (v : Voice) :
    VoiceOk v ↔
      EnvelopeOk v.envPhase v.envLevel v.envStep ∧ v.step = stepOf v.freq ∧ v.envScale = f64Unit where
  mp h := ⟨⟨h.level_nonneg, h.level_le_one, h.silent_level, h.level_rounded,
    ⟨h.step_sign, h.step_rounded⟩⟩, h.step_of_freq, h.scale_one⟩
  mpr h := by
    obtain ⟨he, hstep, hscale⟩ := h
    exact ⟨he.level_nonneg, he.level_le_one, he.silent_level, he.step.sign, hstep, hscale,
      he.level_rounded, he.step.rounded⟩

theorem stepOk_zero (p : EnvPhase) : StepOk p f64Zero :=
  ⟨by cases p <;> simp [stepSignOk], f64Rounded_zero⟩

theorem envelopeOk_silent : EnvelopeOk .none f64Zero f64Zero :=
  ⟨le_refl _, by simp, fun _ => rfl, f64Rounded_zero, stepOk_zero _⟩

theorem voiceOk_resetVoice : VoiceOk resetVoice :=
  (voiceOk_iff _).2 ⟨envelopeOk_silent, by decide, rfl⟩

/-! ## Reset -/

theorem paramsOk_defaultParams : ParamsOk defaultParams where
  regMap := by decide
  attackRate := ⟨by decide, by decide, f64OfBits_pos (by decide) (by decide), f64OfBits_rounded _⟩
  decayRate := ⟨by decide, by decide, f64OfBits_pos (by decide) (by decide), f64OfBits_rounded _⟩
  releaseRate := ⟨by decide, by decide, f64OfBits_pos (by decide) (by decide), f64OfBits_rounded _⟩
  panOor := f64Rounded_zero

theorem voiceAt_initialState (p : Params) (c : Nat) (n : VoiceIdx) :
    voiceAt (initialState p c) n = resetVoice := voiceAt_of_replicate rfl n

theorem tablesOk_initialState (p : Params) (c : Nat) : TablesOk (initialState p c) :=
  ⟨rfl, rfl, rfl, rfl, rfl⟩

theorem inv_initialState {p : Params} {c : Nat} (hp : ParamsOk p) (hc : 384 ≤ c) :
    Inv (initialState p c) where
  params := hp
  clock := hc
  tables := tablesOk_initialState p c
  storage := ⟨rfl, fun _ hmem => nomatch hmem⟩
  voices n := by rw [voiceAt_initialState]; exact voiceOk_resetVoice

/-- Settles O45: the record after reset is silent, and the tables are those the clock builds. -/
theorem invariantHoldsAtReset : Obligations.InvariantHoldsAtReset :=
  ⟨fun _ _ => inv_initialState, inv_initialState paramsOk_defaultParams (by decide)⟩

/-- Settles O48: every voice record is `resetVoice`, whose fields are the listed values. -/
theorem stateAfterReset : Obligations.StateAfterReset := by
  refine ⟨rfl, fun p c => ⟨fun n => ?_, rfl, rfl, rfl, rfl, tablesOk_initialState p c⟩⟩
  rw [voiceAt_initialState]
  exact ⟨rfl, rfl, rfl, rfl, rfl, rfl⟩

/-! ## Step selection: the table entries have the sign of their phase (43 R153) -/

theorem buildFallTable_ok {p : EnvPhase} (hp : p = .decay ∨ p = .release) {c : RateConsts}
    (hc : RateConstsOk c) (fs : Nat) (i : Fin 0x9F) : StepOk p (buildFallTable c fs)[i] := by
  have hbase := fallBase_nonpos hc fs
  have hsign := rateEntry_nonpos hc hbase hbase i.val
  rw [buildFallTable_get]
  exact ⟨by rcases hp with rfl | rfl <;> exact hsign, rateEntry_rounded _ (f64Div_rounded _ _) _ _⟩

theorem attackStep_ok {s : State} (h : Inv s) (v : Voice) : StepOk .attack (attackStep s v) := by
  have hc := h.params.attackRate
  rw [attackStep, h.tables.attack, buildAttackTable_get]
  exact ⟨rateEntry_nonneg hc (by simp) (attackBase_nonneg hc _) _,
    rateEntry_rounded _ f64Rounded_one _ _⟩

theorem decayStep_ok {s : State} (h : Inv s) (v : Voice) : StepOk .decay (decayStep s v) := by
  unfold decayStep
  split
  · exact stepOk_zero _
  · rw [h.tables.decay]
    exact buildFallTable_ok (.inl rfl) h.params.decayRate _ _

theorem releaseStep_ok {s : State} (h : Inv s) (v : Voice) : StepOk .release (releaseStep s v) := by
  unfold releaseStep
  split
  · exact stepOk_zero _
  · rw [h.tables.release]
    exact buildFallTable_ok (.inr rfl) h.params.releaseRate _ _

/-! ## Voices -/

theorem VoiceOk.of_write {s : State} (h : Inv s) {v v' : Voice} (hv : VoiceOk v) {i : Instr}
    {n : VoiceIdx} (hw : VoiceWrite s v i n v') : VoiceOk v' := by
  rw [voiceOk_iff] at hv ⊢
  obtain ⟨henv, hstep, hscale⟩ := hv
  cases hw with
  | freq => exact ⟨henv, rfl, hscale⟩
  | keyOn =>
    have henv' : EnvelopeOk .attack f64Zero (attackStep s v) :=
      { envelopeOk_silent with silent_level := nofun, step := attackStep_ok h v }
    exact ⟨henv', hstep, hscale⟩
  | keyOff =>
    have henv' : EnvelopeOk .release v.envLevel (releaseStep s v) :=
      { henv with silent_level := nofun, step := releaseStep_ok h v }
    exact ⟨henv', hstep, hscale⟩
  | mute => exact ⟨envelopeOk_silent, hstep, hscale⟩
  | _ => exact ⟨henv, hstep, hscale⟩

/-- With a scale of 1.0 the rate is the step (10_state R29). -/
theorem VoiceOk.envRate_eq {v : Voice} (hv : VoiceOk v) : envRate v = v.envStep := by
  rw [envRate, hv.scale_one, f64Mul_one hv.step_rounded]

/-- The level moves by a step of the sign of its phase, and each boundary stops it at its end of
[0.0, 1.0] (43 R149 to R151). -/
theorem envelopeOk_envAdvance {s : State} (h : Inv s) {v : Voice} (hv : VoiceOk v)
    (hsounds : v.envPhase ≠ .none) :
    EnvelopeOk (envAdvance s v).envPhase (envAdvance s v).envLevel (envAdvance s v).envStep := by
  have hnonneg := hv.level_nonneg
  have hle := hv.level_le_one
  have hround := f64Add_rounded v.envLevel v.envStep
  have hstep : StepOk v.envPhase v.envStep := ⟨hv.step_sign, hv.step_rounded⟩
  have hadvance := envAdvance_cases s v
  rw [hv.envRate_eq] at hadvance
  rcases hadvance with ⟨hphase, -⟩ | ⟨-, -, e⟩ | ⟨hphase, hlevel, e⟩ | ⟨-, -, e⟩ |
    ⟨hphase, hlevel, e⟩
  · exact absurd hphase hsounds
  · rw [e]
    exact ⟨by simp, le_refl _, nofun, f64Rounded_one, decayStep_ok h v⟩
  · have hsign : 0 ≤ v.envStep.units := by simpa only [hphase, stepSignOk] using hv.step_sign
    have hrise := le_f64Add hv.level_rounded hsign
    rw [e]
    exact ⟨hnonneg.trans hrise, hlevel.le, fun hnone => absurd hnone hsounds, hround, hstep⟩
  · rw [e]
    exact envelopeOk_silent
  · have hsign : v.envStep.units ≤ 0 := by
      rcases hphase with hp | hp <;> simpa only [hp, stepSignOk] using hv.step_sign
    have hfall := f64Add_le hv.level_rounded hsign
    rw [e]
    exact ⟨hlevel.le, hfall.trans hle, fun hnone => absurd hnone hsounds, hround, hstep⟩

theorem VoiceOk.of_sounding {s : State} (h : Inv s) {v : Voice} (hv : VoiceOk v)
    (hsounds : v.envPhase ≠ .none) (w : Half) : VoiceOk (sounding s v w).1 := by
  rw [sounding_frame, voiceOk_iff]
  exact ⟨envelopeOk_envAdvance h hv hsounds, hv.step_of_freq, hv.scale_one⟩

theorem VoiceOk.of_voiceTick {s : State} (h : Inv s) {n : VoiceIdx} {v v' : Voice} {l r : Int}
    (hv : VoiceOk v) (ht : voiceTick s n v = .ok (v', l, r)) : VoiceOk v' := by
  rcases voiceTick_cases s n v with ⟨-, e⟩ | ⟨hskip, -, -, e⟩ | ⟨-, -, -, e⟩ <;> rw [e] at ht
  · cases ht; exact hv
  · have hsounds : v.envPhase ≠ .none := fun hnone => by
      simp [isSkipped, (isSilent_iff v).2 hnone] at hskip
    injection ht with ht
    obtain rfl : (sounding s v _).1 = v' := congrArg Prod.fst ht
    exact hv.of_sounding h hsounds _
  · cases ht

/-! ## Storage -/

theorem StorageOk.of_memWrite {s t : State} (h : StorageOk s) {a : Nat} {b : Byte}
    (ha : a < s.cfg.storageBytes) (hcfg : t.cfg = s.cfg) (ht : t.storage = memWrite s.storage a b) :
    StorageOk t where
  canonical := by rw [ht]; exact Memory.wf_memWrite h.canonical a b
  inRange c hc := by
    rw [ht] at hc
    rw [hcfg]
    rcases mem_memWrite hc with rfl | hold
    · exact ha
    · exact h.inRange c hold

theorem StorageOk.setWord {s : State} (h : StorageOk s) {a : Nat} (ha : a + 2 ≤ s.cfg.storageBytes)
    (v : Half) : StorageOk (setWord s a v) := by
  have hfirst : StorageOk { s with storage := memWrite s.storage a (firstByte s.cfg.byteOrder v) } :=
    h.of_memWrite (by omega) rfl rfl
  exact hfirst.of_memWrite (a := a + 1) (by simp; omega) rfl rfl

/-! ## The invariant through every request -/

/-- The invariant looks at the parameters, the clock, the tables, storage and the voices alone. -/
theorem Inv.congr {s t : State} (h : Inv s) (hcfg : SameConfig s t) (ht : SameTables s t)
    (hstorage : StorageOk t) (hv : ∀ n, VoiceOk (voiceAt t n)) : Inv t := by
  obtain ⟨hcfg, hclock⟩ := hcfg
  obtain ⟨hvol, hpan, har, hdr, hrr⟩ := ht
  exact
    { params := hcfg ▸ h.params
      clock := hclock ▸ h.clock
      tables := by
        constructor <;>
          simp only [hvol, hpan, har, hdr, hrr, hcfg, hclock, h.tables.volume, h.tables.pan,
            h.tables.attack, h.tables.decay, h.tables.release]
      storage := hstorage
      voices := hv }

theorem Inv.of_accessEffect {s t : State} (h : Inv s) {i : Instr} (he : AccessEffect s i t) :
    Inv t := by
  cases he with
  | voice hw => exact h.setVoice _ ((h.voices _).of_write h hw)
  | stored v ha =>
    exact h.congr ⟨rfl, rfl⟩ ⟨rfl, rfl, rfl, rfl, rfl⟩ (h.storage.setWord ha v) h.voices
  | latched =>
    exact h.congr ⟨rfl, rfl⟩ ⟨rfl, rfl, rfl, rfl, rfl⟩ ⟨h.storage.canonical, h.storage.inRange⟩
      h.voices

theorem Inv.of_portTick {s t : State} (h : Inv s) (ht : portTick s = .next t) : Inv t := by
  have hvoices : ∀ n, VoiceOk (voiceAt t n) := fun n => by
    obtain ⟨l, r, hv⟩ := portTick_voice ht n
    exact (h.voices n).of_voiceTick h hv
  rw [portTick_frame ht]
  exact h.congr ⟨rfl, rfl⟩ ⟨rfl, rfl, rfl, rfl, rfl⟩ ⟨h.storage.canonical, h.storage.inRange⟩
    hvoices

/-- Rebuilding the rate tables for the clock in force makes good what a change of clock leaves stale. -/
theorem Inv.of_buildRateTables {s t : State} (h : Inv s) (hcfg : t.cfg = s.cfg)
    (hclock : 384 ≤ t.clock) (hvol : t.volumeTable = s.volumeTable) (hpan : t.panTable = s.panTable)
    (hstorage : t.storage = s.storage) (hv : ∀ n, VoiceOk (voiceAt t n)) :
    Inv (buildRateTables t) where
  params := hcfg ▸ h.params
  clock := hclock
  tables := ⟨hvol.trans h.tables.volume, hpan.trans h.tables.pan, rfl, rfl, rfl⟩
  storage := ⟨by simpa [hstorage] using h.storage.canonical,
    by simpa [hstorage, hcfg] using h.storage.inRange⟩
  voices := hv

theorem Inv.of_serve {s t : State} (h : Inv s) {q : HostRequest} (hs : serve q s = .next t) :
    Inv t := by
  cases q with
  | access w lanes => exact h.of_accessEffect (serveAccess_effect hs)
  | tick => exact h.of_portTick hs
  | block samples =>
    cases samples with
    | zero => cases hs; exact h
    | succ k => exact (h.withPending _).of_portTick hs
  | setClock hz =>
    simp only [serve, portSetClock] at hs
    split at hs
    · cases hs
    next hclock =>
      cases hs
      exact h.of_buildRateTables rfl (Nat.not_lt.1 hclock) rfl rfl rfl h.voices
  | reset =>
    cases hs
    refine h.of_buildRateTables rfl h.clock rfl rfl rfl fun n => ?_
    rw [voiceAt_of_replicate rfl]
    exact voiceOk_resetVoice
  | refill a b =>
    simp only [serve, portRefill] at hs
    split at hs
    next ha =>
      cases hs
      exact h.congr ⟨rfl, rfl⟩ ⟨rfl, rfl, rfl, rfl, rfl⟩ (h.storage.of_memWrite ha rfl rfl) h.voices
    · cases hs

/-- Settles O44: a step is idle or serves one request, and every request keeps the invariant. -/
theorem everyStepKeepsTheInvariant : Obligations.EveryStepKeepsTheInvariant := by
  intro s t h hstep
  rcases step_cases s with ⟨-, hs⟩ | ⟨q, rest, -, hs⟩ <;> rw [hs] at hstep
  · cases hstep; exact h
  · exact (h.withPending rest).of_serve hstep

end Sys2Proof.Machine
end

section
/-! PROOF. The reference engine's rendering of a block is the ticks of the block, where these complete
(10_state R29, 41 R121, R125). -/

namespace Sys2Proof.Machine

/-! ## A sample of a voice -/

/-- The locals follow the envelope step of a tick: the cached rate is always that of the step in force
(10_state R29). -/
theorem engineEnvelope_loadLocals (s : State) (v : Voice) :
    engineEnvelope s v (loadLocals v) = loadLocals (envAdvance s v) := by
  cases hphase : v.envPhase <;>
    simp only [engineEnvelope, loadLocals, envAdvance, hphase, attackBoundary, fallBoundary]
  case none => rfl
  case attack => split <;> rfl
  case decay | release => split <;> simp [envRate]

/-- Where its word is fetched, a sample of a voice from its locals is what the voice does in a tick
(41 R122). -/
theorem engineSample_loadLocals {s : State} {n : VoiceIdx} {v : Voice} {w : Half}
    (h : fetchWord s n v = .ok w) :
    engineSample s n v (loadLocals v) = .ok (loadLocals (sounding s v w).1, (sounding s v w).2) := by
  have hread : storageRead s (.fetch n) (sampleByteAddr (posIndex (loadLocals v).pos)) = .ok w := h
  have hframe := envAdvance_frame s v
  have hvol : voiceVolume (envAdvance s v) = voiceVolume v := by rw [hframe]; rfl
  have hpanL : voicePanL (envAdvance s v) = voicePanL v := by rw [hframe]; rfl
  have hpanR : voicePanR (envAdvance s v) = voicePanR v := by rw [hframe]; rfl
  have hpos : phaseAdvance (envAdvance s v) = phaseAdvance v := by rw [hframe]; rfl
  simp only [engineSample, hread, engineEnvelope_loadLocals, sounding, hvol, hpanL, hpanR, hpos]
  rfl

/-- Of the record, a sample looks at the register fields and the scale alone. -/
theorem engineSample_commitLocals (s : State) (n : VoiceIdx) (v : Voice) (c c' : EngineLocals) :
    engineSample s n (commitLocals v c) c' = engineSample s n v c' := rfl

theorem engineSample_congr {s t : State} (hc : t.cfg = s.cfg) (ht : SameTables s t)
    (hm : t.storage = s.storage) (n : VoiceIdx) (v : Voice) (c : EngineLocals) :
    engineSample t n v c = engineSample s n v c := by
  obtain ⟨hvol, hpan, -, hdr, -⟩ := ht
  simp only [engineSample, storageRead_congr hc hm, mix_congr hc hvol hpan, engineEnvelope, decayStep,
    hc, hdr]

/-! ## The samples of a voice -/

theorem engineSamples_commitLocals (s : State) (n : VoiceIdx) (v : Voice) (c : EngineLocals) (k : Nat) :
    ∀ c', engineSamples s n (commitLocals v c) k c' = engineSamples s n v k c' := by
  induction k with
  | zero => exact fun _ => rfl
  | succ k ih => intro c'; simp only [engineSamples, engineSample_commitLocals, ih]

theorem engineSamples_congr {s t : State} (hc : t.cfg = s.cfg) (ht : SameTables s t)
    (hm : t.storage = s.storage) (n : VoiceIdx) (v : Voice) (k : Nat) :
    ∀ c, engineSamples t n v k c = engineSamples s n v k c := by
  induction k with
  | zero => exact fun _ => rfl
  | succ k ih => intro c; simp only [engineSamples, engineSample_congr hc ht hm, ih]

/-- A voice whose phase is `NONE` adds nothing for the rest of the block (41 R124). -/
theorem engineSamples_of_silent {s : State} {n : VoiceIdx} {v : Voice} {c : EngineLocals}
    (h : c.phase = .none) (k : Nat) :
    engineSamples s n v k c = .ok (c, List.replicate k (0, 0)) := by
  cases k <;> simp [engineSamples, h]

theorem engineSamples_succ {s : State} {n : VoiceIdx} {v : Voice} {k : Nat} {c c₁ c₂ : EngineLocals}
    {p : Int × Int} {ps : List (Int × Int)} (hsounds : c.phase ≠ .none)
    (hsample : engineSample s n v c = .ok (c₁, p)) (hrest : engineSamples s n v k c₁ = .ok (c₂, ps)) :
    engineSamples s n v (k + 1) c = .ok (c₂, p :: ps) := by
  simp only [engineSamples, if_neg hsounds, hsample, hrest]

/-! ## A voice in a block -/

/-- What a voice does in a block depends on storage, the tables and the parameters alone (41 R128). -/
theorem engineVoice_congr {s t : State} (hc : t.cfg = s.cfg) (ht : SameTables s t)
    (hm : t.storage = s.storage) (n : VoiceIdx) (k : Nat) (v : Voice) :
    engineVoice t n k v = engineVoice s n k v := by
  simp only [engineVoice, engineSamples_congr hc ht hm]

theorem engineVoice_setVoice (s : State) (m : VoiceIdx) (u : Voice) (n : VoiceIdx) (k : Nat) (v : Voice) :
    engineVoice (setVoice s m u) n k v = engineVoice s n k v :=
  engineVoice_congr (s := s) (t := setVoice s m u) rfl ⟨rfl, rfl, rfl, rfl, rfl⟩ rfl n k v

theorem engineVoice_emitPair (s : State) (l r : Int) (n : VoiceIdx) (k : Nat) (v : Voice) :
    engineVoice (emitPair s l r) n k v = engineVoice s n k v :=
  engineVoice_congr (s := s) (t := emitPair s l r) rfl ⟨rfl, rfl, rfl, rfl, rfl⟩ rfl n k v

theorem engineVoice_zero (s : State) (n : VoiceIdx) (v : Voice) : engineVoice s n 0 v = .ok (v, []) := by
  unfold engineVoice
  split <;> rfl

theorem engineVoice_of_skipped {s : State} {n : VoiceIdx} {v : Voice} (h : isSkipped v = true)
    (k : Nat) : engineVoice s n k v = .ok (v, List.replicate k (0, 0)) := by
  unfold engineVoice
  split
  · rfl
  next hdeg =>
    have hnone : v.envPhase = .none := (isSilent_iff v).1 (by simpa [isSkipped, hdeg] using h)
    rw [engineSamples_of_silent (c := loadLocals v) hnone]
    rfl

theorem engineVoice_eq_ok_iff {s : State} {n : VoiceIdx} {k : Nat} {v v' : Voice}
    {ps : List (Int × Int)} (hdeg : isDegenerate v = false) :
    engineVoice s n k v = .ok (v', ps) ↔
      ∃ c, engineSamples s n v k (loadLocals v) = .ok (c, ps) ∧ v' = commitLocals v c := by
  simp only [engineVoice, hdeg, Bool.false_eq_true, if_false]
  cases engineSamples s n v k (loadLocals v) with
  | error f => simp
  | ok p => obtain ⟨c, qs⟩ := p; simp [and_comm, eq_comm]

/-- A voice in a block of `k + 1` is its tick, then the voice in a block of `k`. -/
theorem engineVoice_succ {s : State} {n : VoiceIdx} {k : Nat} {v v₁ v₂ : Voice} {l r : Int}
    {ps : List (Int × Int)} (htick : voiceTick s n v = .ok (v₁, l, r))
    (hrest : engineVoice s n k v₁ = .ok (v₂, ps)) :
    engineVoice s n (k + 1) v = .ok (v₂, (l, r) :: ps) := by
  have hframe := voiceTick_frame htick
  rcases voiceTick_cases s n v with ⟨hskip, e⟩ | ⟨hskip, -, hin, e⟩ | ⟨-, -, -, e⟩ <;>
    rw [e] at htick
  · cases htick
    rw [engineVoice_of_skipped hskip] at hrest ⊢
    cases hrest
    rfl
  · obtain ⟨hdeg, hsilent⟩ := Bool.or_eq_false_iff.1 hskip
    have hsounds : v.envPhase ≠ .none := fun hnone => by
      rw [(isSilent_iff v).2 hnone] at hsilent; cases hsilent
    have hsample := engineSample_loadLocals (storageRead_of_inside (op := .fetch n) hin)
    rw [Except.ok.inj htick] at hsample
    have hdeg₁ : isDegenerate v₁ = false := by rw [hframe]; exact hdeg
    obtain ⟨c, hc, rfl⟩ := (engineVoice_eq_ok_iff hdeg₁).1 hrest
    refine (engineVoice_eq_ok_iff hdeg).2 ⟨c, engineSamples_succ hsounds hsample ?_, ?_⟩
    · rw [← hc, hframe, engineSamples_commitLocals]
    · rw [hframe]; rfl
  · cases htick

/-! ## All voices in a block -/

theorem setVoice_voiceAt (s : State) (n : VoiceIdx) : setVoice s n (voiceAt s n) = s := by
  have hv : (setVoice s n (voiceAt s n)).voices = s.voices := voices_ext fun m => by
    rw [voiceAt_setVoice]
    split
    next h => rw [h]
    · rfl
  exact congrArg (fun vs => { s with voices := vs }) hv

theorem setVoice_setVoice (s : State) (n : VoiceIdx) (v w : Voice) :
    setVoice (setVoice s n v) n w = setVoice s n w := by
  simp [setVoice]

theorem setVoice_comm (s : State) {m n : VoiceIdx} (h : m ≠ n) (v w : Voice) :
    setVoice (setVoice s m v) n w = setVoice (setVoice s n w) m v := by
  have hmn : m.toNat ≠ n.toNat := fun e => h (BitVec.eq_of_toNat_eq e)
  simp only [setVoice, Vector.set_comm _ _ hmn]

/-- The ticks of the voices of a list leave a voice outside it as it was. -/
theorem voiceAt_after_tickLoop {order : List VoiceIdx} {s t : State} {l r l' r' : Int}
    (hnd : order.Nodup) {n : VoiceIdx} (hn : n ∉ order)
    (h : tickLoop s l r order = .ok (t, l', r')) : voiceAt t n = voiceAt s n := by
  obtain ⟨-, -, hkept, -⟩ := (tickLoop_ok_iff order s t l r l' r' hnd).1 h
  exact hkept n hn

theorem engineVoice_after_tickLoop {order : List VoiceIdx} {s t : State} {l r l' r' : Int}
    (h : tickLoop s l r order = .ok (t, l', r')) (n : VoiceIdx) (k : Nat) (v : Voice) :
    engineVoice t n k v = engineVoice s n k v := by
  rw [tickLoop_frame order h]
  exact engineVoice_congr (s := s) (t := { s with voices := t.voices }) rfl
    ⟨rfl, rfl, rfl, rfl, rfl⟩ rfl n k v

/-- The ticks of the voices of a list do not look at the record of a voice outside it. -/
theorem tickLoop_setVoice {m : VoiceIdx} (u : Voice) : ∀ {order : List VoiceIdx} {s t : State}
    {l r l' r' : Int}, m ∉ order → tickLoop s l r order = .ok (t, l', r') →
    tickLoop (setVoice s m u) l r order = .ok (setVoice t m u, l', r') := by
  intro order
  induction order with
  | nil => intro s t l r l' r' _ h; cases h; rfl
  | cons n rest ih =>
    intro s t l r l' r' hm h
    obtain ⟨hmn, hm⟩ := not_or.1 (List.mem_cons.not.1 hm)
    simp only [tickLoop] at h ⊢
    rw [voiceTick_setVoice, voiceAt_setVoice_of_ne (Ne.symm hmn)]
    split at h
    · cases h
    · rw [setVoice_comm s hmn]
      exact ih hm h

theorem engineLoop_zero (s : State) (order : List VoiceIdx) :
    engineLoop 0 s [] order = .ok (s, []) := by
  induction order with
  | nil => rfl
  | cons n rest ih => simp only [engineLoop, engineVoice_zero, setVoice_voiceAt, addBuffers,
      List.zipWith_nil_left, ih]

/-- The engine's loop of a block of `k + 1` is the loop of a tick, whose sums are the first pair of the
buffers, then the engine's loop of a block of `k`. -/
theorem engineLoop_succ {k : Nat} : ∀ {order : List VoiceIdx} {s s₁ t : State} {l r l' r' : Int}
    {buffer buffer' : List (Int × Int)}, order.Nodup →
    tickLoop s l r order = .ok (s₁, l', r') →
    engineLoop k s₁ buffer order = .ok (t, buffer') →
    engineLoop (k + 1) s ((l, r) :: buffer) order = .ok (t, (l', r') :: buffer') := by
  intro order
  induction order with
  | nil => intro s s₁ t l r l' r' buffer buffer' _ hticks hrest; cases hticks; cases hrest; rfl
  | cons n rest ih =>
    intro s s₁ t l r l' r' buffer buffer' hnd hticks hrest
    obtain ⟨hn, hnd⟩ := List.nodup_cons.1 hnd
    simp only [tickLoop] at hticks
    split at hticks
    · cases hticks
    next v₁ dl dr htick =>
      simp only [engineLoop, voiceAt_after_tickLoop hnd hn hticks,
        engineVoice_after_tickLoop hticks, voiceAt_setVoice_self, engineVoice_setVoice] at hrest
      split at hrest
      · cases hrest
      next v₂ ps hvoice =>
        have hticks₂ := tickLoop_setVoice v₂ hn hticks
        rw [setVoice_setVoice] at hticks₂
        simp only [engineLoop, engineVoice_succ htick hvoice]
        exact ih hnd hticks₂ hrest

/-! ## The block -/

/-- The engine's loop does not look at what has been emitted. -/
theorem engineLoop_emitPair (k : Nat) (l r : Int) : ∀ {order : List VoiceIdx} {s t : State}
    {buffer buffer' : List (Int × Int)},
    engineLoop k (emitPair s l r) buffer order = .ok (t, buffer') →
    ∃ u, t = emitPair u l r ∧ engineLoop k s buffer order = .ok (u, buffer') := by
  intro order
  induction order with
  | nil => intro s t buffer buffer' h; cases h; exact ⟨s, rfl, rfl⟩
  | cons n rest ih =>
    intro s t buffer buffer' h
    simp only [engineLoop, engineVoice_emitPair, voiceAt_emitPair] at h ⊢
    split at h
    · cases h
    next v ps _ => exact ih (s := setVoice s n v) h

theorem renderBlock_zero (s : State) : renderBlock 0 s = .next s := by
  simp [renderBlock, engineLoop_zero]

/-- A block of `k + 1` is rendered as a tick and a block of `k`. -/
theorem renderBlock_succ {k : Nat} {s s₁ t : State} (htick : portTick s = .next s₁)
    (hrest : renderBlock k s₁ = .next t) : renderBlock (k + 1) s = .next t := by
  unfold portTick at htick
  unfold renderBlock at hrest
  split at htick
  · cases htick
  next s' l r hticks =>
    cases htick
    split at hrest
    · cases hrest
    next t' ps hloop =>
      cases hrest
      obtain ⟨u, rfl, hengine⟩ := engineLoop_emitPair k l r hloop
      have hblock := engineLoop_succ allVoices_nodup hticks hengine
      simp only [renderBlock, List.replicate_succ, hblock, emitPair, List.append_assoc,
        List.cons_append, List.nil_append]

/-- Settles O34, by induction on the number of samples: a block of `k + 1` is a tick and a block of `k`, for
the ticks by definition and for the engine by `renderBlock_succ`. -/
theorem blockRenderingEqualsTicking : Obligations.BlockRenderingEqualsTicking := by
  intro k
  induction k with
  | zero => intro s t h; cases h; exact renderBlock_zero s
  | succ k ih =>
    intro s t h
    simp only [runTicks] at h
    split at h
    next s₁ htick => exact renderBlock_succ htick (ih s₁ t h)
    · cases h
    · cases h

end Sys2Proof.Machine
end

section
/-! PROOF. What a step serves (20_memory R55), the external-memory sequences run to their end (30_encoding
R78), the refill of a byte (20_memory R58), and the order of the voices in a tick (20_memory R56). -/

namespace Sys2Proof.Machine

/-! ## The next request -/

/-- A step with a request in the queue serves it. -/
theorem step_of_pending {s : State} {q : HostRequest} {rest : List HostRequest}
    (h : s.pending = q :: rest) : step s = serve q { s with pending := rest } := by
  simp only [step, h]

theorem step_of_idle {s : State} (h : s.pending = []) : step s = .next s := by
  simp only [step, h]

/-- An access that uses all 16 lanes is the instruction its word decodes to (30_encoding R63). -/
theorem serve_access_fullLanes (w : AccessWord) (s : State) :
    serve (.access w fullLanes) s = exec (decode s.cfg.chRegMap w) s := by
  rw [serve, serveAccess, if_pos rfl]

/-- Settles O8: the request at the head of the queue is the one served, form by form. -/
theorem stepRunsTheDecodedAccess : Obligations.StepRunsTheDecodedAccess := by
  intro s rest
  refine ⟨fun w h => ?access, ?tick, fun c h => ?setClock, ?reset, fun a b h => ?refill, ?noBlock,
    fun k h => ?block, step_of_idle⟩
  case access => rw [step_of_pending h, serve_access_fullLanes]
  case setClock | refill | block => exact step_of_pending h
  case tick | reset | noBlock => exact step_of_pending

/-! ## The external-memory accesses -/

/-- A write at a global offset, as the assembler writes it. -/
theorem serve_asmWr_global {offset : Half} (h : offset.toNat < 0x400) (data : Half) (s : State) :
    serve (asmWr offset data) s = exec (decodeGlobalWrite offset data) s := by
  rw [asmWr, serve_access_fullLanes, decode_accessWord, decodeAccess_globalWrite _ h]

/-- A read at a global offset, as the assembler writes it. -/
theorem serve_asmRd_global {offset : Half} (h : offset.toNat < 0x400) (s : State) :
    serve (asmRd offset) s = exec (decodeGlobalRead offset) s := by
  rw [asmRd, serve_access_fullLanes, decode_accessWord, decodeAccess_globalRead _ h]

theorem serve_extAddrLo (data : Half) (s : State) :
    serve (asmWr 0x0011 data) s =
      .next { s with extAddr := s.extAddr.extractLsb' 16 16 ++ data } :=
  serve_asmWr_global (by decide) data s

theorem serve_extAddrHi (data : Half) (s : State) :
    serve (asmWr 0x0012 data) s =
      .next { s with extAddr := data ++ s.extAddr.extractLsb' 0 16 } :=
  serve_asmWr_global (by decide) data s

theorem serve_extData (data : Half) (s : State) :
    serve (asmWr 0x0013 data) s = .next { s with extData := data } :=
  serve_asmWr_global (by decide) data s

/-- The byte address of the port on numbers (20_memory R48). -/
theorem extByteAddr_toNat (s : State) : (extByteAddr s).toNat = s.extAddr.toNat * 2 % 2 ^ 32 := by
  simp [extByteAddr, BitVec.toNat_shiftLeft, Nat.shiftLeft_eq]

/-- The commit, where the latched word lies inside storage (40 R92). -/
theorem serve_extWrite {s : State} (h : (extByteAddr s).toNat + 2 ≤ s.cfg.storageBytes) :
    serve (asmWr 0x0014 0x0003) s = .next (setWord s (extByteAddr s).toNat s.extData) := by
  have hcommit : serve (asmWr 0x0014 0x0003) s = execWrExtwrite s :=
    serve_asmWr_global (by decide) 0x0003 s
  rw [hcommit, execWrExtwrite_eq, if_pos h]

/-- The data read, where the latched word lies inside storage (40 R94). -/
theorem serve_extRead {s : State} (h : (extByteAddr s).toNat + 2 ≤ s.cfg.storageBytes) :
    serve (asmRd 0x0013) s = .next (returnRead s (wordAt s (extByteAddr s).toNat)) := by
  have hread : serve (asmRd 0x0013) s = execRdExtdata s := serve_asmRd_global (by decide) s
  rw [hread, execRdExtdata_eq, if_pos h]

/-! ## The external-memory sequences (30_encoding R78) -/

/-- A run serves the first request, then goes on from where that leads. -/
theorem run_succ_of_serve {s t : State} {q : HostRequest} {rest : List HostRequest} (k : Nat)
    (hp : s.pending = q :: rest) (hs : serve q { s with pending := rest } = .next t) :
    Host.Core.run Sys2Proof.core (k + 1) s = Host.Core.run Sys2Proof.core k t := by
  have hstep : Sys2Proof.core.step s = .next t := (step_of_pending hp).trans hs
  simp only [Host.Core.run, hstep]

/-- The half an address keeps from before is the one the high write replaces. -/
theorem extAddr_halves (a old : BitVec 32) :
    a.extractLsb' 16 16 ++ (old.extractLsb' 16 16 ++ a.extractLsb' 0 16 : BitVec 32).extractLsb' 0 16 =
      a := by
  rw [BitVec.extractLsb'_append_eq_right, BitVec.extractLsb'_append_extractLsb']

/-- The two writes with which both sequences begin latch the address. -/
theorem run_latchAddress {s : State} {a : BitVec 32} {rest : List HostRequest} (k : Nat)
    (hp : s.pending =
      asmWr 0x0011 (a.extractLsb' 0 16) :: asmWr 0x0012 (a.extractLsb' 16 16) :: rest) :
    Host.Core.run Sys2Proof.core (k + 2) s =
      Host.Core.run Sys2Proof.core k { s with pending := rest, extAddr := a } := by
  rw [run_succ_of_serve (k + 1) hp (serve_extAddrLo _ _),
    run_succ_of_serve k rfl (serve_extAddrHi _ _), extAddr_halves]

/-- EXTWR latches the address and the word and commits the word to storage. -/
theorem run_asmExtWr {s : State} {a : BitVec 32} {v : Half} {rest : List HostRequest} (k : Nat)
    (ha : a.toNat * 2 % 2 ^ 32 + 2 ≤ s.cfg.storageBytes) (hp : s.pending = asmExtWr a v ++ rest) :
    Host.Core.run Sys2Proof.core (k + 4) s =
      Host.Core.run Sys2Proof.core k
        (setWord { s with pending := rest, extAddr := a, extData := v } (a.toNat * 2 % 2 ^ 32) v) := by
  rw [run_latchAddress (k + 2) hp, run_succ_of_serve (k + 1) rfl (serve_extData _ _),
    run_succ_of_serve k rfl (serve_extWrite (by rwa [extByteAddr_toNat])), extByteAddr_toNat]
  rfl

/-- EXTRD latches the address and answers the word of storage at it. -/
theorem run_asmExtRd {s : State} {a : BitVec 32} {rest : List HostRequest} (k : Nat)
    (ha : a.toNat * 2 % 2 ^ 32 + 2 ≤ s.cfg.storageBytes) (hp : s.pending = asmExtRd a ++ rest) :
    Host.Core.run Sys2Proof.core (k + 3) s =
      Host.Core.run Sys2Proof.core k
        (returnRead { s with pending := rest, extAddr := a } (wordAt s (a.toNat * 2 % 2 ^ 32))) := by
  rw [run_latchAddress (k + 1) hp,
    run_succ_of_serve k rfl (serve_extRead (by rwa [extByteAddr_toNat])), extByteAddr_toNat]
  rfl

/-- Settles O17: EXTWR leaves the word in storage (`run_asmExtWr`), and EXTRD of the same address answers
what storage holds there (`run_asmExtRd`), which is the word (`wordAt_setWord`). -/
theorem externalWriteIsReadBack : Obligations.ExternalWriteIsReadBack := by
  intro s a v rest hm ha hp
  have hrun : Host.Core.run Sys2Proof.core 7 s = .next _ :=
    (run_asmExtWr 3 ha (hp.trans (List.append_assoc ..))).trans (run_asmExtRd 0 ha rfl)
  refine ⟨_, hrun, ?_, rfl, rfl, rfl, rfl, rfl, fun _ => rfl, ⟨rfl, rfl⟩, ⟨rfl, rfl, rfl, rfl, rfl⟩,
    rfl, fun b hfirst hsecond => ?_⟩
  · exact congrArg some (wordAt_setWord hm _ v)
  · exact (memRead_setWord hm _ v b).trans ((if_neg hsecond).trans (if_neg hfirst))

/-! ## A refill -/

/-- Settles O60: a refill is one write of a byte of storage, and a byte reads after it as
`memRead_memWrite` says. -/
theorem refillRewritesOneByte : Obligations.RefillRewritesOneByte := by
  intro s a b hm ha
  have hread := memRead_memWrite hm a b
  refine ⟨_, if_pos ha, ?_, fun c hc => ?_, fun _ => rfl, ⟨rfl, rfl, rfl, rfl⟩, ⟨rfl, rfl⟩,
    ⟨rfl, rfl, rfl, rfl, rfl⟩, ⟨rfl, rfl, rfl⟩⟩
  · rw [hread, if_pos rfl]
  · rw [hread, if_neg hc]

/-! ## The order of the voices -/

/-- A tick processes the voices in index order. -/
theorem allVoices_toNat : allVoices.map BitVec.toNat = List.range 32 := by decide

/-- What the loop of a tick does where it completes is said by membership in its list and by sums over it
(`tickLoop_ok_iff`), and a permutation keeps both. -/
theorem tickLoop_of_perm {order order' : List VoiceIdx} (hperm : order'.Perm order)
    (hnd : order.Nodup) {s t : State} {l r l' r' : Int}
    (h : tickLoop s l r order = .ok (t, l', r')) : tickLoop s l r order' = .ok (t, l', r') := by
  obtain ⟨hframe, hticked, hkept, hl, hr⟩ := (tickLoop_ok_iff order s t l r l' r' hnd).1 h
  refine (tickLoop_ok_iff order' s t l r l' r' (hperm.nodup_iff.2 hnd)).2 ⟨hframe, ?_, ?_, ?_, ?_⟩
  · exact fun n hn => hticked n (hperm.mem_iff.1 hn)
  · exact fun n hn => hkept n (mt hperm.mem_iff.2 hn)
  · rw [hl, (hperm.map _).sum_eq]
  · rw [hr, (hperm.map _).sum_eq]

/-- Settles O29: `allVoices` lists no voice twice, so `tickLoop_of_perm` speaks of it. -/
theorem tickDoesNotDependOnVoiceOrder : Obligations.TickDoesNotDependOnVoiceOrder :=
  ⟨allVoices_toNat, fun _ _ _ _ _ hperm => tickLoop_of_perm hperm allVoices_nodup⟩

end Sys2Proof.Machine
end

section
/-! PROOF. The decoder and the encoder are inverse up to a read's data bits, and what an access does
depends on the fields its command names alone (30_encoding R60 to R74). -/

namespace Sys2Proof

/-! ## Decoding an encoding -/

/-- Settles O1: the round trip of each access kind, one constructor at a time. -/
theorem decodeOfEncodeIsIdentity : Obligations.DecodeOfEncodeIsIdentity := by
  intro i m hm hi
  cases i with
  | wrStatus => exact Laws.RoundTrip.wrStatus _ m hm hi
  | rdStatus => exact Laws.RoundTrip.rdStatus m hm hi
  | wrKeyon => exact Laws.RoundTrip.wrKeyon _ _ m hm hi
  | wrKeyoff => exact Laws.RoundTrip.wrKeyoff _ _ m hm hi
  | wrMute => exact Laws.RoundTrip.wrMute _ _ _ m hm hi
  | wrReqch => exact Laws.RoundTrip.wrReqch _ _ m hm hi
  | rdPos => exact Laws.RoundTrip.rdPos m hm hi
  | wrExtaddrLo => exact Laws.RoundTrip.wrExtaddrLo _ m hm hi
  | wrExtaddrHi => exact Laws.RoundTrip.wrExtaddrHi _ m hm hi
  | wrExtdata => exact Laws.RoundTrip.wrExtdata _ m hm hi
  | wrExtwrite => exact Laws.RoundTrip.wrExtwrite _ m hm hi
  | wrExtcmdNop => exact Laws.RoundTrip.wrExtcmdNop _ _ m hm hi
  | rdExtdata => exact Laws.RoundTrip.rdExtdata m hm hi
  | wrGlobalNop => exact Laws.RoundTrip.wrGlobalNop _ _ m hm hi
  | rdGlobalZero => exact Laws.RoundTrip.rdGlobalZero _ m hm hi
  | wrChStarth => exact Laws.RoundTrip.wrChStarth _ _ _ m hm hi
  | wrChStartl => exact Laws.RoundTrip.wrChStartl _ _ _ m hm hi
  | wrChFreq => exact Laws.RoundTrip.wrChFreq _ _ _ m hm hi
  | wrChEndl => exact Laws.RoundTrip.wrChEndl _ _ _ m hm hi
  | wrChEndhLooph => exact Laws.RoundTrip.wrChEndhLooph _ _ _ m hm hi
  | wrChLoopl => exact Laws.RoundTrip.wrChLoopl _ _ _ m hm hi
  | wrChPan => exact Laws.RoundTrip.wrChPan _ _ _ m hm hi
  | wrChEffect => exact Laws.RoundTrip.wrChEffect _ _ _ m hm hi
  | wrChVolume => exact Laws.RoundTrip.wrChVolume _ _ _ m hm hi
  | wrChAttack => exact Laws.RoundTrip.wrChAttack _ _ _ m hm hi
  | wrChDecay => exact Laws.RoundTrip.wrChDecay _ _ _ m hm hi
  | wrChRelease => exact Laws.RoundTrip.wrChRelease _ _ _ m hm hi
  | wrChCutoff => exact Laws.RoundTrip.wrChCutoff _ _ _ m hm hi
  | wrChNop => exact Laws.RoundTrip.wrChNop _ _ _ _ m hm hi
  | rdCh => exact Laws.RoundTrip.rdCh _ _ _ m hm hi

/-! ## The data fields of a command put together again -/

theorem reqch_fields (d : Half) : (d.extractLsb' 5 11 ++ dataVoice d : Half) = d :=
  BitVec.extractLsb'_append_extractLsb'

theorem extCommandData_fields (d : Half) :
    extCommandData (d.extractLsb' 2 14) (dataExtCommand d) = d :=
  BitVec.extractLsb'_append_extractLsb'

theorem channelControlData_fields (d : Half) :
    channelControlData (d.extractLsb' 7 9) (dataChannelCommand d) (dataVoice d) = d := by
  have hupper : d.extractLsb' 7 9 ++ dataChannelCommand d = d.extractLsb' 5 11 :=
    BitVec.extractLsb'_append_extractLsb'_eq_extractLsb' rfl
  rw [channelControlData, hupper, reqch_fields]

/-- A command that is neither key-on nor key-off has bit 6 clear, and bit 5 is its low bit (R67). -/
theorem muteCommand_fields {d : Half} (hon : dataChannelCommand d ≠ 0b11)
    (hoff : dataChannelCommand d ≠ 0b10) :
    (0 : BitVec 1) ++ d.extractLsb' 5 1 = dataChannelCommand d := by
  have hlow : d.extractLsb' 5 1 = (dataChannelCommand d).extractLsb' 0 1 := by
    apply BitVec.eq_of_getLsbD_eq
    intro i hi
    simp [dataChannelCommand, show i = 0 by omega]
  rw [hlow]
  revert hon hoff
  generalize dataChannelCommand d = c
  revert c
  decide

/-! ## Encoding a reading -/

/-- `i` is a reading of the access word `w`: its operands are in range and its encoding is `w`. -/
def IsReading (m : ChRegMap) (w : AccessWord) (i : Instr) : Prop :=
  i.wellFormed m = true ∧ encode m i = w

theorem isReading_decodeChannelControl (m : ChRegMap) (d : Half) :
    IsReading m (accessWord true 0x001 d) (decodeChannelControl d) := by
  have hd := channelControlData_fields d
  unfold decodeChannelControl
  split
  next hon => exact ⟨rfl, by rw [encode, ← hon, hd]⟩
  next hon =>
    split
    next hoff => exact ⟨rfl, by rw [encode, ← hoff, hd]⟩
    next hoff => exact ⟨rfl, by rw [encode, muteCommand_fields hon hoff, hd]⟩

theorem isReading_decodeExtCommand (m : ChRegMap) (d : Half) :
    IsReading m (accessWord true 0x014 d) (decodeExtCommand d) := by
  have hd := extCommandData_fields d
  unfold decodeExtCommand
  split
  next hcommit => exact ⟨rfl, by rw [encode, ← hcommit, hd]⟩
  next hcommit => exact ⟨decide_eq_true hcommit, by rw [encode, hd]⟩

theorem isReading_decodeGlobalWrite (m : ChRegMap) {o : Half} (ho : isGlobalOffset o) (d : Half) :
    IsReading m (accessWord true o d) (decodeGlobalWrite o d) := by
  unfold decodeGlobalWrite
  split_ifs with h0 h1 h8 h11 h12 h13 h14
  case neg =>
    refine ⟨decide_eq_true ⟨ho, ?_⟩, rfl⟩
    simp only [writtenGlobals, List.mem_cons, List.not_mem_nil, *, or_self, not_false_eq_true]
  all_goals subst o
  · exact ⟨rfl, rfl⟩
  · exact isReading_decodeChannelControl m d
  · exact ⟨rfl, by rw [encode, reqch_fields]⟩
  · exact ⟨rfl, rfl⟩
  · exact ⟨rfl, rfl⟩
  · exact ⟨rfl, rfl⟩
  · exact isReading_decodeExtCommand m d

theorem isReading_decodeGlobalRead (m : ChRegMap) {o : Half} (ho : isGlobalOffset o) :
    IsReading m (accessWord false o 0) (decodeGlobalRead o) := by
  unfold decodeGlobalRead
  split_ifs with h0 h9 h13
  case neg =>
    refine ⟨decide_eq_true ⟨ho, ?_⟩, rfl⟩
    simp only [readGlobals, List.mem_cons, List.not_mem_nil, *, or_self, not_false_eq_true]
  all_goals subst o; exact ⟨rfl, rfl⟩

theorem isReading_decodeChannelWrite {m : ChRegMap} (hm : m.wf) {page : BitVec 6}
    (hp : isChannelPage page) (ch : VoiceIdx) (reg : RegNum) (d : Half) :
    IsReading m (encodeChannelWrite page ch reg d) (decodeChannelWrite m page ch reg d) := by
  obtain ⟨hstartH, hstartL, hfreq, hendL, hendHloopH, hloopL, hpan, heffect, hvolume, hattack, hdecay,
    hrelease, hcutoff⟩ := Laws.decodeChannelWrite_cases m hm page ch d
  by_cases hreg : reg ∈ chRegMapNumbers m
  · simp only [chRegMapNumbers, List.mem_cons, List.not_mem_nil, or_false] at hreg
    rcases hreg with rfl | rfl | rfl | rfl | rfl | rfl | rfl | rfl | rfl | rfl | rfl | rfl | rfl
    all_goals
      simp only [hstartH, hstartL, hfreq, hendL, hendHloopH, hloopL, hpan, heffect, hvolume, hattack,
        hdecay, hrelease, hcutoff]
      exact ⟨decide_eq_true hp, rfl⟩
  · rw [Laws.decodeChannelWrite_unlisted m hreg]
    exact ⟨decide_eq_true ⟨hp, hreg⟩, rfl⟩

/-! ## Per-channel offsets -/

/-- Offset bits 15:10 of an offset at or above 0x400 are not all zero (R61). -/
theorem isChannelPage_offsetPage {o : Half} (h : ¬ o.toNat < 0x400) : isChannelPage (offsetPage o) := by
  rwa [← channelOffset_fields o, channelOffset_lt_iff] at h

theorem decodeAccess_channel (m : ChRegMap) {o : Half} (h : ¬ o.toNat < 0x400) (write : Bool)
    (d : Half) :
    decodeAccess m write o d =
      if write then decodeChannelWrite m (offsetPage o) (offsetChannel o) (offsetReg o) d
      else .rdCh (offsetPage o) (offsetChannel o) (offsetReg o) := if_neg h

theorem isReading_decodeAccess {m : ChRegMap} (hm : m.wf) (write : Bool) (o d : Half) :
    IsReading m (accessWord write o (if write then d else 0)) (decodeAccess m write o d) := by
  by_cases ho : o.toNat < 0x400
  · cases write with
    | true => rw [decodeAccess_globalWrite m ho]; exact isReading_decodeGlobalWrite m ho d
    | false => rw [decodeAccess_globalRead m ho]; exact isReading_decodeGlobalRead m ho
  · have hpage := isChannelPage_offsetPage ho
    have hfields := channelOffset_fields o
    rw [decodeAccess_channel m ho]
    cases write with
    | true =>
      have hread := isReading_decodeChannelWrite hm hpage (offsetChannel o) (offsetReg o) d
      rwa [encodeChannelWrite, hfields] at hread
    | false => exact ⟨decide_eq_true hpage, by simp [encode, hfields]⟩

/-- Settles O2: the decoder's answer is a reading of the word it was given, a read's data bits cleared
(`isReading_decodeAccess`). -/
theorem encodeOfDecodeKeepsAWriteAndClearsReadData :
    Obligations.EncodeOfDecodeKeepsAWriteAndClearsReadData := by
  intro m w hm
  obtain ⟨hwf, henc⟩ := isReading_decodeAccess hm (accessIsWrite w) (accessOffset w) (accessData w)
  refine ⟨hwf, henc.trans ?_⟩
  split
  next hw => simpa [hw] using accessWord_fields w
  next hw => simp [hw]

/-! ## Sample words -/

/-- Settles O6: each word is evaluated. -/
theorem sampleWordsDecode : Obligations.SampleWordsDecode :=
  ⟨by decide, by decide, by decide, by decide, by decide, by decide, by decide, by decide, by decide⟩

/-! ## The fields of an offset and of a command on numbers -/

theorem offsetPage_toNat (o : Half) : (offsetPage o).toNat = o.toNat / 2 ^ 10 := by
  have := o.isLt
  rw [offsetPage, BitVec.extractLsb'_toNat, Nat.shiftRight_eq_div_pow]; omega

theorem offsetChannel_toNat (o : Half) : (offsetChannel o).toNat = o.toNat / 2 ^ 5 % 32 := by
  rw [offsetChannel, BitVec.extractLsb'_toNat, Nat.shiftRight_eq_div_pow]

theorem offsetReg_toNat (o : Half) : (offsetReg o).toNat = o.toNat % 32 := by
  rw [offsetReg, BitVec.extractLsb'_toNat, Nat.shiftRight_eq_div_pow, pow_zero, Nat.div_one]

theorem dataVoice_toNat (d : Half) : (dataVoice d).toNat = d.toNat % 32 := by
  rw [dataVoice, BitVec.extractLsb'_toNat, Nat.shiftRight_eq_div_pow, pow_zero, Nat.div_one]

theorem dataChannelCommand_toNat (d : Half) :
    (dataChannelCommand d).toNat = d.toNat / 2 ^ 5 % 4 := by
  rw [dataChannelCommand, BitVec.extractLsb'_toNat, Nat.shiftRight_eq_div_pow]

theorem dataExtCommand_toNat (d : Half) : (dataExtCommand d).toNat = d.toNat % 4 := by
  rw [dataExtCommand, BitVec.extractLsb'_toNat, Nat.shiftRight_eq_div_pow, pow_zero, Nat.div_one]

/-! ## Register numbers -/

/-- Settles O7: the three fields of the offset are the given numbers, and the row of a write is read
off for each of the 32 register numbers. -/
theorem channelRegistersDecodeByNumber : Obligations.ChannelRegistersDecodeByNumber := by
  intro o d page ch reg ho hpage hch hreg
  obtain rfl : offsetPage o = page := BitVec.eq_of_toNat_eq ((offsetPage_toNat o).trans hpage.symm)
  obtain rfl : offsetChannel o = ch :=
    BitVec.eq_of_toNat_eq ((offsetChannel_toNat o).trans hch.symm)
  obtain rfl : offsetReg o = reg := BitVec.eq_of_toNat_eq ((offsetReg_toNat o).trans hreg.symm)
  rw [decode_accessWord, decode_accessWord, decodeAccess_channel _ ho.not_gt,
    decodeAccess_channel _ ho.not_gt, ← hreg]
  refine ⟨rfl, ?_⟩
  generalize offsetReg o = reg
  obtain ⟨n, hn⟩ := reg
  interval_cases n <;> rfl

end Sys2Proof

namespace Sys2Proof.Machine

/-! ## Accesses that do the same -/

/-- What a per-channel write does does not depend on the alias bits of its offset (R65). -/
theorem exec_decodeChannelWrite_page (m : ChRegMap) (page page' : BitVec 6) (ch : VoiceIdx)
    (reg : RegNum) (d : Half) (s : State) :
    exec (decodeChannelWrite m page ch reg d) s = exec (decodeChannelWrite m page' ch reg d) s := by
  simp only [decodeChannelWrite, apply_ite (exec · s)]
  rfl

/-- Settles O4: offsets that agree modulo 1024 have the voice and the register in common, and the bits
in which they differ play no part (`exec_decodeChannelWrite_page`). -/
theorem channelOffsetsAlias : Obligations.ChannelOffsetsAlias := by
  intro m o o' d ho ho' hmod
  have hch : offsetChannel o = offsetChannel o' :=
    BitVec.eq_of_toNat_eq (by rw [offsetChannel_toNat, offsetChannel_toNat]; omega)
  have hreg : offsetReg o = offsetReg o' :=
    BitVec.eq_of_toNat_eq (by rw [offsetReg_toNat, offsetReg_toNat]; omega)
  simp only [decode_accessWord, decodeAccess_channel m ho.not_gt, decodeAccess_channel m ho'.not_gt]
  refine ⟨fun write s => ?_, ?_⟩
  · cases write with
    | true => rw [hch, hreg]; exact exec_decodeChannelWrite_page m _ _ _ _ d s
    | false => rfl
  · have hpage : offsetPage o = BitVec.ofNat 6 (o.toNat / 1024) :=
      BitVec.eq_of_toNat_eq (by have := o.isLt; rw [offsetPage_toNat, BitVec.toNat_ofNat]; omega)
    have hch : offsetChannel o = BitVec.ofNat 5 (o.toNat / 32) :=
      BitVec.eq_of_toNat_eq (by rw [offsetChannel_toNat, BitVec.toNat_ofNat]; rfl)
    have hreg : offsetReg o = BitVec.ofNat 5 o.toNat :=
      BitVec.eq_of_toNat_eq (by rw [offsetReg_toNat, BitVec.toNat_ofNat])
    rw [hpage, hch, hreg]
    rfl

/-- Channel control looks at the voice and the command of its data alone (R67). -/
theorem exec_decodeChannelControl_congr {d d' : Half} (hvoice : dataVoice d = dataVoice d')
    (hcmd : dataChannelCommand d = dataChannelCommand d') (s : State) :
    exec (decodeChannelControl d) s = exec (decodeChannelControl d') s := by
  simp only [decodeChannelControl, hvoice, hcmd, apply_ite (exec · s)]
  rfl

/-- The external-memory command looks at bits 1:0 of its data alone (R73). -/
theorem exec_decodeExtCommand_congr {d d' : Half} (hcmd : dataExtCommand d = dataExtCommand d')
    (s : State) : exec (decodeExtCommand d) s = exec (decodeExtCommand d') s := by
  simp only [decodeExtCommand, hcmd, apply_ite (exec · s)]
  rfl

/-- Settles O5: data that agree on the named bits have the fields of their command in common. -/
theorem unnamedDataBitsAreIgnored : Obligations.UnnamedDataBitsAreIgnored := by
  intro m d d' s
  have hvoice (h : d.toNat % 32 = d'.toNat % 32) : dataVoice d = dataVoice d' :=
    BitVec.eq_of_toNat_eq (by rw [dataVoice_toNat, dataVoice_toNat, h])
  simp only [decode_accessWord]
  refine ⟨fun h => ?control, fun h => ?reqch, fun h => ?ext⟩
  case control =>
    have hcmd : dataChannelCommand d = dataChannelCommand d' :=
      BitVec.eq_of_toNat_eq (by rw [dataChannelCommand_toNat, dataChannelCommand_toNat]; omega)
    exact exec_decodeChannelControl_congr (hvoice (by omega)) hcmd s
  case reqch =>
    change execWrReqch (dataVoice d) s = execWrReqch (dataVoice d') s
    rw [hvoice h]
  case ext =>
    exact exec_decodeExtCommand_congr
      (BitVec.eq_of_toNat_eq (by rw [dataExtCommand_toNat, dataExtCommand_toNat, h])) s

end Sys2Proof.Machine
end

section
/-! PROOF. The per-channel accesses carried out: the pitch write (40 R99), the address sequences
(30_encoding R78); the sample types (30_encoding R69); and the accesses that can fault (60 R186). -/

namespace Sys2Proof.Machine

/-! ## Faults -/

/-- Settles O10: the meaning of every other access answers a state, and the two that reach storage answer
one inside its range. -/
theorem onlyExternalMemoryAccessesFault : Obligations.OnlyExternalMemoryAccessesFault := by
  intro i s
  cases i with
  | wrKeyoff ch ig =>
    by_cases hsilent : isSilent (voiceAt s ch) = true
    · exact .inl ⟨_, if_pos hsilent⟩
    · exact .inl ⟨_, if_neg hsilent⟩
  | wrExtwrite ig =>
    change (∃ t, execWrExtwrite s = _) ∨ _ ∧ (_ ∧ execWrExtwrite s = _ ∨ _)
    rw [execWrExtwrite_eq]
    split
    · exact .inl ⟨_, rfl⟩
    next hout => exact .inr ⟨Nat.not_le.1 hout, .inl ⟨⟨ig, rfl⟩, rfl⟩⟩
  | rdExtdata =>
    change (∃ t, execRdExtdata s = _) ∨ _ ∧ (_ ∨ _ ∧ execRdExtdata s = _)
    rw [execRdExtdata_eq]
    split
    · exact .inl ⟨_, rfl⟩
    next hout => exact .inr ⟨Nat.not_le.1 hout, .inr ⟨rfl, rfl⟩⟩
  | _ => exact .inl ⟨_, rfl⟩

/-! ## The pitch -/

theorem onlyVoice_setVoice (s : State) (n : VoiceIdx) (v : Voice) : OnlyVoice n s (setVoice s n v) :=
  ⟨fun _ hm => voiceAt_setVoice_of_ne hm v, ⟨rfl, rfl⟩, ⟨rfl, rfl, rfl, rfl, rfl⟩,
    ⟨rfl, rfl, rfl, rfl⟩, fun _ => rfl, ⟨rfl, rfl, rfl⟩⟩

/-- A mantissa below 2^13 shifted by at most 7, times 4, fits in 22 bits. -/
theorem pitch_le {m x : Nat} (hm : m < 2 ^ 13) (hx : x < 8) : m * 2 ^ x * 4 ≤ 0x3FFE00 := by
  have hpow : 2 ^ x ≤ 2 ^ 7 := Nat.pow_le_pow_right (by decide) (by omega)
  have := Nat.mul_le_mul (Nat.le_of_lt_succ hm : m ≤ 2 ^ 13 - 1) hpow
  omega

/-- `StepOf` on numbers (45 R173). -/
theorem stepOf_toNat (d : Half) :
    (stepOf d).toNat = d.toNat % 2 ^ 13 * 2 ^ (d.toNat / 2 ^ 13) * 4 := by
  have := d.isLt
  have hfit := pitch_le (Nat.mod_lt d.toNat (by decide : 0 < 2 ^ 13))
    (by omega : d.toNat / 2 ^ 13 < 8)
  have hexp : (d.extractLsb' 13 3).toNat = d.toNat / 2 ^ 13 := by
    rw [BitVec.extractLsb'_toNat, Nat.shiftRight_eq_div_pow]; omega
  have hmant : (d.extractLsb' 0 13).toNat = d.toNat % 2 ^ 13 := by
    rw [BitVec.extractLsb'_toNat, Nat.shiftRight_eq_div_pow, pow_zero, Nat.div_one]
  rw [stepOf, BitVec.toNat_mul, BitVec.shiftLeft_eq', BitVec.toNat_shiftLeft, BitVec.toNat_setWidth,
    hexp, hmant, Nat.shiftLeft_eq]
  generalize d.toNat % 2 ^ 13 = m at *
  generalize hp : 2 ^ (d.toNat / 2 ^ 13) = p at *
  have hm : m ≤ m * p := Nat.le_mul_of_pos_right m (hp ▸ Nat.two_pow_pos _)
  rw [Nat.mod_eq_of_lt (by omega : m < 2 ^ 22), Nat.mod_eq_of_lt (by omega : m * p < 2 ^ 22)]
  exact Nat.mod_eq_of_lt (by omega : m * p * 4 < 2 ^ 22)

/-- Settles O24: the pitch write is one write of a voice record, and `StepOf` on numbers is
`stepOf_toNat`. -/
theorem pitchWriteDerivesTheStep : Obligations.PitchWriteDerivesTheStep := by
  intro s page ch d
  have := d.isLt
  refine ⟨⟨_, rfl, onlyVoice_setVoice _ _ _, voiceAt_setVoice_self _ _ _⟩, stepOf_toNat d, ?_⟩
  rw [stepOf_toNat]
  exact pitch_le (Nat.mod_lt _ (by decide)) (by omega)

/-! ## Sample types -/

theorem typeDecode_word (w : Half) : typeDecode w 0b11 = w := rfl

theorem typeDecode_low_toNat (w : Half) : (typeDecode w 0b01).toNat = w.toNat % 256 * 256 := by
  change (w.extractLsb' 0 8 ++ (0 : BitVec 8) : Half).toNat = _
  rw [byteHigh_toNat, BitVec.extractLsb'_toNat, Nat.shiftRight_eq_div_pow, pow_zero, Nat.div_one]
  rfl

theorem typeDecode_high_toNat (w : Half) : (typeDecode w 0b10).toNat = w.toNat / 256 * 256 := by
  have := w.isLt
  change (w.extractLsb' 8 8 ++ (0 : BitVec 8) : Half).toNat = _
  rw [byteHigh_toNat, BitVec.extractLsb'_toNat, Nat.shiftRight_eq_div_pow]
  omega

/-- The words with bit 15 set are folded downward: their other bits are complemented (42 R135). -/
theorem foldWord_toNat_of_le {x : Half} (h : 0x8000 ≤ x.toNat) :
    (foldWord x).toNat = 0x8000 + (0xFFFF - x.toNat) := by
  have hbit : x.getLsbD 15 = true := by
    rw [← BitVec.msb_eq_getLsbD_last, BitVec.msb_eq_decide]; simpa using h
  have hadd : x ^^^ 0x7FFF = 0x8000 + ~~~x := by
    rw [BitVec.add_eq_or_of_and_eq_zero]
    all_goals
      apply BitVec.eq_of_getLsbD_eq
      intro i hi
      interval_cases i <;> simp [hbit]
  have := x.isLt
  rw [foldWord, if_pos hbit, hadd, BitVec.toNat_add, BitVec.toNat_not]
  exact Nat.mod_eq_of_lt (by omega : 0x8000 + (2 ^ 16 - 1 - x.toNat) < 2 ^ 16)

theorem foldWord_of_lt {x : Half} (h : x.toNat < 0x8000) : foldWord x = x := by
  have hbit : ¬ x.getLsbD 15 = true := by
    rw [← BitVec.msb_eq_getLsbD_last, BitVec.msb_eq_decide]; simpa using h
  rw [foldWord, if_neg hbit]

/-- The value law of the fold (42 R136). -/
theorem signFold_eq (x : Half) :
    signFold x = if x.toNat < 0x8000 then (x.toNat : Int) else -1 - ((x.toNat : Int) - 0x8000) := by
  have := x.isLt
  rw [signFold, BitVec.toInt_eq_toNat_cond]
  rcases Nat.lt_or_ge x.toNat 0x8000 with hx | hx
  · rw [foldWord_of_lt hx, if_pos hx, if_pos (by omega)]
  · rw [foldWord_toNat_of_le hx, if_neg (by omega), if_neg (by omega)]; omega

/-- Settles O37: the 8-bit types give their byte times 256, and the fold is `signFold_eq`. -/
theorem sampleTypesDecode : Obligations.SampleTypesDecode := by
  intro w
  refine ⟨typeDecode_word w, typeDecode_low_toNat w, typeDecode_high_toNat w, rfl, fun t b ht => ?_⟩
  have hvalue : (typeDecode w t).toNat = b * 256 := by
    rcases ht with ⟨rfl, rfl⟩ | ⟨rfl, rfl⟩
    · exact typeDecode_low_toNat w
    · exact typeDecode_high_toNat w
  rw [signFold_eq, hvalue]
  split <;> split <;> omega

/-! ## The address sequences -/

/-- The offset of CHWR is a per-channel offset with page 1 (30_encoding R78). -/
theorem asmChWr_eq (ch : VoiceIdx) (reg : RegNum) (d : Half) :
    asmChWr ch reg d = asmWr (channelOffset 1 ch reg) d := by
  have hoffset : channelOffset 1 ch reg = 0x0400 ||| ch.setWidth 16 <<< 5 ||| reg.setWidth 16 := by
    rw [← BitVec.setWidth_eq (channelOffset 1 ch reg)]
    exact BitVec.setWidth_append_append_eq_shiftLeft_setWidth_or
  rw [asmChWr, hoffset]

/-- CHWR is the per-channel write its register number decodes to. -/
theorem serve_asmChWr (ch : VoiceIdx) (reg : RegNum) (d : Half) (s : State) :
    serve (asmChWr ch reg d) s = exec (decodeChannelWrite s.cfg.chRegMap 1 ch reg d) s := by
  rw [asmChWr_eq, asmWr, serve_access_fullLanes, decode_accessWord,
    decodeAccess_channelWrite _ (by decide)]

/-- Two bytes shifted into place are the word made of them. -/
theorem bytes_append (hi lo : Byte) : (hi.setWidth 16 <<< 8 ||| lo.setWidth 16 : Half) = hi ++ lo := by
  rw [← BitVec.setWidth_eq (hi ++ lo : Half)]
  exact BitVec.setWidth_append_eq_shiftLeft_setWidth_or.symm

theorem byte_append_zero (hi : Byte) : (hi.setWidth 16 <<< 8 : Half) = hi ++ (0 : Byte) := by
  rw [← bytes_append]
  exact BitVec.or_zero.symm

/-- A CHWR of a run whose row writes the record of voice `ch` by `f`. -/
theorem run_asmChWr {s : State} {ch : VoiceIdx} {reg : RegNum} {d : Half} {i : Instr}
    {f : Voice → Voice} {rest : List HostRequest} {v : Voice} (k : Nat)
    (hi : decodeChannelWrite s.cfg.chRegMap 1 ch reg d = i)
    (hf : ∀ t, exec i t = writeVoice ch f t) :
    Host.Core.run Sys2Proof.core (k + 1)
        (setVoice { s with pending := asmChWr ch reg d :: rest } ch v) =
      Host.Core.run Sys2Proof.core k (setVoice { s with pending := rest } ch (f v)) := by
  have hserve : ∀ t, t.cfg = s.cfg → serve (asmChWr ch reg d) t = writeVoice ch f t := fun t ht => by
    rw [serve_asmChWr, ht, hi, hf]
  have hrun := run_succ_of_serve (s := setVoice { s with pending := asmChWr ch reg d :: rest } ch v) k
    rfl (hserve _ rfl)
  rw [hrun]
  refine congrArg (Host.Core.run Sys2Proof.core k) ?_
  have hv := voiceAt_setVoice_self { s with pending := rest } ch v
  exact (congrArg _ (congrArg f hv)).trans (setVoice_setVoice { s with pending := rest } ch v (f v))

/-- SETSTART writes the two start fields of voice `ch`. -/
theorem run_asmSetStart {s : State} (hm : s.cfg.chRegMap.wf) (ch : VoiceIdx) (a : Addr24)
    (rest : List HostRequest) (v : Voice) (k : Nat) :
    Host.Core.run Sys2Proof.core (k + 2)
        (setVoice { s with pending := asmSetStart s.cfg.chRegMap ch a ++ rest } ch v) =
      Host.Core.run Sys2Proof.core k (setVoice { s with pending := rest } ch
        { v with startH := a.extractLsb' 16 8 ++ (0 : Byte), startL := a.extractLsb' 0 16 }) := by
  rw [asmSetStart, byte_append_zero]
  obtain ⟨hstartH, -⟩ := Laws.decodeChannelWrite_cases s.cfg.chRegMap hm 1 ch
    (a.extractLsb' 16 8 ++ (0 : Byte))
  obtain ⟨-, hstartL, -⟩ := Laws.decodeChannelWrite_cases s.cfg.chRegMap hm 1 ch
    (a.extractLsb' 0 16)
  exact (run_asmChWr (f := fun v => { v with startH := _ }) (k + 1) hstartH fun _ => rfl).trans
    (run_asmChWr (f := fun v => { v with startL := _ }) k hstartL fun _ => rfl)

/-- SETENDLOOP writes the three end and loop fields of voice `ch`. -/
theorem run_asmSetEndLoop {s : State} (hm : s.cfg.chRegMap.wf) (ch : VoiceIdx) (e l : Addr24)
    (rest : List HostRequest) (v : Voice) (k : Nat) :
    Host.Core.run Sys2Proof.core (k + 3)
        (setVoice { s with pending := asmSetEndLoop s.cfg.chRegMap ch e l ++ rest } ch v) =
      Host.Core.run Sys2Proof.core k (setVoice { s with pending := rest } ch
        { v with
          endHloopH := l.extractLsb' 16 8 ++ e.extractLsb' 16 8
          endL := e.extractLsb' 0 16
          loopL := l.extractLsb' 0 16 }) := by
  rw [asmSetEndLoop, bytes_append]
  obtain ⟨-, -, -, -, hendHloopH, -⟩ := Laws.decodeChannelWrite_cases s.cfg.chRegMap hm 1 ch
    (l.extractLsb' 16 8 ++ e.extractLsb' 16 8)
  obtain ⟨-, -, -, hendL, -⟩ := Laws.decodeChannelWrite_cases s.cfg.chRegMap hm 1 ch
    (e.extractLsb' 0 16)
  obtain ⟨-, -, -, -, -, hloopL, -⟩ := Laws.decodeChannelWrite_cases s.cfg.chRegMap hm 1 ch
    (l.extractLsb' 0 16)
  exact (run_asmChWr (f := fun v => { v with endHloopH := _ }) (k + 2) hendHloopH
      fun _ => rfl).trans <|
    (run_asmChWr (f := fun v => { v with endL := _ }) (k + 1) hendL fun _ => rfl).trans
    (run_asmChWr (f := fun v => { v with loopL := _ }) k hloopL fun _ => rfl)

/-- Settles O25: the five writes go to five fields of one voice record (`run_asmSetStart`,
`run_asmSetEndLoop`), and each view of R66 puts together the two parts of an address that were written. -/
theorem addressSequencesSetTheViews : Obligations.AddressSequencesSetTheViews := by
  intro s ch a e l rest hm hp
  have hstart : setVoice
      { s with pending :=
          asmSetStart s.cfg.chRegMap ch a ++ (asmSetEndLoop s.cfg.chRegMap ch e l ++ rest) }
      ch (voiceAt s ch) = s := by
    rw [← List.append_assoc, ← hp]; exact setVoice_voiceAt s ch
  have hrun := (run_asmSetStart hm ch a _ (voiceAt s ch) 3).trans
    (run_asmSetEndLoop hm ch e l rest _ 0)
  rw [hstart] at hrun
  refine ⟨_, hrun, rfl, ?_⟩
  rw [voiceAt_setVoice_self]
  refine ⟨?_, ?_, ?_, rfl, rfl, rfl, rfl, rfl, fun m hmch => voiceAt_setVoice_of_ne hmch _⟩
  · change BitVec.extractLsb' 8 8 (a.extractLsb' 16 8 ++ (0 : Byte)) ++ a.extractLsb' 0 16 = a
    rw [BitVec.extractLsb'_append_eq_left, BitVec.extractLsb'_append_extractLsb']
  · change BitVec.extractLsb' 0 8 (l.extractLsb' 16 8 ++ e.extractLsb' 16 8) ++ e.extractLsb' 0 16 = e
    rw [BitVec.extractLsb'_append_eq_right, BitVec.extractLsb'_append_extractLsb']
  · change BitVec.extractLsb' 8 8 (l.extractLsb' 16 8 ++ e.extractLsb' 16 8) ++ l.extractLsb' 0 16 = l
    rw [BitVec.extractLsb'_append_eq_left, BitVec.extractLsb'_append_extractLsb']

end Sys2Proof.Machine
end

section
/-! PROOF. The opcode table and the decoder agree (30_encoding R62, R64, R80). -/

namespace Sys2Proof

/-! ## The row of an instruction -/

theorem ctorIdx_lt_length (i : Instr) : i.ctorIdx < opcodeTable.length := by
  cases i <;> exact Nat.le_of_ble_eq_true rfl

/-- The row of an instruction: the constructors stand in the table's order. -/
def rowOf (i : Instr) : OpcodeRow := opcodeTable[i.ctorIdx]'(ctorIdx_lt_length i)

theorem rowOf_mem (i : Instr) : rowOf i ∈ opcodeTable := List.getElem_mem _

theorem rowOf_mnemonic (i : Instr) : (rowOf i).mnemonic = i.mnemonic := by
  cases i <;> rfl

/-! ## What a match says of the fields of a word -/

theorem accessWord_and (write write' : Bool) (o o' d d' : Half) :
    accessWord write o d &&& accessWord write' o' d' =
      accessWord (write && write') (o &&& o') (d &&& d') := by
  have hhigh : BitVec.ofBool write ++ o &&& BitVec.ofBool write' ++ o' =
      BitVec.ofBool (write && write') ++ (o &&& o') := by
    rw [BitVec.and_append, BitVec.ofBool_and_ofBool]
  exact BitVec.and_append.trans (congrArg (· ++ (d &&& d')) hhigh)

theorem accessOffset_and (x y : AccessWord) :
    accessOffset (x &&& y) = accessOffset x &&& accessOffset y := BitVec.extractLsb'_and

theorem accessData_and (x y : AccessWord) : accessData (x &&& y) = accessData x &&& accessData y :=
  BitVec.extractLsb'_and

theorem accessWord_inj {write write' : Bool} {o o' d d' : Half} :
    accessWord write o d = accessWord write' o' d' ↔ write = write' ∧ o = o' ∧ d = d' where
  mp h := ⟨by simpa using congrArg accessIsWrite h, by simpa using congrArg accessOffset h,
    by simpa using congrArg accessData h⟩
  mpr := by rintro ⟨rfl, rfl, rfl⟩; rfl

theorem rowMatches_iff {r : OpcodeRow} {w : AccessWord} :
    rowMatches r w = true ↔ rowCondHolds r.cond (accessOffset w) = true ∧ w &&& r.mask = r.pattern := by
  simp [rowMatches]

/-- A row matches field by field. -/
theorem rowMatches_accessWord {r : OpcodeRow} {write : Bool} {o d : Half} :
    rowMatches r (accessWord write o d) = true ↔
      rowCondHolds r.cond o = true ∧ (write && accessIsWrite r.mask) = accessIsWrite r.pattern ∧
        o &&& accessOffset r.mask = accessOffset r.pattern ∧
        d &&& accessData r.mask = accessData r.pattern := by
  rw [rowMatches_iff, accessOffset_accessWord, ← accessWord_inj, ← accessWord_and,
    accessWord_fields, accessWord_fields]

theorem rowMatches_of_fields {r : OpcodeRow} {write write' : Bool} {o o' op d d' dp : Half}
    (hmask : r.mask = accessWord write' o' d')
    (hpattern : r.pattern = accessWord (write && write') op dp)
    (hcond : rowCondHolds r.cond o = true) (ho : o &&& o' = op) (hd : d &&& d' = dp) :
    rowMatches r (accessWord write o d) = true :=
  rowMatches_iff.2 ⟨by rwa [accessOffset_accessWord], by rw [hmask, hpattern, accessWord_and, ho, hd]⟩

/-- A field that the mask of a row covers has in a matching word the value of the row's pattern. -/
theorem field_of_rowMatches {n : Nat} {field : AccessWord → BitVec n}
    (hfield : ∀ x y, field (x &&& y) = field x &&& field y) {r : OpcodeRow} {w : AccessWord}
    (hmask : field r.mask = BitVec.allOnes n) (hw : rowMatches r w = true) :
    field w = field r.pattern := by
  obtain ⟨-, hpattern⟩ := rowMatches_iff.1 hw
  rw [← hpattern, hfield, hmask, BitVec.and_allOnes]

/-! ## Rows that never match together -/

/-- The rows ask different values of a bit that both look at. -/
def rowsConflict (q r : OpcodeRow) : Bool := q.pattern &&& r.mask != r.pattern &&& q.mask

theorem not_rowsConflict_of_rowMatches {q r : OpcodeRow} {w : AccessWord}
    (hq : rowMatches q w = true) (hr : rowMatches r w = true) : rowsConflict q r = false := by
  obtain ⟨-, hq⟩ := rowMatches_iff.1 hq
  obtain ⟨-, hr⟩ := rowMatches_iff.1 hr
  simp only [rowsConflict, ← hq, ← hr, bne_eq_false_iff_eq]
  rw [BitVec.and_assoc, BitVec.and_assoc, BitVec.and_comm q.mask]

/-- A row that matches global offsets only, because it asks for bits 15:10 all zero. -/
def asksGlobalPage (r : OpcodeRow) : Bool :=
  offsetPage (accessOffset r.mask) == BitVec.allOnes 6 && offsetPage (accessOffset r.pattern) == 0

theorem offset_lt_of_asksGlobalPage {r : OpcodeRow} {w : AccessWord} (hr : asksGlobalPage r = true)
    (hw : rowMatches r w = true) : (accessOffset w).toNat < 0x400 := by
  simp only [asksGlobalPage, Bool.and_eq_true, beq_iff_eq] at hr
  obtain ⟨hmask, hpattern⟩ := hr
  have hpage := field_of_rowMatches (field := fun w => offsetPage (accessOffset w))
    (fun _ _ => by rw [accessOffset_and]; exact BitVec.extractLsb'_and) hmask hw
  rw [← channelOffset_fields (accessOffset w), channelOffset_lt_iff]
  exact hpage.trans hpattern

/-- Rows with as many mask bits never match the same word (R80). -/
theorem rowsConflict_or_eq_of_maskBits_eq : ∀ q ∈ opcodeTable, ∀ r ∈ opcodeTable,
    maskBits q = maskBits r → rowsConflict q r = true ∨ q = r := by decide +kernel

/-! ## The rows that take words from a row -/

/-- The rows with more mask bits that may match a word that row `r` matches. -/
def finerRows (r : OpcodeRow) : List OpcodeRow :=
  opcodeTable.filter fun q =>
    decide (maskBits r < maskBits q) && !rowsConflict q r && !(r.cond == .channel && asksGlobalPage q)

theorem mem_finerRows {q r : OpcodeRow} {w : AccessWord} (hmem : q ∈ opcodeTable)
    (hq : rowMatches q w = true) (hr : rowMatches r w = true) (hlt : maskBits r < maskBits q) :
    q ∈ finerRows r := by
  have hglobal : ¬ (r.cond = .channel ∧ asksGlobalPage q = true) := fun ⟨hcond, hpage⟩ => by
    obtain ⟨hr, -⟩ := rowMatches_iff.1 hr
    rw [hcond] at hr
    have := of_decide_eq_true hr
    have := offset_lt_of_asksGlobalPage hpage hq
    omega
  simpa [finerRows, hmem, hlt, not_rowsConflict_of_rowMatches hq hr] using not_and_or.1 hglobal

/-- Four rows alone leave words to others: those of the accesses without an effect and of the reads of an
unlisted global offset. -/
theorem finerRows_eq_nil : ∀ r ∈ opcodeTable,
    r.mnemonic ∉ ["WR_EXTCMD_NOP", "WR_GLOBAL_NOP", "RD_GLOBAL_ZERO", "WR_CH_NOP"] →
      finerRows r = [] := by decide +kernel

theorem finerRows_wrExtcmdNop : ∀ q ∈ finerRows (rowOf (.wrExtcmdNop 0 0)),
    dataExtCommand (accessData q.mask) = BitVec.allOnes 2 ∧
      dataExtCommand (accessData q.pattern) = 3 := by decide +kernel

theorem finerRows_wrGlobalNop : ∀ q ∈ finerRows (rowOf (.wrGlobalNop 0 0)),
    accessOffset q.mask = BitVec.allOnes 16 ∧ accessOffset q.pattern ∈ writtenGlobals := by
  decide +kernel

theorem finerRows_rdGlobalZero : ∀ q ∈ finerRows (rowOf (.rdGlobalZero 0)),
    accessOffset q.mask = BitVec.allOnes 16 ∧ accessOffset q.pattern ∈ readGlobals := by
  decide +kernel

theorem finerRows_wrChNop : ∀ q ∈ finerRows (rowOf (.wrChNop 0 0 0 0)),
    offsetReg (accessOffset q.mask) = BitVec.allOnes 5 ∧
      offsetReg (accessOffset q.pattern) ∈ chRegMapNumbers defaultChRegMap := by decide +kernel

/-- No finer row takes the word of a well-formed instruction. -/
theorem not_rowMatches_of_mem_finerRows {i : Instr} (hi : i.wellFormed defaultChRegMap = true)
    {q : OpcodeRow} (hq : q ∈ finerRows (rowOf i)) :
    ¬ rowMatches q (encode defaultChRegMap i) = true := by
  intro hw
  cases i with
  | wrExtcmdNop cmd ig =>
    obtain ⟨hmask, hpattern⟩ := finerRows_wrExtcmdNop q hq
    have hcmd := field_of_rowMatches (field := fun w => dataExtCommand (accessData w))
      (fun _ _ => by rw [accessData_and]; exact BitVec.extractLsb'_and) hmask hw
    simp only [encode, accessData_accessWord, dataExtCommand_extCommandData, hpattern] at hcmd
    exact of_decide_eq_true hi hcmd
  | wrGlobalNop offset data =>
    obtain ⟨hmask, hpattern⟩ := finerRows_wrGlobalNop q hq
    obtain ⟨-, hunlisted⟩ := of_decide_eq_true hi
    have hoffset := field_of_rowMatches accessOffset_and hmask hw
    rw [encode, accessOffset_accessWord] at hoffset
    exact hunlisted (hoffset ▸ hpattern)
  | rdGlobalZero offset =>
    obtain ⟨hmask, hpattern⟩ := finerRows_rdGlobalZero q hq
    obtain ⟨-, hunlisted⟩ := of_decide_eq_true hi
    have hoffset := field_of_rowMatches accessOffset_and hmask hw
    rw [encode, accessOffset_accessWord] at hoffset
    exact hunlisted (hoffset ▸ hpattern)
  | wrChNop page ch reg data =>
    obtain ⟨hmask, hpattern⟩ := finerRows_wrChNop q hq
    obtain ⟨-, hunlisted⟩ := of_decide_eq_true hi
    have hreg := field_of_rowMatches (field := fun w => offsetReg (accessOffset w))
      (fun _ _ => by rw [accessOffset_and]; exact BitVec.extractLsb'_and) hmask hw
    simp only [encode, encodeChannelWrite, accessOffset_accessWord, offsetReg_channelOffset] at hreg
    exact hunlisted (hreg ▸ hpattern)
  | _ =>
    rw [finerRows_eq_nil _ (rowOf_mem _) (by simp [rowOf_mnemonic, Instr.mnemonic])] at hq
    exact List.not_mem_nil hq

/-! ## The row of an instruction matches its encoding -/

theorem channelOffset_and (page page' : BitVec 6) (ch ch' : VoiceIdx) (reg reg' : RegNum) :
    channelOffset page ch reg &&& channelOffset page' ch' reg' =
      channelOffset (page &&& page') (ch &&& ch') (reg &&& reg') := by
  have hhigh : page ++ ch &&& page' ++ ch' = (page &&& page') ++ (ch &&& ch') := BitVec.and_append
  exact BitVec.and_append.trans (congrArg (· ++ (reg &&& reg')) hhigh)

theorem channelOffset_and_regMask (page : BitVec 6) (ch : VoiceIdx) (reg : RegNum) :
    channelOffset page ch reg &&& 0x001F = channelOffset 0 0 reg := by
  have hmask : (0x001F : Half) = channelOffset 0 0 (BitVec.allOnes 5) := rfl
  rw [hmask, channelOffset_and, BitVec.and_allOnes]
  exact congrArg₂ (channelOffset · · reg) BitVec.and_zero BitVec.and_zero

/-- A global offset has bits 15:10 all zero (R61). -/
theorem and_pageMask_of_isGlobalOffset {o : Half} (ho : isGlobalOffset o) : o &&& 0xFC00 = 0 := by
  have hmask : (0xFC00 : Half) = channelOffset (BitVec.allOnes 6) 0 0 := rfl
  have hpage : offsetPage o = 0 := by
    rwa [isGlobalOffset, ← channelOffset_fields o, channelOffset_lt_iff] at ho
  rw [← channelOffset_fields o, hmask, channelOffset_and, hpage]
  exact congrArg₂ (channelOffset 0) BitVec.and_zero BitVec.and_zero

theorem rowCondHolds_channel {page : BitVec 6} (hpage : isChannelPage page) (ch : VoiceIdx)
    (reg : RegNum) : rowCondHolds .channel (channelOffset page ch reg) = true :=
  decide_eq_true (Nat.not_lt.1 ((channelOffset_lt_iff page ch reg).not.2 hpage))

theorem channelControlData_and (ignored : BitVec 9) (cmd mask : BitVec 2) (ch : VoiceIdx) :
    channelControlData ignored cmd ch &&& channelControlData 0 mask 0 =
      channelControlData 0 (cmd &&& mask) 0 := by
  have hhigh : ignored ++ cmd &&& (0 : BitVec 9) ++ mask = (0 : BitVec 9) ++ (cmd &&& mask) :=
    BitVec.and_append.trans (congrArg (· ++ (cmd &&& mask)) BitVec.and_zero)
  exact BitVec.and_append.trans (congrArg₂ (· ++ ·) hhigh BitVec.and_zero)

theorem extCommandData_and (ignored : BitVec 14) (cmd mask : BitVec 2) :
    extCommandData ignored cmd &&& extCommandData 0 mask = extCommandData 0 (cmd &&& mask) :=
  BitVec.and_append.trans (congrArg (· ++ (cmd &&& mask)) BitVec.and_zero)

/-- What WR_MUTE asks of the command bits: bit 6 is 0 (R67). -/
theorem muteCommand_and (low : BitVec 1) : ((0 : BitVec 1) ++ low : BitVec 2) &&& 0b10 = 0 := by
  revert low; decide

theorem rowMatches_rowOf_encode {i : Instr} (hi : i.wellFormed defaultChRegMap = true) :
    rowMatches (rowOf i) (encode defaultChRegMap i) = true := by
  cases i with
  | wrStatus | rdStatus | wrReqch | rdPos | wrExtaddrLo | wrExtaddrHi | wrExtdata | wrExtcmdNop
  | rdExtdata =>
    exact rowMatches_of_fields (write' := true) (o' := 0xFFFF) (d' := 0) rfl rfl rfl rfl BitVec.and_zero
  | wrKeyon | wrKeyoff =>
    exact rowMatches_of_fields (write' := true) (o' := 0xFFFF) rfl rfl rfl rfl
      (channelControlData_and _ _ 0b11 _)
  | wrMute ch low ig =>
    have hd := channelControlData_and ig ((0 : BitVec 1) ++ low) 0b10 ch
    rw [muteCommand_and] at hd
    exact rowMatches_of_fields (write' := true) (o' := 0xFFFF) rfl rfl rfl rfl hd
  | wrExtwrite =>
    exact rowMatches_of_fields (write' := true) (o' := 0xFFFF) rfl rfl rfl rfl
      (extCommandData_and _ _ 0b11)
  | wrGlobalNop | rdGlobalZero =>
    obtain ⟨ho, -⟩ := of_decide_eq_true hi
    exact rowMatches_of_fields (write' := true) rfl rfl (decide_eq_true ho)
      (and_pageMask_of_isGlobalOffset ho) BitVec.and_zero
  | wrChNop =>
    obtain ⟨hpage, -⟩ := of_decide_eq_true hi
    exact rowMatches_of_fields (write' := true) rfl rfl (rowCondHolds_channel hpage _ _)
      BitVec.and_zero BitVec.and_zero
  | rdCh =>
    exact rowMatches_of_fields (write' := true) rfl rfl
      (rowCondHolds_channel (of_decide_eq_true hi) _ _) BitVec.and_zero BitVec.and_zero
  | _ =>
    exact rowMatches_of_fields (write' := true) rfl rfl
      (rowCondHolds_channel (of_decide_eq_true hi) _ _) (channelOffset_and_regMask _ _ _)
      BitVec.and_zero

/-! ## The data bits of a read -/

theorem write_or_noData : ∀ r ∈ opcodeTable,
    accessIsWrite r.pattern = true ∨ accessData r.mask = 0 := by decide +kernel

/-- The rows look at no data bit of a read (R60). -/
theorem rowMatches_read {r : OpcodeRow} (hr : r ∈ opcodeTable) (o d d' : Half) :
    rowMatches r (accessWord false o d) = true ↔ rowMatches r (accessWord false o d') = true := by
  rw [rowMatches_accessWord, rowMatches_accessWord]
  rcases write_or_noData r hr with hwrite | hdata
  · simp [hwrite]
  · simp [hdata]

theorem rowMatches_encode_decode (w : AccessWord) {r : OpcodeRow} (hr : r ∈ opcodeTable) :
    rowMatches r (encode defaultChRegMap (decode defaultChRegMap w)) = true ↔
      rowMatches r w = true := by
  obtain ⟨-, henc⟩ := encodeOfDecodeKeepsAWriteAndClearsReadData defaultChRegMap w (by decide)
  rw [henc]
  split
  · rfl
  next hread =>
    rw [rowMatches_read hr (accessOffset w) 0 (accessData w), ← Bool.eq_false_iff.2 hread,
      accessWord_fields]

/-! ## The selected row -/

theorem eq_of_rowMatches {w : AccessWord} {q r : OpcodeRow} (hq : q ∈ opcodeTable)
    (hr : r ∈ opcodeTable) (hqw : rowMatches q w = true) (hrw : rowMatches r w = true)
    (hbits : maskBits q = maskBits r) : q = r :=
  (rowsConflict_or_eq_of_maskBits_eq q hq r hr hbits).resolve_left
    (by simp [not_rowsConflict_of_rowMatches hqw hrw])

/-- Settles O3: the row of the decoded instruction matches the word, and a row that matches it with more
mask bits would be among the `finerRows`. -/
theorem opcodeTableSelectsTheDecodedRow : Obligations.OpcodeTableSelectsTheDecodedRow := by
  intro w
  refine ⟨fun q hq r hr => eq_of_rowMatches hq hr, ?_⟩
  obtain ⟨hwf, -⟩ := encodeOfDecodeKeepsAWriteAndClearsReadData defaultChRegMap w (by decide)
  have hmatch := (rowMatches_encode_decode w (rowOf_mem _)).1 (rowMatches_rowOf_encode hwf)
  refine ⟨rowOf (decode defaultChRegMap w), rowOf_mem _, ?_, rowOf_mnemonic _⟩
  simp only [rowSelected, hmatch, Bool.true_and, List.all_eq_true, Bool.or_eq_true, beq_iff_eq,
    Bool.not_eq_true', decide_eq_true_eq]
  intro q hq
  by_cases hqw : rowMatches q w = true
  · rcases Nat.lt_trichotomy (maskBits q) (maskBits (rowOf (decode defaultChRegMap w)))
      with hlt | heq | hgt
    · exact .inr hlt
    · exact .inl (.inl (eq_of_rowMatches hq (rowOf_mem _) hqw hmatch heq))
    · have hfiner := mem_finerRows hq hqw hmatch hgt
      exact absurd ((rowMatches_encode_decode w hq).2 hqw)
        (not_rowMatches_of_mem_finerRows hwf hfiner)
  · exact .inl (.inr (Bool.eq_false_iff.2 hqw))

end Sys2Proof
end

section
/-! PROOF. The access words of 30_encoding R62 on numbers, and the accesses that write a voice record:
channel control (40 R84 to R86) and the per-channel writes (40 R97 to R109). -/

namespace Sys2Proof

/-! ## The words of a global offset -/

theorem decode_globalWrite (m : ChRegMap) {o : Half} (ho : o.toNat < 0x400) (d : Half) :
    decode m (accessWord true o d) = decodeGlobalWrite o d := by
  rw [decode_accessWord, decodeAccess_globalWrite m ho]

theorem decode_globalRead (m : ChRegMap) {o : Half} (ho : o.toNat < 0x400) (d : Half) :
    decode m (accessWord false o d) = decodeGlobalRead o := by
  rw [decode_accessWord, decodeAccess_globalRead m ho]

/-! ## The fields of a command as the numbers a rule names -/

/-- A field of a word on numbers: the shift is a quotient, the width a remainder. -/
theorem extractLsb'_eq_ofNat {w : Nat} (x : BitVec w) (k n : Nat) :
    x.extractLsb' k n = BitVec.ofNat n (x.toNat / 2 ^ k) := by
  rw [BitVec.extractLsb', Nat.shiftRight_eq_div_pow]

theorem dataVoice_eq_ofNat (d : Half) : dataVoice d = BitVec.ofNat 5 d.toNat := by
  rw [dataVoice, extractLsb'_eq_ofNat, pow_zero, Nat.div_one]

theorem offsetReg_eq_ofNat (o : Half) : offsetReg o = BitVec.ofNat 5 o.toNat := by
  rw [offsetReg, extractLsb'_eq_ofNat, pow_zero, Nat.div_one]

theorem dataChannelCommand_eq_iff (d : Half) (c : BitVec 2) :
    dataChannelCommand d = c ↔ d.toNat / 2 ^ 5 % 4 = c.toNat := by
  rw [← BitVec.toNat_inj, dataChannelCommand_toNat]

theorem dataExtCommand_eq_iff (d : Half) (c : BitVec 2) :
    dataExtCommand d = c ↔ d.toNat % 4 = c.toNat := by
  rw [← BitVec.toNat_inj, dataExtCommand_toNat]

/-! ## Channel control (R67) -/

theorem decodeChannelControl_keyOn {d : Half} (h : d.toNat / 2 ^ 5 % 4 = 3) :
    decodeChannelControl d = .wrKeyon (BitVec.ofNat 5 d.toNat) (BitVec.ofNat 9 (d.toNat / 2 ^ 7)) := by
  simp only [decodeChannelControl, dataVoice_eq_ofNat, extractLsb'_eq_ofNat]
  exact if_pos ((dataChannelCommand_eq_iff d 0b11).2 h)

theorem decodeChannelControl_keyOff {d : Half} (h : d.toNat / 2 ^ 5 % 4 = 2) :
    decodeChannelControl d = .wrKeyoff (BitVec.ofNat 5 d.toNat) (BitVec.ofNat 9 (d.toNat / 2 ^ 7)) := by
  have hcmd : dataChannelCommand d = 0b10 := (dataChannelCommand_eq_iff d _).2 h
  simp only [decodeChannelControl, dataVoice_eq_ofNat, extractLsb'_eq_ofNat, hcmd]
  rfl

theorem decodeChannelControl_mute {d : Half} (h : d.toNat / 2 ^ 6 % 2 = 0) :
    decodeChannelControl d =
      .wrMute (BitVec.ofNat 5 d.toNat) (BitVec.ofNat 1 (d.toNat / 2 ^ 5))
        (BitVec.ofNat 9 (d.toNat / 2 ^ 7)) := by
  have hon : dataChannelCommand d ≠ 0b11 := fun hcmd => by
    have : d.toNat / 2 ^ 5 % 4 = 3 := (dataChannelCommand_eq_iff d _).1 hcmd
    omega
  have hoff : dataChannelCommand d ≠ 0b10 := fun hcmd => by
    have : d.toNat / 2 ^ 5 % 4 = 2 := (dataChannelCommand_eq_iff d _).1 hcmd
    omega
  simp only [decodeChannelControl, dataVoice_eq_ofNat, extractLsb'_eq_ofNat, if_neg hon, if_neg hoff]

end Sys2Proof

namespace Sys2Proof.Machine

/-! ## Channel control carried out -/

/-- An access that writes one voice record completes and leaves everything else as it was. -/
theorem completes_of_setVoice {s : State} {n : VoiceIdx} {v : Voice} {r : Result}
    (h : r = .next (setVoice s n v)) : ∃ t, r = .next t ∧ OnlyVoice n s t ∧ voiceAt t n = v :=
  ⟨_, h, onlyVoice_setVoice s n v, voiceAt_setVoice_self s n v⟩

/-- What a key-on does (40 R84). -/
theorem exec_wrKeyon (s : State) (ch : VoiceIdx) (ig : BitVec 9) :
    exec (.wrKeyon ch ig) s =
      .next (setVoice s ch
        { voiceAt s ch with
          pos := posOfIndex (voiceStart (voiceAt s ch)), envPhase := .attack, envLevel := f64Zero,
          envStep := attackStep s (voiceAt s ch) }) := rfl

/-- A key-off does nothing on a silent voice (40 R85). -/
theorem exec_wrKeyoff_of_silent {s : State} {ch : VoiceIdx} (h : (voiceAt s ch).envPhase = .none)
    (ig : BitVec 9) : exec (.wrKeyoff ch ig) s = .next s :=
  if_pos ((isSilent_iff _).2 h)

/-- What a key-off does on a sounding voice (40 R85). -/
theorem exec_wrKeyoff_of_sounding {s : State} {ch : VoiceIdx} (h : (voiceAt s ch).envPhase ≠ .none)
    (ig : BitVec 9) :
    exec (.wrKeyoff ch ig) s =
      .next (setVoice s ch
        { voiceAt s ch with envPhase := .release, envStep := releaseStep s (voiceAt s ch) }) :=
  if_neg (mt (isSilent_iff _).1 h)

/-- What a mute does (40 R86). -/
theorem exec_wrMute (s : State) (ch : VoiceIdx) (low : BitVec 1) (ig : BitVec 9) :
    exec (.wrMute ch low ig) s =
      .next (setVoice s ch
        { voiceAt s ch with envPhase := .none, envLevel := f64Zero, envStep := f64Zero }) := rfl

/-- The release step with its flag bit on numbers (43 R148). -/
theorem releaseStep_eq (s : State) (v : Voice) :
    releaseStep s v =
      if v.release.toNat / 2 ^ 7 % 2 = 1 then f64Zero
      else s.rr[rateIndex s.cfg.rateIndex v.release] := by
  simp only [releaseStep, BitVec.getLsbD, Nat.testBit_eq_decide_div_mod_eq, decide_eq_true_eq]

/-- Settles O20: a key-on is one write of a voice record, whose position is `posOfIndex_toNat`. -/
theorem keyOnRestartsTheVoice : Obligations.KeyOnRestartsTheVoice := by
  refine ⟨fun m d hd => ?_, fun s ch ig => ?_⟩
  · rw [decode_globalWrite m (by decide)]
    exact decodeChannelControl_keyOn hd
  · obtain ⟨t, hexec, honly, hvoice⟩ := completes_of_setVoice (exec_wrKeyon s ch ig)
    refine ⟨t, hexec, honly, ?_⟩
    rw [hvoice]
    exact ⟨posOfIndex_toNat _, rfl, rfl, rfl, rfl, rfl⟩

/-- Settles O21: a key-off leaves a silent voice and is one write of the record of a sounding one, whose
step is `releaseStep_eq`. -/
theorem keyOffReleasesTheVoice : Obligations.KeyOffReleasesTheVoice := by
  refine ⟨fun m d hd => ?_, fun s ch ig => ⟨fun h => exec_wrKeyoff_of_silent h ig, fun h => ?_⟩⟩
  · rw [decode_globalWrite m (by decide)]
    exact decodeChannelControl_keyOff hd
  · obtain ⟨t, hexec, honly, hvoice⟩ := completes_of_setVoice (exec_wrKeyoff_of_sounding h ig)
    refine ⟨t, hexec, honly, ?_⟩
    rw [hvoice]
    exact ⟨rfl, releaseStep_eq s _, rfl, rfl, rfl, rfl⟩

/-- Settles O22: a mute is one write of a voice record that keeps the position. -/
theorem muteSilencesTheVoice : Obligations.MuteSilencesTheVoice := by
  refine ⟨fun m d hd => ?_, fun s ch low ig => ?_⟩
  · rw [decode_globalWrite m (by decide)]
    exact decodeChannelControl_mute hd
  · obtain ⟨t, hexec, honly, hvoice⟩ := completes_of_setVoice (exec_wrMute s ch low ig)
    refine ⟨t, hexec, honly, ?_⟩
    rw [hvoice]
    exact ⟨rfl, rfl, rfl, rfl, rfl, rfl⟩

/-! ## Per-channel writes -/

/-- A per-channel write makes of its voice what its field's write makes of the record. -/
theorem writeVoice_completes (s : State) (ch : VoiceIdx) (f : Voice → Voice) :
    ∃ t, writeVoice ch f s = .next t ∧ OnlyVoice ch s t ∧ voiceAt t ch = f (voiceAt s ch) :=
  completes_of_setVoice rfl

/-- Settles O23: each of the twelve is `writeVoice` of its own field. -/
theorem channelWritesLatchTheirField : Obligations.ChannelWritesLatchTheirField := by
  intro s page ch d
  exact
    ⟨writeVoice_completes s ch fun v => { v with startH := d },
      writeVoice_completes s ch fun v => { v with startL := d },
      writeVoice_completes s ch fun v => { v with endL := d },
      writeVoice_completes s ch fun v => { v with endHloopH := d },
      writeVoice_completes s ch fun v => { v with loopL := d },
      writeVoice_completes s ch fun v => { v with pan := d },
      writeVoice_completes s ch fun v => { v with effect := d },
      writeVoice_completes s ch fun v => { v with volume := d },
      writeVoice_completes s ch fun v => { v with attack := d },
      writeVoice_completes s ch fun v => { v with decay := d },
      writeVoice_completes s ch fun v => { v with release := d },
      writeVoice_completes s ch fun v => { v with cutoff := d }⟩

end Sys2Proof.Machine
end

section
/-! PROOF. The global registers: the status register, the position poll, the external-memory port, and the
accesses without an effect (40 R81, R82, R87 to R96, R110, R111). -/

namespace Sys2Proof

/-! ## Offsets without a row of their own -/

theorem decodeGlobalWrite_unlisted {o : Half} (ho : o ∉ writtenGlobals) (d : Half) :
    decodeGlobalWrite o d = .wrGlobalNop o d := by
  simp only [writtenGlobals, List.mem_cons, List.not_mem_nil, or_false, not_or] at ho
  obtain ⟨hstatus, hcontrol, hreqch, haddrLo, haddrHi, hdata, hcommand⟩ := ho
  simp only [decodeGlobalWrite, if_neg hstatus, if_neg hcontrol, if_neg hreqch, if_neg haddrLo,
    if_neg haddrHi, if_neg hdata, if_neg hcommand]

theorem decodeGlobalRead_unlisted {o : Half} (ho : o ∉ readGlobals) :
    decodeGlobalRead o = .rdGlobalZero o := by
  simp only [readGlobals, List.mem_cons, List.not_mem_nil, or_false, not_or] at ho
  obtain ⟨hstatus, hpos, hdata⟩ := ho
  simp only [decodeGlobalRead, if_neg hstatus, if_neg hpos, if_neg hdata]

/-! ## External-memory commands (R73) -/

theorem decodeExtCommand_commit {d : Half} (h : d.toNat % 4 = 3) :
    decodeExtCommand d = .wrExtwrite (BitVec.ofNat 14 (d.toNat / 2 ^ 2)) := by
  rw [← extractLsb'_eq_ofNat]
  exact if_pos ((dataExtCommand_eq_iff d 0b11).2 h)

theorem decodeExtCommand_noEffect {d : Half} (h : d.toNat % 4 ≠ 3) :
    decodeExtCommand d = .wrExtcmdNop (dataExtCommand d) (d.extractLsb' 2 14) :=
  if_neg (mt (dataExtCommand_eq_iff d 0b11).1 h)

end Sys2Proof

namespace Sys2Proof.Machine

/-! ## What reads and latches leave alone -/

theorem onlyAnswers_returnRead (s : State) (v : Half) : OnlyAnswers v s (returnRead s v) :=
  ⟨rfl, fun _ => rfl, ⟨rfl, rfl, rfl, rfl⟩, ⟨rfl, rfl⟩, ⟨rfl, rfl, rfl, rfl, rfl⟩, fun _ => rfl, rfl,
    rfl⟩

/-- A read that answers `v` completes and changes nothing. -/
theorem completes_of_returnRead {s : State} {v : Half} {r : Result}
    (h : r = .next (returnRead s v)) : ∃ t, r = .next t ∧ OnlyAnswers v s t :=
  ⟨_, h, onlyAnswers_returnRead s v⟩

theorem onlyGlobals_latched (s : State) (status : Half) (reqch : VoiceIdx) (extAddr : BitVec 32)
    (extData : Half) :
    OnlyGlobals s
      { s with status := status, reqch := reqch, extAddr := extAddr, extData := extData } :=
  ⟨fun _ => rfl, ⟨rfl, rfl⟩, ⟨rfl, rfl, rfl, rfl, rfl⟩, fun _ => rfl, ⟨rfl, rfl, rfl⟩⟩

/-! ## The external-memory port -/

/-- What the commit does (40 R92). -/
theorem exec_wrExtwrite (s : State) (ig : BitVec 14) :
    exec (.wrExtwrite ig) s =
      if (extByteAddr s).toNat + 2 ≤ s.cfg.storageBytes then
        .next (setWord s (extByteAddr s).toNat s.extData)
      else .fault (.storageFault (extByteAddr s) .extWrite) := execWrExtwrite_eq s

/-- What the data read does (40 R94). -/
theorem exec_rdExtdata (s : State) :
    exec .rdExtdata s =
      if (extByteAddr s).toNat + 2 ≤ s.cfg.storageBytes then
        .next (returnRead s (wordAt s (extByteAddr s).toNat))
      else .fault (.storageFault (extByteAddr s) .extRead) := execRdExtdata_eq s

/-- A word written to storage leaves every byte but its own. -/
theorem sameStorageBut_setWord {s : State} (hm : Memory.wf s.storage = true) (a : Nat) (v : Half) :
    SameStorageBut a s (setWord s a v) := by
  intro b hfirst hsecond
  rw [memRead_setWord hm, if_neg hsecond, if_neg hfirst]

/-- Settles O15: the commit is one write of a word of storage, which reads back by `wordAt_setWord`. -/
theorem externalWriteCommits : Obligations.ExternalWriteCommits := by
  refine ⟨fun m d hd => ?_, fun s ig hm => ⟨extByteAddr_toNat s, fun hin => ?_, fun hout => ?_⟩⟩
  · rw [decode_globalWrite m (by decide)]
    exact decodeExtCommand_commit hd
  · rw [exec_wrExtwrite, if_pos hin]
    exact ⟨_, rfl, wordAt_setWord hm _ _, sameStorageBut_setWord hm _ _, fun _ => rfl,
      ⟨rfl, rfl, rfl, rfl⟩, ⟨rfl, rfl⟩, ⟨rfl, rfl, rfl, rfl, rfl⟩, ⟨rfl, rfl, rfl⟩⟩
  · rw [exec_wrExtwrite, if_neg (by omega)]

/-- Settles O16: inside the range the data read answers the word at `extByteAddr_toNat`, outside it is the
fault. -/
theorem externalReadAnswersTheStorageWord : Obligations.ExternalReadAnswersTheStorageWord := by
  refine ⟨fun m d => ?_, fun s => ⟨extByteAddr_toNat s, fun hin => ?_, fun hout => ?_⟩⟩
  · rw [decode_globalRead m (by decide)]; rfl
  · exact completes_of_returnRead (by rw [exec_rdExtdata, if_pos hin])
  · rw [exec_rdExtdata, if_neg (by omega)]

/-- The address with its low half written, on numbers (40 R89). -/
theorem extAddr_lowWritten_toNat (a : BitVec 32) (d : Half) :
    (a.extractLsb' 16 16 ++ d : BitVec 32).toNat = a.toNat / 2 ^ 16 * 2 ^ 16 + d.toNat := by
  rw [BitVec.toNat_append, ← Nat.shiftLeft_add_eq_or_of_lt d.isLt, Nat.shiftLeft_eq,
    BitVec.extractLsb'_toNat, Nat.shiftRight_eq_div_pow]
  omega

/-- The address with its high half written, on numbers (40 R90). -/
theorem extAddr_highWritten_toNat (a : BitVec 32) (d : Half) :
    (d ++ a.extractLsb' 0 16 : BitVec 32).toNat = d.toNat * 2 ^ 16 + a.toNat % 2 ^ 16 := by
  rw [BitVec.toNat_append, ← Nat.shiftLeft_add_eq_or_of_lt (BitVec.isLt _), Nat.shiftLeft_eq,
    BitVec.extractLsb'_toNat, Nat.shiftRight_eq_div_pow, pow_zero, Nat.div_one]

/-- Settles O14: each write latches one global register, and the halves of the address are on numbers
`extAddr_lowWritten_toNat` and `extAddr_highWritten_toNat`. -/
theorem externalMemoryLatches : Obligations.ExternalMemoryLatches := by
  refine ⟨fun m d => ?_, fun s d => ⟨⟨_, rfl, ?_⟩, ⟨_, rfl, ?_⟩, ⟨_, rfl, ?_⟩⟩⟩
  · simp only [decode_globalWrite m (o := 0x0011) (by decide),
      decode_globalWrite m (o := 0x0012) (by decide), decode_globalWrite m (o := 0x0013) (by decide)]
    exact ⟨rfl, rfl, rfl⟩
  · exact ⟨extAddr_lowWritten_toNat _ d, rfl, rfl, rfl, onlyGlobals_latched s _ _ _ _⟩
  · exact ⟨extAddr_highWritten_toNat _ d, rfl, rfl, rfl, onlyGlobals_latched s _ _ _ _⟩
  · exact ⟨rfl, rfl, rfl, rfl, onlyGlobals_latched s _ _ _ _⟩

/-! ## The status register -/

theorem serve_wrStatus (d : Half) (s : State) :
    serve (asmWr 0x0000 d) s = .next { s with status := d } :=
  serve_asmWr_global (by decide) d s

theorem serve_rdStatus (s : State) : serve (asmRd 0x0000) s = .next (returnRead s s.status) :=
  serve_asmRd_global (by decide) s

/-- The only access that writes the status register is its own. -/
theorem exec_status {i : Instr} {s t : State} (h : exec i s = .next t) :
    t.status = s.status ∨ ∃ d, i = .wrStatus d := by
  cases i with
  | wrStatus d => exact .inr ⟨d, rfl⟩
  | wrKeyoff ch ig =>
    by_cases hphase : (voiceAt s ch).envPhase = .none
    · rw [exec_wrKeyoff_of_silent hphase] at h; cases h; exact .inl rfl
    · rw [exec_wrKeyoff_of_sounding hphase] at h; cases h; exact .inl rfl
  | wrExtwrite ig =>
    rw [exec_wrExtwrite] at h
    split at h <;> cases h
    exact .inl rfl
  | rdExtdata =>
    rw [exec_rdExtdata] at h
    split at h <;> cases h
    exact .inl rfl
  | _ => cases h; exact .inl rfl

/-- The only step that writes the status register serves a status write or a reset. -/
theorem step_status {s t : State} (h : step s = .next t) :
    t.status = s.status ∨ (∃ d, nextAccess s = some (.wrStatus d)) ∨ nextIsReset s = true := by
  rcases step_cases s with ⟨-, hs⟩ | ⟨q, rest, hp, hs⟩ <;> rw [hs] at h
  · cases h; exact .inl rfl
  · cases q with
    | access w lanes =>
      simp only [serve, serveAccess] at h
      split at h
      · rcases exec_status h with hkept | ⟨d, hd⟩
        · exact .inl hkept
        · exact .inr (.inl ⟨d, by simpa [nextAccess, hp] using hd⟩)
      · cases h
    | tick => rw [portTick_frame h]; exact .inl rfl
    | block samples =>
      cases samples with
      | zero => cases h; exact .inl rfl
      | succ k => rw [portTick_frame h]; exact .inl rfl
    | setClock hz =>
      simp only [serve, portSetClock] at h
      split at h <;> cases h
      exact .inl rfl
    | reset => exact .inr (.inr (by simp [nextIsReset, hp]))
    | refill a b =>
      simp only [serve, portRefill] at h
      split at h <;> cases h
      exact .inl rfl

/-- Settles O11: a write followed by a read is two requests served in turn, and every other step leaves
the register (`step_status`). -/
theorem statusRegisterPassesThrough : Obligations.StatusRegisterPassesThrough := by
  refine ⟨fun m d => ?_, fun s d => rfl, fun s => completes_of_returnRead rfl,
    fun s d rest hp => ?_, fun s t => step_status, rfl⟩
  · rw [decode_globalWrite m (by decide), decode_globalRead m (by decide)]
    exact ⟨rfl, rfl⟩
  · rw [run_succ_of_serve 1 hp (serve_wrStatus d _), run_succ_of_serve 0 rfl (serve_rdStatus _)]
    rfl

/-! ## The position poll -/

/-- The poll value of a sounding voice on integers (40 R88). -/
theorem pollValue_toNat {v : Voice} (h : v.envPhase ≠ .none) :
    ((pollValue v).toNat : Int) =
      (((v.pos.toNat / 2 ^ 16 : Nat) : Int) - ((voiceStart v).toNat : Int)) %
        2 ^ 24 / 2 ^ 6 % 2 ^ 16 := by
  have hpos := v.pos.isLt
  have hstart := (voiceStart v).isLt
  rw [pollValue, if_neg (mt (isSilent_iff v).1 h), BitVec.extractLsb'_toNat,
    Nat.shiftRight_eq_div_pow, BitVec.toNat_sub, posIndex_toNat]
  omega

/-- Settles O13: the read answers `pollValue`, which is `pollValue_toNat` where the voice sounds. -/
theorem positionPollValue : Obligations.PositionPollValue := by
  refine ⟨fun m d => ?_, fun s => ?_⟩
  · rw [decode_globalRead m (by decide)]; rfl
  · exact ⟨_, _, rfl, onlyAnswers_returnRead s _, fun h => if_pos ((isSilent_iff _).2 h),
      pollValue_toNat⟩

theorem dataVoice_setWidth (ch : VoiceIdx) : dataVoice (ch.setWidth 16) = ch := by
  have := ch.isLt
  apply BitVec.eq_of_toNat_eq
  rw [dataVoice_toNat, BitVec.toNat_setWidth]
  omega

/-- The first access of POLL latches the voice it names (30_encoding R78). -/
theorem serve_pollLatch (ch : VoiceIdx) (s : State) :
    serve (asmWr 0x0008 (ch.setWidth 16)) s = .next { s with reqch := ch } := by
  have hlatch : serve (asmWr 0x0008 (ch.setWidth 16)) s = execWrReqch (dataVoice (ch.setWidth 16)) s :=
    serve_asmWr_global (by decide) _ s
  rw [hlatch, dataVoice_setWidth]
  rfl

/-- The second access of POLL answers for the voice latched. -/
theorem serve_pollRead (s : State) :
    serve (asmRd 0x0009) s = .next (returnRead s (pollValue (voiceAt s s.reqch))) :=
  serve_asmRd_global (by decide) s

/-- Settles O12: the write latches one global register, and POLL is that write and the position read. -/
theorem requestedChannelLatch : Obligations.RequestedChannelLatch := by
  refine ⟨fun m d => ?_, fun s ch ig => ?_, fun s ch rest hp => ?_⟩
  · rw [decode_globalWrite m (by decide), ← dataVoice_eq_ofNat, ← extractLsb'_eq_ofNat]
    rfl
  · exact ⟨_, rfl, rfl, rfl, rfl, rfl, onlyGlobals_latched s _ _ _ _⟩
  · rw [run_succ_of_serve 1 hp (serve_pollLatch ch _), run_succ_of_serve 0 rfl (serve_pollRead _)]
    rfl

/-! ## Accesses without an effect -/

/-- Settles O18: each of these words decodes to one of the three rows whose meaning is the unchanged
state. -/
theorem writesWithoutEffect : Obligations.WritesWithoutEffect := by
  refine fun m s d => ⟨fun _ _ => rfl, fun _ => rfl, fun _ _ _ => rfl, fun hcmd => ?command,
    fun o ho hlist => ?global, fun o ho hreg => ?channel⟩
  case command =>
    have hrow : decodeGlobalWrite 0x014 d = .wrExtcmdNop _ _ := decodeExtCommand_noEffect hcmd
    rw [decode_globalWrite m (by decide), hrow]
    rfl
  case global =>
    rw [decode_globalWrite m ho, decodeGlobalWrite_unlisted hlist]
    rfl
  case channel =>
    rw [← offsetReg_eq_ofNat] at hreg
    rw [decode_accessWord, decodeAccess_channel m ho.not_gt, if_pos rfl,
      Laws.decodeChannelWrite_unlisted m hreg]
    rfl

/-- Settles O19: each of these words decodes to one of the two rows that answer 0x0000. -/
theorem unlistedReadsAnswerZero : Obligations.UnlistedReadsAnswerZero := by
  refine fun m s d => ⟨fun _ => completes_of_returnRead rfl, fun _ _ _ => completes_of_returnRead rfl,
    fun o hlist => completes_of_returnRead ?_⟩
  by_cases ho : o.toNat < 0x400
  · rw [decode_globalRead m ho, decodeGlobalRead_unlisted (hlist ho)]
    rfl
  · rw [decode_accessWord, decodeAccess_channel m ho]
    rfl

end Sys2Proof.Machine
end

section
/-! PROOF. The voice channel controller: one voice in a tick, the tick of all voices, a block of ticks and
the clock setting (41 R120 to R128). -/

namespace Sys2Proof.Machine

/-! ## One voice in a tick -/

/-- The stages after the fetch (41 R122): the envelope step leaves alone every field that the decoder, the
mixer and the phase accumulator look at, but for the level. -/
theorem sounding_eq (s : State) (v : Voice) (w : Half) :
    sounding s v w =
      ({ envAdvance s v with pos := phaseAdvance v },
        mix s (signFold (typeDecode w (voiceType v))) (voiceVolume v) (envAdvance s v).envLevel
          (voicePanL v) (voicePanR v)) := by
  have hframe := envAdvance_frame s v
  have hvol : voiceVolume (envAdvance s v) = voiceVolume v := by rw [hframe]; rfl
  have hpanL : voicePanL (envAdvance s v) = voicePanL v := by rw [hframe]; rfl
  have hpanR : voicePanR (envAdvance s v) = voicePanR v := by rw [hframe]; rfl
  have hpos : phaseAdvance (envAdvance s v) = phaseAdvance v := by rw [hframe]; rfl
  simp only [sounding, hvol, hpanL, hpanR, hpos]

theorem isSkipped_iff (v : Voice) :
    isSkipped v = true ↔ voiceStart v = voiceEnd v ∨ v.envPhase = .none := by
  rw [isSkipped, Bool.or_eq_true, isDegenerate_iff, isSilent_iff]

/-- A voice that is not skipped does what its fetch lets it do. -/
theorem voiceTick_of_fetch {s : State} {n : VoiceIdx} {v : Voice} (hskip : isSkipped v = false) :
    voiceTick s n v = (fetchWord s n v).map (sounding s v) := by
  obtain ⟨hdeg, hsilent⟩ := Bool.or_eq_false_iff.1 hskip
  simp only [voiceTick, hdeg, hsilent, Bool.false_eq_true, if_false]
  cases fetchWord s n v <;> rfl

/-- Settles O30: both cases are `voiceTick_of_fetch`, and `sounding_eq` lists the stages. -/
theorem voiceTickRunsThePipeline : Obligations.VoiceTickRunsThePipeline := by
  intro s n v v' hdeg hsounds hv'
  have hskip : isSkipped v = false := by
    rw [← Bool.not_eq_true, isSkipped_iff]
    exact not_or.2 ⟨hdeg, hsounds⟩
  rw [voiceTick_of_fetch hskip]
  refine ⟨fun w x hw hx => ?_, fun f hf => by rw [hf]; rfl⟩
  rw [hw, hx, hv', ← sounding_eq]
  rfl

/-! ## Voices that are silent, or become so -/

/-- At level 0.0 the mixer gives nothing on either side (44 R165, R166). -/
theorem mix_levelZero (s : State) (x : Int) (code cl cr : Byte) :
    mix s x code f64Zero cl cr = (0, 0) := by
  simp [mix, envelopeStage, panStage]

/-- The only way into `NONE` is the boundary of a fall, which clears level and step (43 R151). -/
theorem envAdvance_of_ends {s : State} {v : Voice} (hsounds : v.envPhase ≠ .none)
    (hends : (envAdvance s v).envPhase = .none) :
    envAdvance s v = { v with envLevel := f64Zero, envPhase := .none, envStep := f64Zero } := by
  rcases envAdvance_cases s v with ⟨hphase, -⟩ | ⟨-, -, e⟩ | ⟨-, -, e⟩ | ⟨-, -, e⟩ | ⟨-, -, e⟩
  · exact absurd hphase hsounds
  · rw [e] at hends; cases hends
  · rw [e] at hends; exact absurd hends hsounds
  · exact e
  · rw [e] at hends; exact absurd hends hsounds

/-- A voice that sounds and ends in a tick is mixed at level 0.0. -/
theorem sounding_of_ends {s : State} {v : Voice} {w : Half} (hsounds : v.envPhase ≠ .none)
    (hends : (sounding s v w).1.envPhase = .none) :
    sounding s v w =
      ({ v with envLevel := f64Zero, envPhase := .none, envStep := f64Zero,
                pos := phaseAdvance v }, 0, 0) := by
  rw [sounding_eq] at hends ⊢
  rw [envAdvance_of_ends hsounds hends, mix_levelZero]

/-- Settles O31: a voice that changes its phase in a tick was not skipped, so it sounded, and
`sounding_of_ends` says what it does then. -/
theorem skippedAndEndingVoicesAreSilent : Obligations.SkippedAndEndingVoicesAreSilent := by
  refine fun s n v =>
    ⟨fun hskip => voiceTick_of_skipped ((isSkipped_iff v).2 hskip), fun v' l r htick hsounds hends => ?_⟩
  rcases voiceTick_cases s n v with ⟨-, e⟩ | ⟨-, -, -, e⟩ | ⟨-, -, -, e⟩ <;> rw [e] at htick
  · cases htick
    exact absurd hends hsounds
  · have hsounding := Except.ok.inj htick
    rw [sounding_of_ends hsounds (by rw [hsounding]; exact hends)] at hsounding
    cases hsounding
    exact ⟨rfl, rfl, rfl, rfl, rfl⟩
  · cases htick

/-! ## All voices in a tick -/

/-- `portTick_voice`, with what the voice contributes named. -/
theorem portTick_contribution {s t : State} (h : portTick s = .next t) (n : VoiceIdx) :
    voiceTick s n (voiceAt s n) =
      .ok (voiceAt t n, (contribution s n).1, (contribution s n).2) := by
  obtain ⟨l, r, hv⟩ := portTick_voice h n
  rw [contribution_of_ok hv, hv]

theorem portTick_outputs {s t : State} (h : portTick s = .next t) :
    t.outputs = s.outputs ++ [tickSums s] := by
  unfold portTick at h
  split at h
  · cases h
  next t' l r hloop =>
    cases h
    obtain ⟨hframe, -, -, rfl, rfl⟩ :=
      (tickLoop_ok_iff allVoices s t' 0 0 l r allVoices_nodup).1 hloop
    rw [emitPair_outputs, hframe, zero_add, zero_add, tickSums]

/-- Settles O27: `tickLoop_ok_iff` says what each voice and the sums come to, `portTick_frame` that nothing
else is written. -/
theorem tickActsOnEachVoiceAlone : Obligations.TickActsOnEachVoiceAlone := by
  intro s t h
  refine ⟨portTick_contribution h, portTick_outputs h, ?_⟩
  rw [portTick_frame h]
  exact ⟨⟨rfl, rfl, rfl, rfl⟩, ⟨rfl, rfl⟩, ⟨rfl, rfl, rfl, rfl, rfl⟩, fun _ => rfl, rfl, rfl⟩

/-- Settles O33: both states give voice `n` the same tick (`voiceTick_congr`), and it decides the record
after it and the contribution. -/
theorem voicesAreIndependent : Obligations.VoicesAreIndependent := by
  intro s s' t t' n hcfg htables hstorage hvoice ht ht'
  have htick : voiceTick s' n (voiceAt s' n) = voiceTick s n (voiceAt s n) := by
    rw [hvoice]
    exact voiceTick_congr hcfg htables hstorage n _
  have hcontribution : contribution s' n = contribution s n := by simp only [contribution, htick]
  rw [portTick_contribution ht', portTick_contribution ht] at htick
  exact ⟨congrArg Prod.fst (Except.ok.inj htick), hcontribution⟩

theorem tickLoop_of_skipped (order : List VoiceIdx) {s : State}
    (h : ∀ n, isSkipped (voiceAt s n) = true) (l r : Int) :
    tickLoop s l r order = .ok (s, l, r) := by
  induction order with
  | nil => rfl
  | cons n rest ih =>
    simp only [tickLoop, voiceTick_of_skipped (h n), setVoice_voiceAt, add_zero, ih]

theorem portTick_of_skipped {s : State} (h : ∀ n, isSkipped (voiceAt s n) = true) :
    portTick s = .next (emitPair s 0 0) := by
  simp only [portTick, tickLoop_of_skipped allVoices h]

theorem isSkipped_resetVoice : isSkipped resetVoice = true := by decide

/-- Settles O32: the loop passes over every voice, and after reset each record is `resetVoice`. -/
theorem tickOfSkippedVoicesEmitsZero : Obligations.TickOfSkippedVoicesEmitsZero := by
  refine ⟨fun _ => portTick_of_skipped, portTick_of_skipped fun n => ?_⟩
  rw [State.reset, voiceAt_initialState]
  exact isSkipped_resetVoice

/-! ## A block of ticks -/

/-- The requests still to serve play no part in what a voice does in a tick. -/
theorem voiceTick_withPending (s : State) (q : List HostRequest) (n : VoiceIdx) (v : Voice) :
    voiceTick { s with pending := q } n v = voiceTick s n v :=
  voiceTick_congr (s := s) (t := { s with pending := q }) rfl ⟨rfl, rfl, rfl, rfl, rfl⟩
    (fun _ => rfl) n v

theorem tickLoop_withPending (q : List HostRequest) (order : List VoiceIdx) :
    ∀ (s : State) (l r : Int), tickLoop { s with pending := q } l r order =
      (tickLoop s l r order).map fun p => ({ p.1 with pending := q }, p.2) := by
  induction order with
  | nil => exact fun _ _ _ => rfl
  | cons n rest ih =>
    intro s l r
    have hvoice : voiceAt { s with pending := q } n = voiceAt s n := rfl
    simp only [tickLoop, voiceTick_withPending, hvoice]
    split
    · rfl
    next v dl dr _ => exact ih (setVoice s n v) (l + dl) (r + dr)

/-- A tick completes or faults, and does the same whatever requests wait behind it. -/
theorem portTick_withPending (s : State) (q : List HostRequest) :
    (∃ t, portTick s = .next t ∧ portTick { s with pending := q } = .next { t with pending := q }) ∨
      ∃ f, portTick s = .fault f ∧ portTick { s with pending := q } = .fault f := by
  simp only [portTick, tickLoop_withPending]
  cases tickLoop s 0 0 allVoices with
  | error f => exact .inr ⟨f, rfl, rfl⟩
  | ok p => exact .inl ⟨_, rfl, rfl⟩

/-- A run ends with the fault of the first request. -/
theorem run_succ_of_serve_fault {s : State} {q : HostRequest} {rest : List HostRequest} {f : Fault}
    (k : Nat) (hp : s.pending = q :: rest) (hs : serve q { s with pending := rest } = .fault f) :
    Host.Core.run Sys2Proof.core (k + 1) s = .fault f := by
  have hstep : Sys2Proof.core.step s = .fault f := (step_of_pending hp).trans hs
  simp only [Host.Core.run, hstep]

/-- Settles O35, by induction on the number of samples: a block of `k + 1` is served by a tick that leaves a
block of `k` in the queue, of which the tick takes no notice (`portTick_withPending`). -/
theorem blockRequestIsConsecutiveTicks : Obligations.BlockRequestIsConsecutiveTicks := by
  intro k
  induction k with
  | zero => exact fun s rest hp => run_succ_of_serve 0 hp rfl
  | succ k ih =>
    intro s rest hp
    rcases portTick_withPending { s with pending := rest } (.block k :: rest) with
      ⟨t, ht, hserve⟩ | ⟨f, hf, hserve⟩
    · have hrest : { t with pending := rest } = t := by rw [portTick_frame ht]
      have hticks : runTicks (k + 1) { s with pending := rest } = runTicks k t := by
        simp only [runTicks, ht]
      rw [run_succ_of_serve (k + 1) hp hserve, ih _ rest rfl, hrest, hticks]
    · have hticks : runTicks (k + 1) { s with pending := rest } = .fault f := by
        simp only [runTicks, hf]
      exact (run_succ_of_serve_fault (k + 1) hp hserve).trans hticks.symm

/-! ## The clock setting -/

/-- A clock of at least 384 Hz is taken (41 R127). -/
theorem portSetClock_of_le {c : Nat} (h : 384 ≤ c) (s : State) :
    portSetClock c s = .next (buildRateTables { s with clock := c }) := by
  rw [portSetClock, if_neg h.not_gt]

/-- Settles O46: the tables are rebuilt for `sampleRate c`, and an entry of each is its `rateEntry`, whose
three segments are the formulas. -/
theorem setClockRebuildsTheRateTables : Obligations.SetClockRebuildsTheRateTables := by
  intro s c hc
  refine ⟨_, portSetClock_of_le hc s, rfl, rfl, fun _ => rfl, ⟨rfl, rfl, rfl, rfl⟩, fun _ => rfl,
    ⟨rfl, rfl, rfl⟩, rfl, rfl, fun i => ⟨?attack, ?decay, ?release⟩⟩
  case attack =>
    rw [buildRateTables_ar, buildAttackTable_get]
    rfl
  case decay =>
    rw [buildRateTables_dr, buildFallTable_get]
    rfl
  case release =>
    rw [buildRateTables_rr, buildFallTable_get]
    rfl

end Sys2Proof.Machine
end

section
/-! PROOF. The sample fetch unit: the address a voice fetches at (42 R133) and the sign fold as a one-to-one
map (42 R136). -/

namespace Sys2Proof.Machine

/-! ## The fetch address -/

/-- Doubling a sample index loses no bit: 24 bits become at most 25. -/
theorem sampleByteAddr_toNat (i : Addr24) : (sampleByteAddr i).toNat = i.toNat * 2 := by
  have hi := i.isLt
  rw [sampleByteAddr, BitVec.toNat_shiftLeft, BitVec.toNat_setWidth, Nat.shiftLeft_eq]
  omega

theorem fetchAddr_toNat (v : Voice) : (fetchAddr v).toNat = v.pos.toNat / 2 ^ 16 * 2 := by
  rw [fetchAddr, sampleByteAddr_toNat, posIndex_toNat]

/-- The last word a position can reach lies at `0x1FFFFFE`. -/
theorem fetchAddr_le (v : Voice) : (fetchAddr v).toNat ≤ 0x1FFFFFE := by
  have hpos := v.pos.isLt
  rw [fetchAddr_toNat]
  omega

/-- Settles O36: the fetch is a storage read at `fetchAddr v`, which has the two answers of
`storageRead_of_inside` and `storageRead_of_outside`. -/
theorem fetchReadsTheWordUnderThePosition : Obligations.FetchReadsTheWordUnderThePosition :=
  fun _ _ v => ⟨fetchAddr_toNat v, fetchAddr_le v, storageRead_of_inside, storageRead_of_outside⟩

/-! ## The sign fold -/

/-- The sign of a fold tells which half its word is in, and the value then tells the word. -/
theorem signFold_injective : Function.Injective signFold := by
  intro x y h
  have hx := x.isLt
  have hy := y.isLt
  rw [signFold_eq, signFold_eq] at h
  apply BitVec.eq_of_toNat_eq
  split at h <;> split at h <;> omega

/-- The word whose fold is `y`, for `y` from -32768 to 32767: `y` itself, or 0x8000 for -1 and upward from
there for the numbers below. -/
def unfoldSign (y : Int) : Half :=
  if 0 ≤ y then BitVec.ofNat 16 y.toNat else BitVec.ofNat 16 (0x8000 + (-1 - y).toNat)

theorem signFold_unfoldSign {y : Int} (hlow : -32768 ≤ y) (hhigh : y ≤ 32767) :
    signFold (unfoldSign y) = y := by
  rw [signFold_eq, unfoldSign]
  split
  case isTrue hy =>
    rw [BitVec.toNat_ofNat, Nat.mod_eq_of_lt (by omega), if_pos (by omega)]
    exact Int.toNat_of_nonneg hy
  case isFalse hy =>
    rw [BitVec.toNat_ofNat, Nat.mod_eq_of_lt (by omega), if_neg (by omega)]
    omega

/-- Settles O38: the value law is `signFold_eq`; `unfoldSign y` is a word that folds to `y`, and the only one
because the fold is injective. -/
theorem signFoldIsOneToOne : Obligations.SignFoldIsOneToOne := by
  refine ⟨signFold_eq, fun y hlow hhigh => ?_⟩
  have hfold := signFold_unfoldSign hlow hhigh
  exact ⟨unfoldSign y, hfold, fun _ h => signFold_injective (h.trans hfold.symm)⟩

end Sys2Proof.Machine
end

section
/-! PROOF. The envelope state machine: the rate index and the tables it looks up, the envelope step, and
what a tick and a step make of a voice's phase and level (43 R143 to R153). -/

namespace Sys2Proof.Machine

/-! ## The rate index and the rate tables -/

/-- `decode80` on numbers (43 R143). -/
theorem decode80_val (b : Byte) :
    (decode80 b).val = if b.toNat / 2 ^ 7 = 1 then b.toNat % 2 ^ 7 + 0x1F else b.toNat := by
  have hb := b.isLt
  have hlow : (b.extractLsb' 0 7).toNat = b.toNat % 2 ^ 7 := by simp
  have hbit : b.getLsbD 7 = true ↔ b.toNat / 2 ^ 7 = 1 := by
    rw [BitVec.getLsbD, Nat.testBit_eq_decide_div_mod_eq, decide_eq_true_eq]
    omega
  by_cases h : b.getLsbD 7 = true
  · simp only [decode80, if_pos h, if_pos (hbit.1 h), hlow]
  · have hsmall := mt hbit.2 h
    simp only [decode80, if_neg h, if_neg hsmall, hlow]
    omega

/-- Settles O39: the high byte of the register is the byte that `decode80_val` is about, and every function
answers in `Fin 0x9F`. -/
theorem defaultRateIndex : Obligations.DefaultRateIndex := by
  refine ⟨fun r => ?_, fun f r => Nat.le_of_lt_succ (rateIndex f r).isLt⟩
  have hr := r.isLt
  have hbyte : (r.extractLsb' 8 8).toNat = r.toNat / 2 ^ 8 := by
    rw [BitVec.extractLsb'_toNat, Nat.shiftRight_eq_div_pow]
    omega
  have hbit : r.toNat / 2 ^ 8 / 2 ^ 7 = r.toNat / 2 ^ 15 := Nat.div_div_eq_div_mul ..
  rw [rateIndex, decode80_val, hbyte, hbit]

/-- At and above `MAX` an entry is 0.0 (43 R144, R145). -/
theorem rateEntry_of_max_le {c : RateConsts} (hc : c.min ≤ c.max) {i : Nat} (hi : c.max ≤ i)
    (low rate : F64) : rateEntry c low rate i = f64Zero := by
  rw [rateEntry, if_neg (by omega), if_neg (by omega)]

theorem attackStep_of_max_le {s : State} {v : Voice} (ht : TablesOk s)
    (hc : s.cfg.attackRate.min ≤ s.cfg.attackRate.max)
    (hi : s.cfg.attackRate.max ≤ (rateIndex s.cfg.rateIndex v.attack).val) :
    attackStep s v = f64Zero := by
  rw [attackStep, ht.attack, buildAttackTable_get, rateEntry_of_max_le hc hi]

/-- `DecayStep(n)` on numbers (43 R147). -/
theorem decayStep_eq (s : State) (v : Voice) :
    decayStep s v =
      if v.decay.toNat / 2 ^ 7 % 2 = 1 ∨ v.decay.toNat = 0x100 then f64Zero
      else s.dr[rateIndex s.cfg.rateIndex v.decay] := by
  have hconst : v.decay = 0x0100 ↔ v.decay.toNat = 0x100 := BitVec.toNat_inj.symm
  simp only [decayStep, BitVec.getLsbD, Nat.testBit_eq_decide_div_mod_eq, decide_eq_true_eq, hconst]

/-- Each rate table has the sign of its phase (43 R153). -/
theorem Inv.rateTable_signs {s : State} (h : Inv s) (i : Fin 0x9F) :
    0 ≤ s.ar[i].units ∧ s.dr[i].units ≤ 0 ∧ s.rr[i].units ≤ 0 := by
  have hattack := h.params.attackRate
  have hdecay := fallBase_nonpos h.params.decayRate (sampleRate s.clock)
  have hrelease := fallBase_nonpos h.params.releaseRate (sampleRate s.clock)
  rw [h.tables.attack, h.tables.decay, h.tables.release, buildAttackTable_get, buildFallTable_get,
    buildFallTable_get]
  exact ⟨rateEntry_nonneg hattack (by simp) (attackBase_nonneg hattack _) _,
    rateEntry_nonpos h.params.decayRate hdecay hdecay _,
    rateEntry_nonpos h.params.releaseRate hrelease hrelease _⟩

/-! ## The envelope step: one equation per outcome (43 R149 to R151) -/

theorem envAdvance_attack (s : State) {v : Voice} (hphase : v.envPhase = .attack) :
    envAdvance s v = attackBoundary s { v with envLevel := f64Add v.envLevel (envRate v) } := by
  simp only [envAdvance, hphase]

/-- A decay and a release have one boundary. -/
theorem envAdvance_fall (s : State) {v : Voice}
    (hphase : v.envPhase = .decay ∨ v.envPhase = .release) :
    envAdvance s v = fallBoundary { v with envLevel := f64Add v.envLevel (envRate v) } := by
  rcases hphase with hp | hp <;> simp only [envAdvance, hp]

theorem envAdvance_attack_reaches (s : State) {v : Voice} (hphase : v.envPhase = .attack)
    (hlevel : f64One ≤ (f64Add v.envLevel (envRate v)).units) :
    envAdvance s v = { v with envLevel := f64Unit, envPhase := .decay, envStep := decayStep s v } :=
  (envAdvance_attack s hphase).trans (if_pos (decide_eq_true hlevel))

theorem envAdvance_attack_below (s : State) {v : Voice} (hphase : v.envPhase = .attack)
    (hlevel : (f64Add v.envLevel (envRate v)).units < f64One) :
    envAdvance s v = { v with envLevel := f64Add v.envLevel (envRate v) } :=
  (envAdvance_attack s hphase).trans
    (if_neg fun h => Int.not_le.2 hlevel (of_decide_eq_true h))

theorem envAdvance_fall_ends (s : State) {v : Voice}
    (hphase : v.envPhase = .decay ∨ v.envPhase = .release)
    (hlevel : (f64Add v.envLevel (envRate v)).units ≤ 0) :
    envAdvance s v = { v with envLevel := f64Zero, envPhase := .none, envStep := f64Zero } :=
  (envAdvance_fall s hphase).trans (if_pos (decide_eq_true hlevel))

theorem envAdvance_fall_above (s : State) {v : Voice}
    (hphase : v.envPhase = .decay ∨ v.envPhase = .release)
    (hlevel : 0 < (f64Add v.envLevel (envRate v)).units) :
    envAdvance s v = { v with envLevel := f64Add v.envLevel (envRate v) } :=
  (envAdvance_fall s hphase).trans (if_neg fun h => Int.not_le.2 hlevel (of_decide_eq_true h))

/-- Settles O40: the four outcomes are the four equations above. -/
theorem envelopeBoundaries : Obligations.EnvelopeBoundaries := by
  rintro s v _ rfl
  rw [← decayStep_eq]
  exact ⟨envAdvance_attack_reaches s, envAdvance_attack_below s, envAdvance_fall_ends s,
    envAdvance_fall_above s⟩

/-! ## One voice in a tick -/

/-- Everything a voice that completes its tick can have done: it was skipped, or its envelope stepped, its
position advanced and it was mixed at the new level (41 R122 to R124). -/
theorem voiceTick_ok_cases {s : State} {n : VoiceIdx} {v v' : Voice} {l r : Int}
    (h : voiceTick s n v = .ok (v', l, r)) :
    (v' = v ∧ l = 0 ∧ r = 0) ∨
    (v.envPhase ≠ .none ∧ v' = { envAdvance s v with pos := phaseAdvance v } ∧
      ∃ x, mix s x (voiceVolume v) (envAdvance s v).envLevel (voicePanL v) (voicePanR v) = (l, r)) := by
  rcases voiceTick_cases s n v with ⟨-, e⟩ | ⟨hskip, -, -, e⟩ | ⟨-, -, -, e⟩ <;> rw [e] at h
  · cases h; exact .inl ⟨rfl, rfl, rfl⟩
  · have hsounds : v.envPhase ≠ .none := fun hnone => by
      simp [(isSkipped_iff v).2 (.inr hnone)] at hskip
    rw [sounding_eq] at h
    obtain ⟨hv, hmix⟩ := Prod.mk.inj (Except.ok.inj h)
    exact .inr ⟨hsounds, hv.symm, _, hmix⟩
  · cases h

/-! ## The transition graph -/

/-- The phases an envelope step can reach (43 R152). -/
theorem envAdvance_phase (s : State) {v : Voice} (hsounds : v.envPhase ≠ .none) :
    (envAdvance s v).envPhase = v.envPhase ∨
    (v.envPhase = .attack ∧ (envAdvance s v).envPhase = .decay) ∨
    ((v.envPhase = .decay ∨ v.envPhase = .release) ∧ (envAdvance s v).envPhase = .none) := by
  rcases envAdvance_cases s v with ⟨hnone, -⟩ | ⟨hphase, -, e⟩ | ⟨-, -, e⟩ | ⟨hphase, -, e⟩ |
    ⟨-, -, e⟩
  · exact absurd hnone hsounds
  · exact .inr (.inl ⟨hphase, by rw [e]⟩)
  · exact .inl (by rw [e])
  · exact .inr (.inr ⟨hphase, by rw [e]⟩)
  · exact .inl (by rw [e])

theorem phaseEdge_of_voiceTick {s : State} {n : VoiceIdx} {v v' : Voice} {l r : Int}
    (hnext : nextIsTick s = true) (h : voiceTick s n v = .ok (v', l, r)) :
    v'.envPhase = v.envPhase ∨ phaseEdge s n v.envPhase v'.envPhase := by
  rcases voiceTick_ok_cases h with ⟨rfl, -, -⟩ | ⟨hsounds, rfl, -⟩
  · exact .inl rfl
  · rcases envAdvance_phase s hsounds with hkept | ⟨hattack, hdecay⟩ | ⟨hfall, hnone⟩
    · exact .inl hkept
    · simp only [hdecay]
      exact .inr ⟨hattack, hnext⟩
    · simp only [hnone]
      exact .inr (.inr (.inr ⟨hfall, hnext⟩))

theorem phaseEdge_of_write {s : State} {n : VoiceIdx} {v v' : Voice} {i : Instr}
    (hnext : nextAccess s = some i) (hw : VoiceWrite s v i n v') :
    v'.envPhase = v.envPhase ∨ phaseEdge s n v.envPhase v'.envPhase := by
  cases hw with
  | keyOn _ ig => exact .inr ⟨ig, hnext⟩
  | keyOff _ ig hsounds => exact .inr ⟨hsounds, ig, hnext⟩
  | mute _ low ig => exact .inr (.inl ⟨low, ig, hnext⟩)
  | _ => exact .inl rfl

/-- Settles O41: a step keeps a voice, writes it, ticks it or resets it (`step_voiceChange`), and each of
these moves the phase along an edge of its own. -/
theorem phaseMovesOnlyAlongTheGraph : Obligations.PhaseMovesOnlyAlongTheGraph := by
  intro s t n hstep
  have hchange := step_voiceChange hstep n
  generalize voiceAt t n = v' at hchange ⊢
  cases hchange with
  | kept => exact .inl rfl
  | written hnext hw => exact phaseEdge_of_write hnext hw
  | ticked hnext hv => exact phaseEdge_of_voiceTick hnext hv
  | reset hnext => exact .inr (.inr (.inl hnext))

/-! ## Monotone levels -/

/-- An attack does not lower the level: it adds a step that is not negative, or stops at 1.0. -/
theorem envAdvance_rises (s : State) {v : Voice} (hv : VoiceOk v) (hphase : v.envPhase = .attack) :
    v.envLevel.units ≤ (envAdvance s v).envLevel.units := by
  have hsign : 0 ≤ v.envStep.units := by simpa only [hphase, stepSignOk] using hv.step_sign
  rcases Int.lt_or_le (f64Add v.envLevel (envRate v)).units f64One with hbelow | hreach
  · rw [envAdvance_attack_below s hphase hbelow, hv.envRate_eq]
    exact le_f64Add hv.level_rounded hsign
  · rw [envAdvance_attack_reaches s hphase hreach]
    exact hv.level_le_one

/-- A decay or release does not raise the level: it adds a step that is not positive, or stops at 0.0. -/
theorem envAdvance_falls (s : State) {v : Voice} (hv : VoiceOk v)
    (hphase : v.envPhase = .decay ∨ v.envPhase = .release) :
    (envAdvance s v).envLevel.units ≤ v.envLevel.units := by
  have hsign : v.envStep.units ≤ 0 := by
    rcases hphase with hp | hp <;> simpa only [hp, stepSignOk] using hv.step_sign
  rcases Int.lt_or_le 0 (f64Add v.envLevel (envRate v)).units with habove | hends
  · rw [envAdvance_fall_above s hphase habove, hv.envRate_eq]
    exact f64Add_le hv.level_rounded hsign
  · rw [envAdvance_fall_ends s hphase hends]
    exact hv.level_nonneg

/-- A tick that completes keeps the level of a voice or makes it that of its envelope step. -/
theorem portTick_level {s t : State} (h : portTick s = .next t) (n : VoiceIdx) :
    (voiceAt t n).envLevel = (voiceAt s n).envLevel ∨
      (voiceAt t n).envLevel = (envAdvance s (voiceAt s n)).envLevel := by
  obtain ⟨l, r, hv⟩ := portTick_voice h n
  rcases voiceTick_ok_cases hv with ⟨hkept, -⟩ | ⟨-, hadvanced, -⟩
  · exact .inl (by rw [hkept])
  · exact .inr (by rw [hadvanced])

/-- Settles O42: the tables have their signs, each level moves as its envelope step does, and the bounds
are those of the invariant, which the tick keeps. -/
theorem envelopeIsMonotone : Obligations.EnvelopeIsMonotone := by
  intro s h
  refine ⟨h.rateTable_signs, fun t ht => ⟨fun n hphase => ?_, fun n hphase => ?_, fun n => ?_⟩⟩
  · rcases portTick_level ht n with hkept | hadvanced
    · rw [hkept]
    · rw [hadvanced]
      exact envAdvance_rises s (h.voices n) hphase
  · rcases portTick_level ht n with hkept | hadvanced
    · rw [hkept]
    · rw [hadvanced]
      exact envAdvance_falls s (h.voices n) hphase
  · have hvoice := (h.of_portTick ht).voices n
    exact ⟨hvoice.level_nonneg, hvoice.level_le_one⟩

/-! ## A step of 0.0 -/

/-- With a step of 0.0 the level an envelope step tests is the level it has. -/
theorem f64Add_envRate_of_stepZero {v : Voice} (hstep : v.envStep = f64Zero)
    (hround : f64Rounded v.envLevel) : f64Add v.envLevel (envRate v) = v.envLevel := by
  rw [envRate, hstep, f64Zero_mul, f64Add, f64Zero_units, add_zero, f64Round_eq_self hround]

/-- A step of 0.0 changes nothing of an attack below 1.0 (90 C3). -/
theorem envAdvance_attack_stepZero (s : State) {v : Voice} (hstep : v.envStep = f64Zero)
    (hphase : v.envPhase = .attack) (hround : f64Rounded v.envLevel)
    (hlevel : v.envLevel.units < f64One) : envAdvance s v = v := by
  have hsame := f64Add_envRate_of_stepZero hstep hround
  rw [envAdvance_attack_below s hphase (by rwa [hsame]), hsame]

/-- A step of 0.0 changes nothing of a decay or release above 0.0 (43 R151). -/
theorem envAdvance_fall_stepZero (s : State) {v : Voice} (hstep : v.envStep = f64Zero)
    (hphase : v.envPhase = .decay ∨ v.envPhase = .release) (hround : f64Rounded v.envLevel)
    (hlevel : 0 < v.envLevel.units) : envAdvance s v = v := by
  have hsame := f64Add_envRate_of_stepZero hstep hround
  rw [envAdvance_fall_above s hphase (by rwa [hsame]), hsame]

/-- Settles O43: at the index stands an entry of 0.0; an envelope step of 0.0 changes nothing of the
record; and an attack at level 0.0 is then mixed at 0.0. -/
theorem zeroStepHoldsTheEnvelope : Obligations.ZeroStepHoldsTheEnvelope := by
  refine ⟨fun s v => attackStep_of_max_le, fun s n v v' l r hstep htick =>
    ⟨fun hphase hzero => ?_, fun hphase hround hlevel => ?_⟩⟩
  · rcases voiceTick_ok_cases htick with ⟨rfl, hl, hr⟩ | ⟨-, rfl, x, hmix⟩
    · exact ⟨hphase, hzero, hl, hr⟩
    · have hholds : envAdvance s v = v :=
        envAdvance_attack_stepZero s hstep hphase (hzero ▸ f64Rounded_zero)
          (by rw [hzero]; exact Int.natCast_pos.2 f64One_pos)
      rw [hholds, hzero, mix_levelZero] at hmix
      obtain ⟨hl, hr⟩ := Prod.mk.inj hmix
      rw [hholds]
      exact ⟨hphase, hzero, hl.symm, hr.symm⟩
  · rcases voiceTick_ok_cases htick with ⟨rfl, -⟩ | ⟨-, rfl, -⟩
    · exact ⟨rfl, rfl⟩
    · rw [envAdvance_fall_stepZero s hstep hphase hround hlevel]
      exact ⟨rfl, rfl⟩

end Sys2Proof.Machine
end

section
/-! PROOF. The attenuation tables: the laws of their entries, and that the loops of their rules build them
(44 R161, R162, R169). -/

namespace Sys2Proof.Machine

/-! ## The volume table -/

/-- No entry is above the one before it: the one evaluation that the order of all entries rests on. -/
theorem volumeTable_isChain : (volumeTable.toList.map BitVec.toNat).IsChain (· ≥ ·) := by
  decide +kernel

theorem volumeTable_antitone {i j : Nat} (hij : i ≤ j) (hj : j < 256) :
    volumeTable[j].toNat ≤ volumeTable[i].toNat := by
  rcases hij.eq_or_lt with rfl | hlt
  · exact le_rfl
  · have hsorted := List.pairwise_iff_getElem.1 (List.isChain_iff_pairwise.1 volumeTable_isChain)
    have hpair := hsorted i j (by simp; omega) (by simp; omega) hlt
    simpa only [List.getElem_map, Vector.getElem_toList] using hpair

theorem volumeTable_first : volumeTable[0] = 255 := by decide +kernel

/-- The first silent volume code is 172 (44 R161). -/
theorem volumeTable_172 : volumeTable[172] = 0 := by decide +kernel

theorem volumeTable_le_255 {i : Nat} (hi : i < 256) : volumeTable[i].toNat ≤ 255 :=
  (volumeTable_antitone (Nat.zero_le i) hi).trans_eq (congrArg BitVec.toNat volumeTable_first)

theorem volumeTable_of_172_le {i : Nat} (h : 172 ≤ i) (hi : i < 256) : volumeTable[i] = 0 := by
  have hle : volumeTable[i].toNat ≤ 0 :=
    (volumeTable_antitone h hi).trans_eq (congrArg BitVec.toNat volumeTable_172)
  exact BitVec.eq_of_toNat_eq (Nat.le_zero.1 hle)

/-! ## The pan table -/

/-- Up to 0x47 each entry is below the one before it. -/
theorem panTable_isChain : ((panTable.toList.take 0x48).map F64.units).IsChain (· > ·) := by
  decide +kernel

theorem panTable_strictAnti {i j : Nat} (hij : i < j) (hj : j ≤ 0x47) :
    panTable[j].units < panTable[i].units := by
  have hsorted := List.pairwise_iff_getElem.1 (List.isChain_iff_pairwise.1 panTable_isChain)
  simpa using hsorted i j (by simp; omega) (by simp; omega) hij

theorem panTable_first : panTable[0] = f64Unit := by decide +kernel

/-- The hard silence region (44 R162). -/
theorem panTable_drop : panTable.toList.drop 0x47 = List.replicate 0x1D f64Zero := by decide +kernel

theorem panTable_of_0x47_le {i : Nat} (h : 0x47 ≤ i) (hi : i < 0x64) : panTable[i] = f64Zero := by
  obtain ⟨k, rfl⟩ := Nat.exists_eq_add_of_le h
  have hdrop : (panTable.toList.drop 0x47)[k]? = some f64Zero := by
    rw [panTable_drop, List.getElem?_replicate_of_lt (by omega)]
  simpa [hi] using hdrop

/-- Every pan factor of the table lies in [0.0, 1.0]. -/
theorem panTable_bounds {i : Nat} (hi : i < 0x64) :
    0 ≤ panTable[i].units ∧ panTable[i].units ≤ f64One := by
  rcases Nat.lt_or_ge i 0x47 with hlt | hge
  · have hlow : panTable[0x47].units < panTable[i].units := panTable_strictAnti hlt le_rfl
    rw [panTable_of_0x47_le le_rfl (by omega)] at hlow
    refine ⟨hlow.le, ?_⟩
    rcases Nat.eq_zero_or_pos i with rfl | hpos
    · exact (congrArg F64.units panTable_first).le
    · have hhigh : panTable[i].units < panTable[0].units := panTable_strictAnti hpos hlt.le
      rw [panTable_first] at hhigh
      exact hhigh.le
  · rw [panTable_of_0x47_le hge hi]
    exact ⟨le_rfl, Int.natCast_nonneg _⟩

/-! ## Their rules -/

/-- The loop of 44 R161 gives the volume table, entry by entry. -/
theorem buildVolumeTable_eq : buildVolumeTable = volumeTable.toList := by decide +kernel

/-- The roots and quotients of 44 R162 give the pan table, entry by entry. -/
theorem buildPanTable_eq : buildPanTable = panTable.toList := by decide +kernel

/-- Settles O49, one table at a time. -/
theorem attenuationTablesFollowTheirRules : Obligations.AttenuationTablesFollowTheirRules :=
  ⟨buildVolumeTable_eq, buildPanTable_eq⟩

/-- Settles O50: the laws above; the count of equal neighbours is an evaluation. -/
theorem attenuationTableLaws : Obligations.AttenuationTableLaws :=
  ⟨fun _ j hij => volumeTable_antitone hij j.isLt, volumeTable_first,
    fun i h => volumeTable_of_172_le h i.isLt, by decide +kernel, panTable_first,
    fun _ _ => panTable_strictAnti, fun i h => panTable_of_0x47_le h i.isLt⟩

end Sys2Proof.Machine
end

section
/-! PROOF. The attenuation mixer: each stage and its bounds, when a voice contributes nothing, and the bound
of the emitted sums (44 R163 to R168, R170). -/

namespace Sys2Proof.Machine

/-! ## The volume stage -/

/-- The volume stage under the true volume table (44 R164). -/
theorem volumeStage_eq {s : State} (hvol : s.volumeTable = volumeTable) (x : Int) (code : Byte) :
    volumeStage s x code = x * (volumeTable[code.toNat]'code.isLt).toNat / 2 ^ 9 := by
  simp only [volumeStage, hvol]

theorem volumeStage_bounds {s : State} (hvol : s.volumeTable = volumeTable) {x : Int}
    (hlow : -32768 ≤ x) (hhigh : x ≤ 32767) (code : Byte) :
    -16320 ≤ volumeStage s x code ∧ volumeStage s x code ≤ 16319 := by
  have hv := volumeTable_le_255 code.isLt
  rw [volumeStage_eq hvol]
  generalize (volumeTable[code.toNat]'code.isLt).toNat = v at hv ⊢
  have hmin : -32768 * 255 ≤ x * v := by nlinarith
  have hmax : x * v ≤ 32767 * 255 := by nlinarith
  omega

theorem volumeStage_sampleZero (s : State) (code : Byte) : volumeStage s 0 code = 0 := by
  simp [volumeStage]

theorem volumeStage_of_172_le {s : State} (hvol : s.volumeTable = volumeTable) (x : Int)
    {code : Byte} (h : 172 ≤ code.toNat) : volumeStage s x code = 0 := by
  rw [volumeStage_eq hvol, volumeTable_of_172_le h code.isLt]
  simp

/-! ## Multiplying and truncating -/

/-- Level 1.0 and pan factor 1.0 leave a value unchanged (44 R165, R166). -/
theorem f64Trunc_mul_unit {e : Int} (h : e.natAbs ≤ 2 ^ 53) :
    f64Trunc (f64Mul (f64OfInt e) f64Unit) = e := by
  rw [f64Mul_one (f64OfInt_rounded e), f64Trunc_ofInt h]

/-- A factor from 0.0 to 1.0 does not raise a magnitude (44 R165, R166). -/
theorem natAbs_f64Trunc_mul_le {e : Int} (h : e.natAbs ≤ 2 ^ 53) {f : F64} (hf : 0 ≤ f.units)
    (hf1 : f.units ≤ f64One) : (f64Trunc (f64Mul (f64OfInt e) f)).natAbs ≤ e.natAbs := by
  rcases Int.le_total 0 e with h0 | h0
  · have := f64Trunc_mul_of_nonneg h h0 hf hf1
    omega
  · have := f64Trunc_mul_of_nonpos h h0 hf hf1
    omega

/-! ## The envelope stage -/

theorem envelopeStage_valueZero (level : F64) : envelopeStage 0 level = 0 := by
  simp [envelopeStage]

theorem envelopeStage_levelZero (p9 : Int) : envelopeStage p9 f64Zero = 0 := by
  simp [envelopeStage]

/-- Settles O51: the bounds of the volume stage keep its value within 53 bits, where a level moves it
toward zero. -/
theorem volumeAndEnvelopeStages : Obligations.VolumeAndEnvelopeStages := by
  intro s x code level hvol hlow hhigh hlevel hlevel1
  obtain ⟨hmin, hmax⟩ := volumeStage_bounds hvol hlow hhigh code
  have hexact : (volumeStage s x code).natAbs ≤ 2 ^ 53 := by omega
  exact ⟨(Int.fdiv_eq_ediv_of_nonneg _ (by decide)).symm, rfl, hmin, hmax,
    f64Trunc_mul_unit hexact, envelopeStage_levelZero _,
    fun h0 => f64Trunc_mul_of_nonneg hexact h0 hlevel hlevel1,
    fun h0 => f64Trunc_mul_of_nonpos hexact h0 hlevel hlevel1⟩

/-! ## The pan stage -/

/-- `Pan(c)` inside the table (44 R166). -/
theorem panFactor_of_lt {s : State} {code : Byte} (h : code.toNat < 0x64) :
    panFactor s code = s.panTable[code.toNat] := dif_pos h

/-- `Pan(c)` beyond the table (44 R163). -/
theorem panFactor_of_le {s : State} {code : Byte} (h : 0x64 ≤ code.toNat) :
    panFactor s code = s.cfg.panOor := dif_neg (Nat.not_lt.2 h)

theorem panFactor_first {s : State} (hpan : s.panTable = panTable) :
    panFactor s 0x00 = f64Unit := by
  rw [panFactor_of_lt (by decide)]
  simp only [hpan]
  exact panTable_first

theorem panFactor_silent {s : State} (hpan : s.panTable = panTable) {code : Byte}
    (hlow : 0x47 ≤ code.toNat) (hhigh : code.toNat < 0x64) : panFactor s code = f64Zero := by
  simp only [panFactor_of_lt hhigh, hpan, panTable_of_0x47_le hlow hhigh]

theorem panFactor_bounds {s : State} (hpan : s.panTable = panTable) (hoor : 0 ≤ s.cfg.panOor.units)
    (hoor1 : s.cfg.panOor.units ≤ f64One) (code : Byte) :
    0 ≤ (panFactor s code).units ∧ (panFactor s code).units ≤ f64One := by
  rcases Nat.lt_or_ge code.toNat 0x64 with hlt | hge
  · simpa only [panFactor_of_lt hlt, hpan] using panTable_bounds hlt
  · rw [panFactor_of_le hge]
    exact ⟨hoor, hoor1⟩

theorem panStage_of_factorZero {s : State} {code : Byte} (h : panFactor s code = f64Zero) (e : Int) :
    panStage s e code = 0 := by
  rw [panStage, h, f64Mul_zero, f64Trunc_zero]

theorem panStage_valueZero (s : State) (code : Byte) : panStage s 0 code = 0 := by
  simp [panStage]

/-- Settles O52: one clause for each thing the factor of a code can be. (`panStage` itself is the model's
function.) -/
theorem panStage_holds : Obligations.PanStage := by
  intro s e code hpan hlow hhigh
  refine ⟨fun h => ?_, ?_, fun hsilent hin => ?_, fun hout => ?_⟩
  · rw [panStage, panFactor_of_lt h]
  · rw [panStage, panFactor_first hpan, f64Trunc_mul_unit (by omega)]
  · exact panStage_of_factorZero (panFactor_silent hpan hsilent (by omega)) e
  · rw [panStage, panFactor_of_le hout]

/-! ## Zero contributions -/

/-- With `PAN_OOR` at 0.0 every code from 0x47 on silences its side (44 R170). -/
theorem panFactor_of_0x47_le {s : State} (hpan : s.panTable = panTable)
    (hoor : s.cfg.panOor = f64Zero) {code : Byte} (h : 0x47 ≤ code.toNat) :
    panFactor s code = f64Zero := by
  rcases Nat.lt_or_ge code.toNat 0x64 with hlt | hge
  · exact panFactor_silent hpan h hlt
  · rw [panFactor_of_le hge, hoor]

theorem mix_of_envelopeZero {s : State} {x : Int} {code : Byte} {level : F64}
    (h : envelopeStage (volumeStage s x code) level = 0) (cl cr : Byte) :
    mix s x code level cl cr = (0, 0) := by
  simp only [mix, h, panStage_valueZero]

theorem mix_of_volumeZero {s : State} {x : Int} {code : Byte} (h : volumeStage s x code = 0)
    (level : F64) (cl cr : Byte) : mix s x code level cl cr = (0, 0) :=
  mix_of_envelopeZero (by rw [h, envelopeStage_valueZero]) cl cr

/-- Settles O53: each condition makes one stage give 0, and the stages after it keep that 0. -/
theorem zeroContributions : Obligations.ZeroContributions := by
  intro s x code level cl cr hvol hpan hoor
  refine ⟨?_, fun hl => ?_, fun hr => ?_⟩
  · rintro (rfl | hcode | rfl | hproduct)
    · exact mix_of_volumeZero (volumeStage_sampleZero s code) level cl cr
    · exact mix_of_volumeZero (volumeStage_of_172_le hvol x hcode) level cl cr
    · exact mix_levelZero s x code cl cr
    · exact mix_of_envelopeZero (f64Trunc_of_lt_one hproduct) cl cr
  · exact panStage_of_factorZero (panFactor_of_0x47_le hpan hoor hl) _
  · exact panStage_of_factorZero (panFactor_of_0x47_le hpan hoor hr) _

/-! ## The output sums -/

/-- Neither the envelope nor the pan stage raises a magnitude, so a voice stays within the bounds of the
volume stage (44 R164 to R167). -/
theorem mix_natAbs_le {s : State} (hvol : s.volumeTable = volumeTable)
    (hpan : s.panTable = panTable) (hoor : 0 ≤ s.cfg.panOor.units)
    (hoor1 : s.cfg.panOor.units ≤ f64One) {x : Int} (hlow : -32768 ≤ x) (hhigh : x ≤ 32767)
    {level : F64} (hlevel : 0 ≤ level.units) (hlevel1 : level.units ≤ f64One) (code cl cr : Byte) :
    (mix s x code level cl cr).1.natAbs ≤ 16320 ∧ (mix s x code level cl cr).2.natAbs ≤ 16320 := by
  obtain ⟨hmin, hmax⟩ := volumeStage_bounds hvol hlow hhigh code
  have henv : (envelopeStage (volumeStage s x code) level).natAbs ≤ (volumeStage s x code).natAbs :=
    natAbs_f64Trunc_mul_le (by omega) hlevel hlevel1
  have hside (c : Byte) : (panStage s (envelopeStage (volumeStage s x code) level) c).natAbs ≤
      (envelopeStage (volumeStage s x code) level).natAbs := by
    obtain ⟨hfactor, hfactor1⟩ := panFactor_bounds hpan hoor hoor1 c
    exact natAbs_f64Trunc_mul_le (by omega) hfactor hfactor1
  exact ⟨(hside cl).trans (by omega), (hside cr).trans (by omega)⟩

theorem signFold_bounds (w : Half) : -32768 ≤ signFold w ∧ signFold w ≤ 32767 :=
  ⟨BitVec.le_toInt _, Int.le_of_lt_add_one BitVec.toInt_lt⟩

/-- What one voice adds to a tick: nothing, or a mixed sample at a level in [0.0, 1.0]. -/
theorem contribution_natAbs_le {s : State} (h : Inv s) (hoor : 0 ≤ s.cfg.panOor.units)
    (hoor1 : s.cfg.panOor.units ≤ f64One) (n : VoiceIdx) :
    (contribution s n).1.natAbs ≤ 16320 ∧ (contribution s n).2.natAbs ≤ 16320 := by
  rcases voiceTick_cases s n (voiceAt s n) with ⟨-, e⟩ | ⟨hskip, -, -, e⟩ | ⟨-, -, -, e⟩
  · rw [contribution_of_ok e]
    decide
  · have hsounds : (voiceAt s n).envPhase ≠ .none := fun hnone => by
      simp [(isSkipped_iff _).2 (.inr hnone)] at hskip
    have henv := envelopeOk_envAdvance h (h.voices n) hsounds
    obtain ⟨hlow, hhigh⟩ := signFold_bounds
      (typeDecode (wordAt s (fetchAddr (voiceAt s n)).toNat) (voiceType (voiceAt s n)))
    rw [sounding_eq] at e
    rw [contribution_of_ok e]
    exact mix_natAbs_le h.tables.volume h.tables.pan hoor hoor1 hlow hhigh henv.level_nonneg
      henv.level_le_one _ _ _
  · simp only [contribution, e]
    decide

/-- The sum of a side over the 32 voices, where each adds at most 16320 in magnitude. -/
theorem sum_allVoices_natAbs_le {side : VoiceIdx → Int} (h : ∀ n, (side n).natAbs ≤ 16320) :
    (allVoices.map side).sum.natAbs ≤ 522240 := by
  have hmem : ∀ y ∈ allVoices.map side, -16320 ≤ y ∧ y ≤ 16320 := by
    intro y hy
    obtain ⟨n, -, rfl⟩ := List.mem_map.1 hy
    have := h n
    omega
  have hlength : (allVoices.map side).length = 32 := by simp [allVoices]
  have hmin := List.card_nsmul_le_sum _ (-16320) fun y hy => (hmem y hy).1
  have hmax := List.sum_le_card_nsmul _ 16320 fun y hy => (hmem y hy).2
  rw [hlength, nsmul_eq_mul] at hmin hmax
  omega

/-- Settles O54: the emitted pair is `tickSums`, the sums of the contributions of the 32 voices. -/
theorem outputSumsAreBounded : Obligations.OutputSumsAreBounded := by
  intro s t h hoor hoor1 htick
  exact ⟨_, _, portTick_outputs htick,
    sum_allVoices_natAbs_le fun n => (contribution_natAbs_le h hoor hoor1 n).1,
    sum_allVoices_natAbs_le fun n => (contribution_natAbs_le h hoor hoor1 n).2⟩

end Sys2Proof.Machine
end

section
/-! PROOF. The phase accumulator: the position after an advance, with and without a wrap (45 R174 to R178),
and the corner cases of the wrap (45 R179 to R182). -/

namespace Sys2Proof.Machine

/-! ## The new position -/

/-- Without a wrap the new position is the advanced one, which fits 40 bits: its index is at most the
end (45 R177). -/
theorem phaseAdvance_toNat_of_le_end {v : Voice}
    (h : advancedPos v / 2 ^ 16 ≤ (voiceEnd v).toNat) :
    (phaseAdvance v).toNat = advancedPos v := by
  have hend := (voiceEnd v).isLt
  have hpast : pastEnd v = false := decide_eq_false (Nat.not_lt.2 h)
  rw [phaseAdvance, hpast, if_neg Bool.false_ne_true, BitVec.toNat_ofNat]
  exact Nat.mod_eq_of_lt (by omega)

/-- A wrap goes back by the loop and is clamped to the start (45 R175, R176). -/
theorem phaseAdvance_toNat_of_end_lt {v : Voice}
    (h : (voiceEnd v).toNat < advancedPos v / 2 ^ 16) :
    (phaseAdvance v).toNat = max (loopBack v).toNat ((voiceStart v).toNat * 2 ^ 16) := by
  have hpast : pastEnd v = true := decide_eq_true h
  rw [phaseAdvance, hpast, if_pos rfl, clampToStart_toNat]

/-- Settles O56, by the branch of 45 R174 that is taken. -/
theorem phaseAdvanceValue : Obligations.PhaseAdvanceValue := by
  intro v p w hp hw
  obtain rfl : p = advancedPos v := hp
  obtain rfl : w = (loopBack v).toNat := Int.ofNat.inj (hw.trans (loopBack_toNat v).symm)
  exact ⟨phaseAdvance_toNat_of_le_end, phaseAdvance_toNat_of_end_lt⟩

/-! ## The wrap in whole samples -/

/-- A wrap discards the fraction, so it is subtraction of sample indices modulo 2^24 (45 R175). -/
theorem loopBack_toNat_samples (v : Voice) :
    (loopBack v).toNat =
      (advancedPos v / 2 ^ 16 + 2 ^ 24 - (voiceLoop v).toNat) % 2 ^ 24 * 2 ^ 16 := by
  have hloop := (voiceLoop v).isLt
  have hback := loopBack_toNat v
  omega

/-- The position after a wrap is the index of a sample, the greater of the two of 45 R174. -/
theorem phaseAdvance_toNat_samples {v : Voice}
    (h : (voiceEnd v).toNat < advancedPos v / 2 ^ 16) :
    (phaseAdvance v).toNat =
      max ((advancedPos v / 2 ^ 16 + 2 ^ 24 - (voiceLoop v).toNat) % 2 ^ 24) (voiceStart v).toNat *
        2 ^ 16 := by
  rw [phaseAdvance_toNat_of_end_lt h, loopBack_toNat_samples, Nat.mul_max_mul_right]

/-- Settles O57: a whole number of samples has fraction 0, and the clamp gives the bound. -/
theorem wrapLaw : Obligations.WrapLaw := by
  intro v h
  rw [phaseAdvance_toNat_samples h]
  exact ⟨Nat.mul_mod_left _ _, Nat.mul_le_mul_right _ (Nat.le_max_right _ _)⟩

/-! ## Corner cases -/

/-- 45 R179: with loop distance 0 a wrap only clears the fraction, so a step below one sample never
leaves the sample just past the end. -/
theorem phaseAdvance_of_loop_zero {v : Voice} (hloop : voiceLoop v = 0)
    (hstep : v.step.toNat < 0x10000) (hpos : v.pos.toNat = ((voiceEnd v).toNat + 1) * 2 ^ 16)
    (hstart : (voiceStart v).toNat ≤ (voiceEnd v).toNat + 1) : phaseAdvance v = v.pos := by
  have hlt := v.pos.isLt
  have hindex : advancedPos v / 2 ^ 16 = (voiceEnd v).toNat + 1 := by rw [advancedPos]; omega
  have hdistance : (voiceLoop v).toNat = 0 := congrArg BitVec.toNat hloop
  have hback : ((voiceEnd v).toNat + 1 + 2 ^ 24 - (voiceLoop v).toNat) % 2 ^ 24 =
      (voiceEnd v).toNat + 1 := by omega
  apply BitVec.eq_of_toNat_eq
  rw [phaseAdvance_toNat_samples (by omega), hindex, hback, Nat.max_eq_left hstart, hpos]

/-- 45 R180: a loop longer than the advanced index wraps to the top of the sample space. -/
theorem phaseAdvance_toNat_of_index_lt_loop {v : Voice}
    (hend : (voiceEnd v).toNat < advancedPos v / 2 ^ 16)
    (hloop : advancedPos v / 2 ^ 16 < (voiceLoop v).toNat)
    (hstart : (voiceStart v).toNat ≤ advancedPos v / 2 ^ 16 + 2 ^ 24 - (voiceLoop v).toNat) :
    (phaseAdvance v).toNat = (advancedPos v / 2 ^ 16 + 2 ^ 24 - (voiceLoop v).toNat) * 2 ^ 16 := by
  rw [phaseAdvance_toNat_samples hend, Nat.mod_eq_of_lt (by omega), Nat.max_eq_left hstart]

/-- 45 R181: from a start above the end every tick wraps, to the start or below it, and the clamp brings
the position to the start. -/
theorem phaseAdvance_of_end_lt_start {v : Voice} (hend : (voiceEnd v).toNat < (voiceStart v).toNat)
    (hpos : v.pos = posOfIndex (voiceStart v)) (hloop : 1 ≤ (voiceLoop v).toNat)
    (hloopStart : (voiceLoop v).toNat ≤ (voiceStart v).toNat) (hstep : v.step.toNat ≤ 0x10000) :
    phaseAdvance v = v.pos := by
  have hlt := (voiceStart v).isLt
  have hindex : advancedPos v / 2 ^ 16 = (voiceStart v).toNat + v.step.toNat / 2 ^ 16 := by
    rw [advancedPos, hpos, posOfIndex_toNat]; omega
  apply BitVec.eq_of_toNat_eq
  rw [phaseAdvance_toNat_samples (by omega), hindex, Nat.max_eq_right (by omega), hpos,
    posOfIndex_toNat]

/-- 45 R182: a step of 0 advances to the position itself. -/
theorem phaseAdvance_of_step_zero {v : Voice} (hstep : v.step = 0)
    (hend : v.pos.toNat / 2 ^ 16 ≤ (voiceEnd v).toNat) : phaseAdvance v = v.pos := by
  have hadv : advancedPos v = v.pos.toNat := by simp [advancedPos, hstep]
  apply BitVec.eq_of_toNat_eq
  rw [phaseAdvance_toNat_of_le_end (hadv.symm ▸ hend), hadv]

/-- Settles O58: one lemma per corner case. -/
theorem phaseCornerCases : Obligations.PhaseCornerCases := by
  intro v
  refine ⟨phaseAdvance_of_loop_zero, ?_, phaseAdvance_of_end_lt_start, phaseAdvance_of_step_zero⟩
  rintro k rfl hend hloop hstart
  exact phaseAdvance_toNat_of_index_lt_loop hend hloop hstart

end Sys2Proof.Machine
end

section
/-! PROOF. The requests that are refused (60 R185), the voice whose fault a tick reports (60 R186, R188,
R189), and the three causes of a fault (60 R186). -/

namespace Sys2Proof.Machine

/-! ## Refusals -/

/-- Settles O9: the request at the head of the queue is the one served, and its own check refuses it. -/
theorem refusedRequests : Obligations.RefusedRequests := by
  refine ⟨fun s w lanes rest hpending hlanes => ?access, fun s hz rest hpending hlow => ?setClock⟩
  case access =>
    rw [step_of_pending hpending]
    exact if_neg hlanes
  case setClock =>
    rw [step_of_pending hpending]
    exact if_pos hlow

/-! ## The fault of a tick -/

theorem allVoices_pairwise_lt : allVoices.Pairwise fun m n => m.toNat < n.toNat := by
  rw [← List.pairwise_map, allVoices_toNat]
  exact List.pairwise_lt_range

/-- The voices a tick has processed when it comes to voice `n` are those of lower number. -/
theorem mem_before_allVoices_iff {before after : List VoiceIdx} {n : VoiceIdx}
    (h : allVoices = before ++ n :: after) (m : VoiceIdx) : m ∈ before ↔ m.toNat < n.toNat := by
  have hsorted := allVoices_pairwise_lt
  have hm := mem_allVoices m
  rw [h] at hsorted hm
  obtain ⟨-, htail, hbefore⟩ := List.pairwise_append.1 hsorted
  refine ⟨fun hmem => hbefore m hmem n List.mem_cons_self, fun hlt => ?_⟩
  rcases List.mem_append.1 hm with hmem | hmem
  · exact hmem
  · rcases List.mem_cons.1 hmem with rfl | hafter
    · omega
    · have := List.rel_of_pairwise_cons htail hafter
      omega

theorem portTick_completes_or_faults (s : State) :
    (∃ t, portTick s = .next t) ∨ ∃ f, portTick s = .fault f :=
  (portTick_withPending s s.pending).imp (fun ⟨t, ht, _⟩ => ⟨t, ht⟩) fun ⟨f, hf, _⟩ => ⟨f, hf⟩

theorem portTick_eq_fault_iff_tickLoop {s : State} {f : Fault} :
    portTick s = .fault f ↔ tickLoop s 0 0 allVoices = .error f := by
  unfold portTick
  cases tickLoop s 0 0 allVoices <;> simp

/-- The fault of a tick is the fetch of the lowest-numbered voice whose fetch faults (60 R189). -/
theorem portTick_eq_fault_iff {s : State} {f : Fault} :
    portTick s = .fault f ↔
      ∃ n, fetchFaults s (voiceAt s n) = true ∧
        (∀ m, m.toNat < n.toNat → fetchFaults s (voiceAt s m) = false) ∧
        f = .storageFault (fetchAddr (voiceAt s n)) (.fetch n) := by
  rw [portTick_eq_fault_iff_tickLoop, tickLoop_error_iff _ _ _ _ _ allVoices_nodup]
  constructor
  · rintro ⟨before, n, after, hsplit, hbefore, hn, hf⟩
    exact ⟨n, hn, fun m hm => hbefore m ((mem_before_allVoices_iff hsplit m).2 hm), hf⟩
  · rintro ⟨n, hn, hlower, hf⟩
    obtain ⟨before, after, hsplit⟩ := List.append_of_mem (mem_allVoices n)
    exact ⟨before, n, after, hsplit, fun m hm => hlower m ((mem_before_allVoices_iff hsplit m).1 hm),
      hn, hf⟩

/-- A voice that ticks has not faulted. -/
theorem fetchFaults_of_voiceTick_ok {s : State} {n : VoiceIdx} {v : Voice} {p : Voice × Int × Int}
    (h : voiceTick s n v = .ok p) : fetchFaults s v = false := by
  rcases voiceTick_cases s n v with ⟨hskip, -⟩ | ⟨-, hfetch, -, -⟩ | ⟨-, -, -, herror⟩
  · simp [fetchFaults, hskip]
  · exact hfetch
  · rw [herror] at h; cases h

/-- A tick completes where no voice's fetch faults (60 R186). -/
theorem portTick_completes_iff (s : State) :
    (∃ t, portTick s = .next t) ↔ ∀ n, fetchFaults s (voiceAt s n) = false := by
  constructor
  · rintro ⟨t, ht⟩ n
    obtain ⟨l, r, hvoice⟩ := portTick_voice ht n
    exact fetchFaults_of_voiceTick_ok hvoice
  · intro hgood
    rcases portTick_completes_or_faults s with hnext | ⟨f, hf⟩
    · exact hnext
    · obtain ⟨n, hn, -, -⟩ := portTick_eq_fault_iff.1 hf
      rw [hgood n] at hn; cases hn

/-- Settles O28: a tick goes through the voices in increasing order, so those before the voice that ends
it are those of lower number (`mem_before_allVoices_iff`). -/
theorem tickReportsTheLowestFaultingVoice : Obligations.TickReportsTheLowestFaultingVoice :=
  fun s => ⟨portTick_completes_iff s, fun _ => portTick_eq_fault_iff⟩

/-! ## The faults of a step -/

/-- The faults a step in `s` may raise, with the request that raises each (60 R186). -/
inductive StepFault (s : State) : Fault → Prop
  | fetch {n : VoiceIdx} : nextIsTick s = true → fetchFaults s (voiceAt s n) = true →
      StepFault s (.storageFault (fetchAddr (voiceAt s n)) (.fetch n))
  | extWrite {ig : BitVec 14} : nextAccess s = some (.wrExtwrite ig) →
      s.cfg.storageBytes < (extByteAddr s).toNat + 2 →
      StepFault s (.storageFault (extByteAddr s) .extWrite)
  | extRead : nextAccess s = some .rdExtdata → s.cfg.storageBytes < (extByteAddr s).toNat + 2 →
      StepFault s (.storageFault (extByteAddr s) .extRead)

theorem stepFault_of_portTick {s : State} {q : List HostRequest} {f : Fault}
    (h : portTick { s with pending := q } = .fault f) (htick : nextIsTick s = true) :
    StepFault s f := by
  obtain ⟨n, hn, -, rfl⟩ := portTick_eq_fault_iff.1 h
  exact .fetch htick hn

theorem stepFault_of_exec {s : State} {q : List HostRequest} {i : Instr} {f : Fault}
    (h : exec i { s with pending := q } = .fault f) (hi : nextAccess s = some i) :
    StepFault s f := by
  rcases onlyExternalMemoryAccessesFault i { s with pending := q } with
    ⟨t, ht⟩ | ⟨hout, ⟨⟨ig, rfl⟩, hfault⟩ | ⟨rfl, hfault⟩⟩
  · rw [ht] at h; cases h
  · rw [hfault] at h; cases h
    exact .extWrite hi hout
  · rw [hfault] at h; cases h
    exact .extRead hi hout

/-- Every fault a step can raise. -/
theorem stepFault_of_step {s : State} {f : Fault} (h : step s = .fault f) : StepFault s f := by
  rcases step_cases s with ⟨-, hs⟩ | ⟨q, rest, hp, hs⟩ <;> rw [hs] at h
  · cases h
  · cases q with
    | access w lanes =>
      simp only [serve, serveAccess] at h
      split at h
      · exact stepFault_of_exec h (by simp [nextAccess, hp])
      · cases h
    | tick => exact stepFault_of_portTick h (by simp [nextIsTick, hp])
    | block samples =>
      cases samples with
      | zero => cases h
      | succ k => exact stepFault_of_portTick h (by simp [nextIsTick, hp])
    | setClock hz => simp only [serve, portSetClock] at h; split at h <;> cases h
    | reset => cases h
    | refill a b => simp only [serve, portRefill] at h; split at h <;> cases h

/-- The word of the address latches ends within 2^32 bytes: its address is even (20_memory R48). -/
theorem extByteAddr_add_two_le (s : State) : (extByteAddr s).toNat + 2 ≤ 2 ^ 32 := by
  rw [extByteAddr_toNat]
  omega

/-- No fetch reaches past 2^25 bytes (60 R186). -/
theorem fetchFaults_of_le {s : State} (h : 2 ^ 25 ≤ s.cfg.storageBytes) (v : Voice) :
    fetchFaults s v = false := by
  have hle := fetchAddr_le v
  rw [← Bool.not_eq_true, fetchFaults_iff]
  omega

/-- With 2^32 bytes no cause of a fault is left (60 R186). -/
theorem not_stepFault_of_le {s : State} (h : 2 ^ 32 ≤ s.cfg.storageBytes) (f : Fault) :
    ¬ StepFault s f := by
  have hext := extByteAddr_add_two_le s
  intro hf
  cases hf with
  | fetch _ hn => rw [fetchFaults_of_le (by omega)] at hn; cases hn
  | extWrite _ hout | extRead _ hout => omega

/-- Settles O59: a step faults only as `StepFault` says, and in each of its cases the word lies outside the
range, which a fetch cannot where 2^25 bytes are in it, nor the latched word where 2^32 are. -/
theorem storageFaultHasThreeCauses : Obligations.StorageFaultHasThreeCauses := by
  refine ⟨fun s a op h => ?causes, fun s h => ?ticks, fun s f h hf => ?nothing⟩
  case causes =>
    cases stepFault_of_step h with
    | @fetch n htick hn =>
      obtain ⟨hsounds, hout⟩ := (fetchFaults_iff _ _).1 hn
      exact ⟨hout, .inl ⟨htick, n, rfl, rfl, hsounds⟩⟩
    | extWrite hi hout => exact ⟨hout, .inr (.inl ⟨rfl, rfl, _, hi⟩)⟩
    | extRead hi hout => exact ⟨hout, .inr (.inr ⟨rfl, rfl, hi⟩)⟩
  case ticks => exact (portTick_completes_iff s).2 fun n => fetchFaults_of_le h (voiceAt s n)
  case nothing => exact not_stepFault_of_le h f (stepFault_of_step hf)

end Sys2Proof.Machine
end

section
/-! PROOF. The reset operation (70 R195). -/

namespace Sys2Proof.Machine

theorem resetVoice_zeroed :
    registerFields resetVoice = (List.replicate 13 0, 0) ∧ resetVoice.pos = 0 ∧
      resetVoice.envPhase = .none ∧ resetVoice.envLevel.units = 0 ∧
      resetVoice.envStep.units = 0 ∧ resetVoice.envScale.units = f64One :=
  ⟨rfl, rfl, rfl, rfl, rfl, rfl⟩

/-- A reset leaves every voice the record the initial state holds (10_state R31). -/
theorem voiceAt_of_portReset {s t : State} (h : portReset s = .next t) (n : VoiceIdx) :
    voiceAt t n = resetVoice := by
  cases h
  exact voiceAt_of_replicate rfl n

/-- A reset builds the rate tables for the clock it keeps; the divider 384 of `sampleRate` is that of
10_state R27. -/
theorem rateTables_of_portReset {s t : State} (h : portReset s = .next t) :
    t.ar = buildAttackTable s.cfg.attackRate (s.clock / 384) ∧
      t.dr = buildFallTable s.cfg.decayRate (s.clock / 384) ∧
      t.rr = buildFallTable s.cfg.releaseRate (s.clock / 384) := by
  cases h
  exact ⟨rfl, rfl, rfl⟩

/-- Settles O47: every voice record becomes `resetVoice`, the rate tables are those of the clock in force,
and the fields that reset does not assign are the ones listed as kept. -/
theorem resetOperationZeroesTheCore : Obligations.ResetOperationZeroesTheCore := by
  intro s
  obtain ⟨t, ht⟩ : ∃ t, portReset s = .next t := ⟨_, rfl⟩
  obtain ⟨har, hdr, hrr⟩ := rateTables_of_portReset ht
  have hvoice (n : VoiceIdx) := voiceAt_of_portReset ht n
  refine ⟨t, ht, ?config, ?storage, ?host, ?volume, ?pan, ?status, ?reqch, ?extAddr, ?extData,
    har, hdr, hrr, fun n => ?zeroed⟩
  case zeroed => rw [hvoice n]; exact resetVoice_zeroed
  case config => cases ht; exact ⟨rfl, rfl⟩
  case storage => cases ht; exact fun _ => rfl
  case host => cases ht; exact ⟨rfl, rfl, rfl⟩
  all_goals cases ht; rfl

end Sys2Proof.Machine
end
